-- ==== Sys2Proof/Word.lean ====
section
/-!
DEFINITION. The words of the block: bytes, byte strings, and the fixed widths of R6 and R7 (spec/00_scope.md).
-/

namespace Sys2Proof

/-- An octet; bit 7 is the most significant (R9). -/
abbrev Byte := BitVec 8

/-- A buffer or a byte string: a finite sequence of bytes, lowest offset first (R11). -/
abbrev Bytes := List Byte

/-- `u24`: the frame `length` field (R6). -/
abbrev U24 := BitVec 24

/-- `u31`: a stream id (R6). -/
abbrev StreamId := BitVec 31

/-- `u32` and `s32`: a settings value, a table limit (TS_BITS = 32), a window (WIN_BITS = 32, signed) (R6, R7). -/
abbrev U32 := BitVec 32

/-- The exact result of window arithmetic is in the signed 32-bit range of R231. -/
def inS32 (x : Int) : Bool := decide (-2147483648 ≤ x) && decide (x ≤ 2147483647)

/-- A mathematical integer as a two's complement 32-bit word; used only where `inS32` holds (R231). -/
def toS32 (x : Int) : U32 := BitVec.ofInt 32 x

/-- An ASCII text as bytes, one byte per character (R116). -/
def ascii (s : String) : Bytes := s.toList.map fun c => BitVec.ofNat 8 c.toNat

end Sys2Proof
end

