-- ==== Sys2Proof/Config.lean ====
section
/-!
DEFINITION. What is fixed for the machine: the parameters of R7, the configuration functions and the static table of R8
and R152. HuffEnc and HuffDec have no body here: nothing can be proved of them but under the named property HuffRoundTrip.
-/

namespace Sys2Proof

/-- A header entry: a (name, value) pair of byte strings (R14). -/
structure Header where
  name  : Bytes
  value : Bytes
  deriving DecidableEq, Repr

namespace Config

/-- INT_BITS: the largest prefix integer the decoder accepts is `2^INT_BITS - 1` (R7, value taken 32; log 9). -/
def intBits : Nat := 32

/-- The largest prefix integer accepted (R107, R171). -/
def intMax : Nat := 2 ^ intBits - 1

/-- DT_CAP_MAX: the largest `table_size` the block accepts (R7, value taken `2^32 - 1`; log 9). -/
def dtCapMax : Nat := 2 ^ 32 - 1

/-- N_STREAMS: capacity of the stream table, `none` for unbounded (R7, value taken unbounded; log 9). -/
def nStreams : Option Nat := none

/-- N_SEND_CTX right after reset. DESIGN CHOICE (R7: OPEN, at least 1; log 8): two, as spec/95_test_vectors.md takes it.
Every other state of the model may have any number of contexts: it is the length of `State.sendCtx`. -/
def nSendCtxAtReset : Nat := 2

/-- CONN_WINDOW_INIT: reset value of `CONN_WINDOW` (R7, R53, value taken 65535; log 9). -/
def connWindowInit : U32 := 65535

/-- Reset value of both `table_size` registers (R35, R53). -/
def tableSizeInit : U32 := 4096

/-- Defaults of R32 for the three settings whose effective value is a number (R33). -/
def defaultHeaderTableSize : Nat := 4096
/-- See `defaultHeaderTableSize`. -/
def defaultInitialWindowSize : Nat := 65535
/-- See `defaultHeaderTableSize`. -/
def defaultMaxFrameSize : Nat := 16384

/-- HuffEnc, the external entropy coder at octet level, total (R8). No body: any function (log 12). -/
opaque huffEnc : Bytes → Bytes

/-- HuffDec, partial (R8). No body: any function (log 12). -/
opaque huffDec : Bytes → Option Bytes

/-- The one property that may be assumed of the two functions, by name (R8, R177). -/
def HuffRoundTrip : Prop := ∀ s : Bytes, huffDec (huffEnc s) = some s

/-- A static entry from its text. -/
def entry (name value : String) : Header := ⟨ascii name, ascii value⟩

/-- STATIC 1 to 14: the pseudo-header entries (R152). -/
def staticPseudo : List Header :=
  [entry ":authority" "", entry ":method" "GET", entry ":method" "POST", entry ":path" "/",
   entry ":path" "/index.html", entry ":scheme" "http", entry ":scheme" "https",
   entry ":status" "200", entry ":status" "204", entry ":status" "206", entry ":status" "304",
   entry ":status" "400", entry ":status" "404", entry ":status" "500"]

/-- STATIC 15 to 31 (R152). -/
def staticAcceptToContent : List Header :=
  [entry "accept-charset" "", entry "accept-encoding" "gzip, deflate", entry "accept-language" "",
   entry "accept-ranges" "", entry "accept" "", entry "access-control-allow-origin" "",
   entry "age" "", entry "allow" "", entry "authorization" "", entry "cache-control" "",
   entry "content-disposition" "", entry "content-encoding" "", entry "content-language" "",
   entry "content-length" "", entry "content-location" "", entry "content-range" "",
   entry "content-type" ""]

/-- STATIC 32 to 46 (R152). -/
def staticCookieToLocation : List Header :=
  [entry "cookie" "", entry "date" "", entry "etag" "", entry "expect" "", entry "expires" "",
   entry "from" "", entry "host" "", entry "if-match" "", entry "if-modified-since" "",
   entry "if-none-match" "", entry "if-range" "", entry "if-unmodified-since" "",
   entry "last-modified" "", entry "link" "", entry "location" ""]

/-- STATIC 47 to 61 (R152). -/
def staticMaxForwardsToEnd : List Header :=
  [entry "max-forwards" "", entry "proxy-authenticate" "", entry "proxy-authorization" "",
   entry "range" "", entry "referer" "", entry "refresh" "", entry "retry-after" "",
   entry "server" "", entry "set-cookie" "", entry "strict-transport-security" "",
   entry "transfer-encoding" "", entry "user-agent" "", entry "vary" "", entry "via" "",
   entry "www-authenticate" ""]

/-- STATIC, the constant static table of 61 entries; list position `j` is index `j + 1` (R8, R152; log 11). -/
def staticTable : List Header :=
  staticPseudo ++ staticAcceptToContent ++ staticCookieToLocation ++ staticMaxForwardsToEnd

end Config
end Sys2Proof
end

