-- ==== Sys2Proof/Syntax.lean ====
section
/-!
DEFINITION. The instructions: one constructor of Instr per mnemonic of spec/opcode_table.json, with the operand types of
R22 to R24, R95, R102 and R131. CMD rows are operations, HR rows header representations, FH rows classified type bytes.
-/

namespace Sys2Proof

/-- The three encodings the block meets (spec/30_encoding.md): the command interface, the header representations, the
frame type byte. -/
inductive Format where
  | cmd
  | hr
  | fh
  deriving DecidableEq, Repr

/-- The operand `table` of DT.*: ENC is 0, DEC is 1 (R102). -/
inductive TableId where
  | enc
  | dec
  deriving DecidableEq, Repr

/-- The eleven-valued enumeration FrameType (R22). -/
inductive FrameType where
  | data
  | headers
  | priority
  | rstStream
  | settings
  | pushPromise
  | ping
  | goaway
  | windowUpdate
  | continuation
  | unknown
  deriving DecidableEq, Repr

/-- The nine bytes `h[0..9)` of a frame header, the operand of FH.UNPACK (R130, R91). -/
structure HeaderBytes where
  b0 : Byte
  b1 : Byte
  b2 : Byte
  b3 : Byte
  b4 : Byte
  b5 : Byte
  b6 : Byte
  b7 : Byte
  b8 : Byte
  deriving DecidableEq, Repr

/-- IdxMode of an encoder entry (R24). -/
inductive IdxMode where
  | index
  | noIndex
  | never
  deriving DecidableEq, Repr

/-- HuffMode of an encoder entry (R24). -/
inductive HuffMode where
  | auto
  | raw
  | huff
  deriving DecidableEq, Repr

/-- EncEntry, the operand of the encoder (R24). -/
structure EncEntry where
  name  : Bytes
  value : Bytes
  idx   : IdxMode
  huff  : HuffMode
  deriving DecidableEq, Repr

/-- The operand of CFG.APPLY: six optional 32-bit values, parameter ids 1 to 6 (R270, R32). -/
structure SettingsUpdate where
  headerTableSize      : Option U32
  enablePush           : Option U32
  maxConcurrentStreams : Option U32
  initialWindowSize    : Option U32
  maxFrameSize         : Option U32
  maxHeaderListSize    : Option U32
  deriving DecidableEq, Repr

/-- A string as it stands in a header block: the Huffman flag and the octets that follow the length (R98, R174). -/
structure WireString where
  huff   : Bool
  octets : Bytes
  deriving DecidableEq, Repr

/-- The name of a literal representation: a combined index (a prefix integer of 1 or more) or an inline string (R96). -/
inductive NameRef where
  | indexed (i : Nat)
  | inline (s : WireString)
  deriving DecidableEq, Repr

/-- The sub-causes of DecodeError, in the order of R289. -/
inductive DecodeCause where
  | indexOutOfRange
  | truncated
  | integerOverflow
  | huffmanInvalid
  | sizeTooLarge
  deriving DecidableEq, Repr

/-- The instructions: 20 operations (R102), 5 header representations (R95), 11 frame types (R92). -/
inductive Instr where
  -- FH.*: the frame header parser
  | fhUnpack (h : HeaderBytes)
  | fhPack (length : U24) (typeRaw flags : Byte) (rsv : BitVec 1) (streamId : StreamId)
  | fhParse (b : Bytes)
  | fhCreate (streamId : StreamId) (typeRaw flags : Byte) (priority payload padding : Bytes)
  | fhSplit (b : Bytes)
  -- DT.*: the header table pair
  | dtAdd (t : TableId) (name value : Bytes)
  | dtGet (t : TableId) (p : Nat)
  | dtSetsize (t : TableId) (limit : Nat)
  -- HD.DECODE and HE.ENCODE
  | hdDecode (b : Bytes)
  | heEncode (entries : List EncEntry)
  -- WC.*: the window credit tracker
  | wcOpen (id : StreamId)
  | wcUpdate (id : StreamId) (delta : U32)
  | wcRst (id : StreamId)
  | wcGoaway
  | wcHdrs (id : StreamId) (endStream : Bool)
  | wcCredit (id : StreamId)
  -- SD.*: the send_data credit loop
  | sdStart (k : Nat) (sid : StreamId) (n : Nat) (wantEnd : Bool)
  | sdStep (k : Nat)
  | sdPoll (k : Nat)
  -- CFG.APPLY
  | cfgApply (u : SettingsUpdate)
  -- the five header representations
  | hdIndexed (i : Nat)
  | hdLitinc (name : NameRef) (value : WireString)
  | hdSizeupd (size : Nat)
  | hdLitno (name : NameRef) (value : WireString)
  | hdLitnever (name : NameRef) (value : WireString)
  -- the frame types
  | ftData
  | ftHeaders
  | ftPriority
  | ftRstStream
  | ftSettings
  | ftPushPromise
  | ftPing
  | ftGoaway
  | ftWindowUpdate
  | ftContinuation
  | ftUnknown (typeRaw : Byte)
  deriving DecidableEq, Repr

/-- The encoding an instruction belongs to: the "format" column of spec/opcode_table.json. -/
def Instr.format : Instr → Format
  | .fhUnpack _ | .fhPack _ _ _ _ _ | .fhParse _ | .fhCreate _ _ _ _ _ _ | .fhSplit _ => .cmd
  | .dtAdd _ _ _ | .dtGet _ _ | .dtSetsize _ _ => .cmd
  | .hdDecode _ | .heEncode _ => .cmd
  | .wcOpen _ | .wcUpdate _ _ | .wcRst _ | .wcGoaway | .wcHdrs _ _ | .wcCredit _ => .cmd
  | .sdStart _ _ _ _ | .sdStep _ | .sdPoll _ => .cmd
  | .cfgApply _ => .cmd
  | .hdIndexed _ | .hdLitinc _ _ | .hdSizeupd _ | .hdLitno _ _ | .hdLitnever _ _ => .hr
  | .ftData | .ftHeaders | .ftPriority | .ftRstStream | .ftSettings | .ftPushPromise | .ftPing
  | .ftGoaway | .ftWindowUpdate | .ftContinuation | .ftUnknown _ => .fh

end Sys2Proof
end

