-- ==== Sys2Proof/WellFormed.lean ====
section
/-!
DEFINITION. When an instruction has an encoding: its operands fit the fields of the command port (log 2), the prefix
integers of R107 and the code space of R92. Operands typed to their width (R132) need no check.
-/

namespace Sys2Proof

/-- A byte string fits the port's 32-bit length field (log 2, log 10). -/
def Bytes.fits (b : Bytes) : Bool := decide (b.length < 2 ^ 32)

/-- A natural operand fits the port's 64-bit field (log 2). -/
def natFits (n : Nat) : Bool := decide (n < 2 ^ 64)

/-- A prefix integer is in range (R107). -/
def intFits (n : Nat) : Bool := decide (n ≤ Config.intMax)

/-- A wire string's length is a prefix integer (R98, R107). -/
def WireString.fits (s : WireString) : Bool := intFits s.octets.length

/-- An indexed name is a prefix integer of 1 or more; an inline name is a wire string (R96). -/
def NameRef.fits : NameRef → Bool
  | .indexed i => decide (1 ≤ i) && intFits i
  | .inline s => s.fits

/-- Both strings of an encoder entry fit the port. -/
def EncEntry.fits (e : EncEntry) : Bool := e.name.fits && e.value.fits

/-- The instruction has an encoding. -/
def Instr.wf : Instr → Bool
  | .fhUnpack _ => true
  | .fhPack _ _ _ _ _ => true
  | .fhParse b => b.fits
  | .fhCreate _ _ _ priority payload padding => priority.fits && payload.fits && padding.fits
  | .fhSplit b => b.fits
  | .dtAdd _ name value => name.fits && value.fits
  | .dtGet _ p => natFits p
  | .dtSetsize _ limit => natFits limit
  | .hdDecode b => b.fits
  | .heEncode entries => decide (entries.length < 2 ^ 32) && entries.all EncEntry.fits
  | .wcOpen _ => true
  | .wcUpdate _ _ => true
  | .wcRst _ => true
  | .wcGoaway => true
  | .wcHdrs _ _ => true
  | .wcCredit _ => true
  | .sdStart k _ n _ => natFits k && natFits n
  | .sdStep k => natFits k
  | .sdPoll k => natFits k
  | .cfgApply _ => true
  | .hdIndexed i => intFits i
  | .hdLitinc name value => name.fits && value.fits
  | .hdSizeupd size => intFits size
  | .hdLitno name value => name.fits && value.fits
  | .hdLitnever name value => name.fits && value.fits
  | .ftData | .ftHeaders | .ftPriority | .ftRstStream | .ftSettings | .ftPushPromise | .ftPing
  | .ftGoaway | .ftWindowUpdate | .ftContinuation => true
  | .ftUnknown typeRaw => decide (10 ≤ typeRaw.toNat)

end Sys2Proof
end

