-- ==== Sys2Proof/Decode.lean ====
section
/-!
DEFINITION. The decoder and after it the encoder. The prefix integer and string primitives (R170 to R176), the header
representations (R95 to R98), the frame type byte (R92), the command opcodes (R102) with the port's operand layout (log 2).
The cursor of R26 is the rest of the buffer: `pos` is the buffer's length less the rest's.
-/

namespace Sys2Proof

/-- Why bytes are no instruction. The command opcode of `unknownCommand` is R113's; the other three are about the port's own
operand layout (log 16). -/
inductive Reject where
  | unknownCommand (opcode : Byte)
  | incomplete
  | malformedOperand
  | excessBytes
  deriving DecidableEq, Repr

/-! ### Prefix integers and strings (R170 to R177) -/

/-- The continuation loop of `IntDec` (R170): `acc` is `I`, `m` is `M`. -/
def intDecMore (acc m : Nat) : Bytes → Except DecodeCause (Nat × Bytes)
  | [] => .error .truncated
  | c :: rest =>
    let acc' := acc + (c.toNat % 128) * 2 ^ m
    if Config.intMax < acc' then .error .integerOverflow
    else if c.toNat < 128 then .ok (acc', rest)
    else intDecMore acc' (m + 7) rest

/-- `IntDec` with an `n`-bit prefix (R170): the value and the bytes after it. -/
def intDec (n : Nat) : Bytes → Except DecodeCause (Nat × Bytes)
  | [] => .error .truncated
  | b :: rest =>
    let i := b.toNat % 2 ^ n
    if i < 2 ^ n - 1 then .ok (i, rest) else intDecMore i 0 rest

/-- The continuation bytes of `IntEnc` (R172). `r` turns suffice as fuel: each turn divides `r` by 128. -/
def intEncMore : Nat → Nat → Bytes
  | 0, r => [BitVec.ofNat 8 r]
  | fuel + 1, r =>
    if 128 ≤ r then BitVec.ofNat 8 (128 + r % 128) :: intEncMore fuel (r / 128)
    else [BitVec.ofNat 8 r]

/-- `IntEnc(v, n, hi)` (R172). DESIGN CHOICE: for `v` above `2^INT_BITS - 1`, where R172's domain ends and the spec gives no outcome,
the loop of R172 goes on and the longer integer is written (log 24). -/
def intEnc (v n : Nat) (hi : Byte) : Bytes :=
  if v < 2 ^ n - 1 then [hi ||| BitVec.ofNat 8 v]
  else (hi ||| BitVec.ofNat 8 (2 ^ n - 1)) :: intEncMore (v - (2 ^ n - 1)) (v - (2 ^ n - 1))

/-- `MemRead` of `n` octets at the cursor (R62): the octets and the rest, or none past the end of the buffer. -/
def memRead (n : Nat) (b : Bytes) : Option (Bytes × Bytes) :=
  if n ≤ b.length then some (b.take n, b.drop n) else none

/-- The wire form of a string at the cursor: flag, length, octets (R98, the first part of R174). -/
def readString : Bytes → Except DecodeCause (WireString × Bytes)
  | [] => .error .truncated
  | b :: rest => do
    let (n, rest) ← intDec 7 (b :: rest)
    match memRead n rest with
    | none => .error .truncated
    | some (raw, rest) => .ok (⟨decide (128 ≤ b.toNat), raw⟩, rest)

/-- The text of a wire string: as it stands, or through HuffDec (the second part of R174). -/
def WireString.text (s : WireString) : Except DecodeCause Bytes :=
  if s.huff then
    match Config.huffDec s.octets with
    | none => .error .huffmanInvalid
    | some t => .ok t
  else .ok s.octets

/-- `StrDec` (R174). -/
def strDec (b : Bytes) : Except DecodeCause (Bytes × Bytes) := do
  let (s, rest) ← readString b
  let t ← s.text
  .ok (t, rest)

/-- The bytes of a wire string: the length with the flag in bit 7, then the octets (R98). DESIGN CHOICE: a body of more than
`2^INT_BITS - 1` octets is written too, behind the longer integer (R107, R172, R216; log 24). -/
def WireString.encode (s : WireString) : Bytes :=
  intEnc s.octets.length 7 (if s.huff then 0x80 else 0x00) ++ s.octets

/-- The form `StrEnc` chooses for a text (R175): the shorter, raw on a tie, or the caller's override. -/
def wireForm (s : Bytes) (mode : HuffMode) : WireString :=
  match mode with
  | .raw => ⟨false, s⟩
  | .huff => ⟨true, Config.huffEnc s⟩
  | .auto => if (Config.huffEnc s).length < s.length then ⟨true, Config.huffEnc s⟩ else ⟨false, s⟩

/-- `StrEnc` (R175). -/
def strEnc (s : Bytes) (mode : HuffMode) : Bytes := (wireForm s mode).encode

/-! ### Header representations (R95 to R98) -/

/-- The representation a first byte selects, tested in the order of R190. -/
inductive RepKind where
  | indexed
  | litInc
  | sizeUpd
  | litNever
  | litNo
  deriving DecidableEq, Repr

/-- Dispatch on the leading bits of the first byte (R95, R190, R191). -/
def repKind (f : Byte) : RepKind :=
  if f.extractLsb' 7 1 = 1#1 then .indexed
  else if f.extractLsb' 6 2 = 1#2 then .litInc
  else if f.extractLsb' 5 3 = 1#3 then .sizeUpd
  else if f.extractLsb' 4 4 = 1#4 then .litNever
  else .litNo

/-- The name part of a literal as syntax: a prefix integer of 0 is followed by an inline string (R96). -/
def readNameRef (n : Nat) (b : Bytes) : Except DecodeCause (NameRef × Bytes) := do
  let (i, rest) ← intDec n b
  if i = 0 then
    let (s, rest) ← readString rest
    .ok (.inline s, rest)
  else .ok (.indexed i, rest)

/-- The two parts of a literal as syntax (R95). -/
def readLiteral (n : Nat) (b : Bytes) : Except DecodeCause ((NameRef × WireString) × Bytes) := do
  let (name, rest) ← readNameRef n b
  let (value, rest) ← readString rest
  .ok ((name, value), rest)

/-- One header representation as syntax, and the bytes after it (R95, R115). -/
def decodeRepresentation : Bytes → Except DecodeCause (Instr × Bytes)
  | [] => .error .truncated
  | f :: rest =>
    match repKind f with
    | .indexed => do
      let (i, rest) ← intDec 7 (f :: rest)
      .ok (.hdIndexed i, rest)
    | .litInc => do
      let ((name, value), rest) ← readLiteral 6 (f :: rest)
      .ok (.hdLitinc name value, rest)
    | .sizeUpd => do
      let (size, rest) ← intDec 5 (f :: rest)
      .ok (.hdSizeupd size, rest)
    | .litNever => do
      let ((name, value), rest) ← readLiteral 4 (f :: rest)
      .ok (.hdLitnever name value, rest)
    | .litNo => do
      let ((name, value), rest) ← readLiteral 4 (f :: rest)
      .ok (.hdLitno name value, rest)

/-! ### The frame type byte (R92, R131) -/

/-- The instruction a frame type byte selects: ten names below 10, UNKNOWN from 10 on (R92). -/
def decodeFrameType (t : Byte) : Instr :=
  match t.toNat with
  | 0 => .ftData
  | 1 => .ftHeaders
  | 2 => .ftPriority
  | 3 => .ftRstStream
  | 4 => .ftSettings
  | 5 => .ftPushPromise
  | 6 => .ftPing
  | 7 => .ftGoaway
  | 8 => .ftWindowUpdate
  | 9 => .ftContinuation
  | _ => .ftUnknown t

/-! ### Operands of the command port (log 2): big-endian fields, byte strings and lists behind a 32-bit count -/

/-- The unsigned number whose most significant byte is first (R11, `BE`). -/
def beNat (b : Bytes) : Nat := b.foldl (fun acc x => acc * 256 + x.toNat) 0

/-- A field of `n` bytes. -/
def readField (n : Nat) (b : Bytes) : Except Reject (Nat × Bytes) :=
  match memRead n b with
  | none => .error .incomplete
  | some (f, rest) => .ok (beNat f, rest)

/-- A field of `n` bytes that holds a number below `bound`. -/
def readBounded (n bound : Nat) (b : Bytes) : Except Reject (Nat × Bytes) := do
  let (v, rest) ← readField n b
  if v < bound then .ok (v, rest) else .error .malformedOperand

/-- A `u8`. -/
def readU8 (b : Bytes) : Except Reject (Byte × Bytes) := do
  let (v, rest) ← readField 1 b
  .ok (BitVec.ofNat 8 v, rest)

/-- A `u24`. -/
def readU24 (b : Bytes) : Except Reject (U24 × Bytes) := do
  let (v, rest) ← readField 3 b
  .ok (BitVec.ofNat 24 v, rest)

/-- A `u31` in four bytes whose top bit is 0. -/
def readStreamId (b : Bytes) : Except Reject (StreamId × Bytes) := do
  let (v, rest) ← readBounded 4 (2 ^ 31) b
  .ok (BitVec.ofNat 31 v, rest)

/-- A `u32` or `s32` in four bytes. -/
def readU32 (b : Bytes) : Except Reject (U32 × Bytes) := do
  let (v, rest) ← readField 4 b
  .ok (BitVec.ofNat 32 v, rest)

/-- A natural number in eight bytes. -/
def readNat (b : Bytes) : Except Reject (Nat × Bytes) := readField 8 b

/-- A bool in one byte, 0 or 1. -/
def readBool (b : Bytes) : Except Reject (Bool × Bytes) := do
  let (v, rest) ← readBounded 1 2 b
  .ok (decide (v = 1), rest)

/-- A `u1` in one byte, 0 or 1. -/
def readU1 (b : Bytes) : Except Reject (BitVec 1 × Bytes) := do
  let (v, rest) ← readBounded 1 2 b
  .ok (BitVec.ofNat 1 v, rest)

/-- The operand `table`: ENC is 0, DEC is 1 (R102). -/
def readTable (b : Bytes) : Except Reject (TableId × Bytes) := do
  let (v, rest) ← readBounded 1 2 b
  .ok (if v = 0 then .enc else .dec, rest)

/-- A byte string behind its length. -/
def readBytes (b : Bytes) : Except Reject (Bytes × Bytes) := do
  let (n, rest) ← readField 4 b
  match memRead n rest with
  | none => .error .incomplete
  | some (s, rest) => .ok (s, rest)

/-- IdxMode: INDEX 0, NO_INDEX 1, NEVER 2. -/
def readIdxMode (b : Bytes) : Except Reject (IdxMode × Bytes) := do
  let (v, rest) ← readBounded 1 3 b
  .ok (if v = 0 then .index else if v = 1 then .noIndex else .never, rest)

/-- HuffMode: AUTO 0, RAW 1, HUFF 2. -/
def readHuffMode (b : Bytes) : Except Reject (HuffMode × Bytes) := do
  let (v, rest) ← readBounded 1 3 b
  .ok (if v = 0 then .auto else if v = 1 then .raw else .huff, rest)

/-- An EncEntry: name, value, idx, huff (R24). -/
def readEncEntry (b : Bytes) : Except Reject (EncEntry × Bytes) := do
  let (name, b) ← readBytes b
  let (value, b) ← readBytes b
  let (idx, b) ← readIdxMode b
  let (mode, b) ← readHuffMode b
  .ok (⟨name, value, idx, mode⟩, b)

/-- `n` encoder entries. -/
def readEncEntries : Nat → Bytes → Except Reject (List EncEntry × Bytes)
  | 0, b => .ok ([], b)
  | n + 1, b => do
    let (e, b) ← readEncEntry b
    let (es, b) ← readEncEntries n b
    .ok (e :: es, b)

/-- An optional 32-bit value: a presence byte, then the value when present. -/
def readOptU32 (b : Bytes) : Except Reject (Option U32 × Bytes) := do
  let (present, b) ← readBool b
  if present then
    let (v, b) ← readU32 b
    .ok (some v, b)
  else .ok (none, b)

/-- The nine bytes of a frame header. -/
def readHeaderBytes : Bytes → Except Reject (HeaderBytes × Bytes)
  | b0 :: b1 :: b2 :: b3 :: b4 :: b5 :: b6 :: b7 :: b8 :: rest =>
    .ok (⟨b0, b1, b2, b3, b4, b5, b6, b7, b8⟩, rest)
  | _ => .error .incomplete

/-! ### The command opcodes (R102) -/

/-- The operands that follow a command opcode; an opcode outside R102's table is rejected by name (R113). -/
def decodeOperands (opcode : Byte) (b : Bytes) : Except Reject (Instr × Bytes) :=
  match opcode.toNat with
  | 0x01 => do
    let (h, b) ← readHeaderBytes b
    .ok (.fhUnpack h, b)
  | 0x02 => do
    let (length, b) ← readU24 b
    let (typeRaw, b) ← readU8 b
    let (flags, b) ← readU8 b
    let (rsv, b) ← readU1 b
    let (streamId, b) ← readStreamId b
    .ok (.fhPack length typeRaw flags rsv streamId, b)
  | 0x03 => do
    let (buf, b) ← readBytes b
    .ok (.fhParse buf, b)
  | 0x04 => do
    let (streamId, b) ← readStreamId b
    let (typeRaw, b) ← readU8 b
    let (flags, b) ← readU8 b
    let (priority, b) ← readBytes b
    let (payload, b) ← readBytes b
    let (padding, b) ← readBytes b
    .ok (.fhCreate streamId typeRaw flags priority payload padding, b)
  | 0x05 => do
    let (buf, b) ← readBytes b
    .ok (.fhSplit buf, b)
  | 0x10 => do
    let (t, b) ← readTable b
    let (name, b) ← readBytes b
    let (value, b) ← readBytes b
    .ok (.dtAdd t name value, b)
  | 0x11 => do
    let (t, b) ← readTable b
    let (p, b) ← readNat b
    .ok (.dtGet t p, b)
  | 0x12 => do
    let (t, b) ← readTable b
    let (limit, b) ← readNat b
    .ok (.dtSetsize t limit, b)
  | 0x20 => do
    let (block, b) ← readBytes b
    .ok (.hdDecode block, b)
  | 0x28 => do
    let (n, b) ← readField 4 b
    let (entries, b) ← readEncEntries n b
    .ok (.heEncode entries, b)
  | 0x30 => do
    let (id, b) ← readStreamId b
    .ok (.wcOpen id, b)
  | 0x31 => do
    let (id, b) ← readStreamId b
    let (delta, b) ← readU32 b
    .ok (.wcUpdate id delta, b)
  | 0x32 => do
    let (id, b) ← readStreamId b
    .ok (.wcRst id, b)
  | 0x33 => .ok (.wcGoaway, b)
  | 0x34 => do
    let (id, b) ← readStreamId b
    let (endStream, b) ← readBool b
    .ok (.wcHdrs id endStream, b)
  | 0x35 => do
    let (id, b) ← readStreamId b
    .ok (.wcCredit id, b)
  | 0x38 => do
    let (k, b) ← readNat b
    let (sid, b) ← readStreamId b
    let (n, b) ← readNat b
    let (wantEnd, b) ← readBool b
    .ok (.sdStart k sid n wantEnd, b)
  | 0x39 => do
    let (k, b) ← readNat b
    .ok (.sdStep k, b)
  | 0x3A => do
    let (k, b) ← readNat b
    .ok (.sdPoll k, b)
  | 0x40 => do
    let (headerTableSize, b) ← readOptU32 b
    let (enablePush, b) ← readOptU32 b
    let (maxConcurrentStreams, b) ← readOptU32 b
    let (initialWindowSize, b) ← readOptU32 b
    let (maxFrameSize, b) ← readOptU32 b
    let (maxHeaderListSize, b) ← readOptU32 b
    .ok (.cfgApply ⟨headerTableSize, enablePush, maxConcurrentStreams, initialWindowSize, maxFrameSize,
      maxHeaderListSize⟩, b)
  | _ => .error (.unknownCommand opcode)

/-- A command: opcode, then operands; the bytes after it. -/
def decodeCommand : Bytes → Except Reject (Instr × Bytes)
  | [] => .error .incomplete
  | opcode :: b => decodeOperands opcode b

/-- The decoder of an issued operation, total: the instruction its bytes are in its format, or why they are none. A command
stands alone in its issue. Bytes in the HR format are a header block: one representation is that representation, anything
else is HD.DECODE's to interpret (R190; log 3). -/
def decode (fmt : Format) (b : Bytes) : Except Reject Instr :=
  match fmt with
  | .cmd =>
    match decodeCommand b with
    | .error r => .error r
    | .ok (i, []) => .ok i
    | .ok (_, _ :: _) => .error .excessBytes
  | .hr =>
    match decodeRepresentation b with
    | .ok (i, []) => .ok i
    | _ => .ok (.hdDecode b)
  | .fh =>
    match b with
    | [] => .error .incomplete
    | [t] => .ok (decodeFrameType t)
    | _ :: _ :: _ => .error .excessBytes

/-! ### The encoder -/

/-- `bytes_BE(v, n)` (R11). -/
def bytesBE (v : Nat) : Nat → Bytes
  | 0 => []
  | n + 1 => BitVec.ofNat 8 (v / 256 ^ n) :: bytesBE v n

/-- A stream id in four bytes, top bit 0. -/
def writeStreamId (id : StreamId) : Bytes := bytesBE id.toNat 4

/-- A bool in one byte. -/
def writeBool (b : Bool) : Bytes := [if b then 1 else 0]

/-- The operand `table` (R102). -/
def writeTable : TableId → Bytes
  | .enc => [0]
  | .dec => [1]

/-- A byte string behind its 32-bit length. -/
def writeBytes (s : Bytes) : Bytes := bytesBE s.length 4 ++ s

/-- IdxMode in one byte. -/
def writeIdxMode : IdxMode → Bytes
  | .index => [0]
  | .noIndex => [1]
  | .never => [2]

/-- HuffMode in one byte. -/
def writeHuffMode : HuffMode → Bytes
  | .auto => [0]
  | .raw => [1]
  | .huff => [2]

/-- An EncEntry. -/
def writeEncEntry (e : EncEntry) : Bytes :=
  writeBytes e.name ++ (writeBytes e.value ++ (writeIdxMode e.idx ++ writeHuffMode e.huff))

/-- Encoder entries, one after another. -/
def writeEncEntries : List EncEntry → Bytes
  | [] => []
  | e :: es => writeEncEntry e ++ writeEncEntries es

/-- An optional 32-bit value. -/
def writeOptU32 : Option U32 → Bytes
  | none => [0]
  | some v => 1 :: bytesBE v.toNat 4

/-- The six fields of a settings update in id order. -/
def writeSettings (u : SettingsUpdate) : Bytes :=
  writeOptU32 u.headerTableSize ++ (writeOptU32 u.enablePush ++ (writeOptU32 u.maxConcurrentStreams ++
    (writeOptU32 u.initialWindowSize ++ (writeOptU32 u.maxFrameSize ++ writeOptU32 u.maxHeaderListSize))))

/-- The nine bytes of a header, in order. -/
def HeaderBytes.toList (h : HeaderBytes) : Bytes :=
  [h.b0, h.b1, h.b2, h.b3, h.b4, h.b5, h.b6, h.b7, h.b8]

/-- The name part of a literal with an `n`-bit prefix under the pattern bits `hi` (R95, R96). -/
def NameRef.encode (n : Nat) (hi : Byte) : NameRef → Bytes
  | .indexed i => intEnc i n hi
  | .inline s => intEnc 0 n hi ++ s.encode

/-- The bytes of an instruction, in its format. -/
def encode : Instr → Bytes
  | .fhUnpack h => 0x01 :: h.toList
  | .fhPack length typeRaw flags rsv streamId =>
    0x02 :: (bytesBE length.toNat 3 ++ (bytesBE typeRaw.toNat 1 ++ (bytesBE flags.toNat 1 ++
      (bytesBE rsv.toNat 1 ++ writeStreamId streamId))))
  | .fhParse b => 0x03 :: writeBytes b
  | .fhCreate streamId typeRaw flags priority payload padding =>
    0x04 :: (writeStreamId streamId ++ (bytesBE typeRaw.toNat 1 ++ (bytesBE flags.toNat 1 ++
      (writeBytes priority ++ (writeBytes payload ++ writeBytes padding)))))
  | .fhSplit b => 0x05 :: writeBytes b
  | .dtAdd t name value => 0x10 :: (writeTable t ++ (writeBytes name ++ writeBytes value))
  | .dtGet t p => 0x11 :: (writeTable t ++ bytesBE p 8)
  | .dtSetsize t limit => 0x12 :: (writeTable t ++ bytesBE limit 8)
  | .hdDecode b => 0x20 :: writeBytes b
  | .heEncode entries => 0x28 :: (bytesBE entries.length 4 ++ writeEncEntries entries)
  | .wcOpen id => 0x30 :: writeStreamId id
  | .wcUpdate id delta => 0x31 :: (writeStreamId id ++ bytesBE delta.toNat 4)
  | .wcRst id => 0x32 :: writeStreamId id
  | .wcGoaway => [0x33]
  | .wcHdrs id endStream => 0x34 :: (writeStreamId id ++ writeBool endStream)
  | .wcCredit id => 0x35 :: writeStreamId id
  | .sdStart k sid n wantEnd =>
    0x38 :: (bytesBE k 8 ++ (writeStreamId sid ++ (bytesBE n 8 ++ writeBool wantEnd)))
  | .sdStep k => 0x39 :: bytesBE k 8
  | .sdPoll k => 0x3A :: bytesBE k 8
  | .cfgApply u => 0x40 :: writeSettings u
  | .hdIndexed i => intEnc i 7 0x80
  | .hdLitinc name value => name.encode 6 0x40 ++ value.encode
  | .hdSizeupd size => intEnc size 5 0x20
  | .hdLitno name value => name.encode 4 0x00 ++ value.encode
  | .hdLitnever name value => name.encode 4 0x10 ++ value.encode
  | .ftData => [0x00]
  | .ftHeaders => [0x01]
  | .ftPriority => [0x02]
  | .ftRstStream => [0x03]
  | .ftSettings => [0x04]
  | .ftPushPromise => [0x05]
  | .ftPing => [0x06]
  | .ftGoaway => [0x07]
  | .ftWindowUpdate => [0x08]
  | .ftContinuation => [0x09]
  | .ftUnknown typeRaw => [typeRaw]

/-! ### A bare table word (log 4) -/

/-- The bytes of a word of `n` bytes as spec/opcode_table.json numbers its bits: the first byte is bits 7..0. -/
def wordBytes : Nat → Nat → Bytes
  | 0, _ => []
  | n + 1, w => BitVec.ofNat 8 w :: wordBytes n (w / 256)

/-- The opcodes of R102. -/
def isCommandOpcode (b : Byte) : Bool :=
  match decodeOperands b [] with
  | .error (.unknownCommand _) => false
  | _ => true

/-- The format in which a bare first byte is read. The three formats share the byte values, so a word alone does not say its
format. DESIGN CHOICE (log 4): a command opcode is a command; any other byte below 16 a frame type; any other byte a header
representation. -/
def tableFormat (b : Byte) : Format :=
  if isCommandOpcode b then .cmd else if b.toNat < 16 then .fh else .hr

/-- The issue's bytes for the instruction that begins with these bytes: the bytes the instruction takes, no more. -/
def takeInstruction (fmt : Format) (b : Bytes) : Bytes :=
  match fmt with
  | .cmd =>
    match decodeCommand b with
    | .ok (_, rest) => b.take (b.length - rest.length)
    | .error _ => b
  | .hr =>
    match decodeRepresentation b with
    | .ok (_, rest) => b.take (b.length - rest.length)
    | .error _ => b
  | .fh => b.take 1

/-- The format and the bytes of the instruction a table word begins, every bit above `nbits` zero. Thirty-two zero bytes
cover the longest operand list of fixed fields with empty strings and lists. -/
def tableIssue (nbits w : Nat) : Format × Bytes :=
  let b := wordBytes ((nbits + 7) / 8) w ++ List.replicate 32 0
  let fmt := tableFormat (b.headD 0)
  (fmt, takeInstruction fmt b)

/-- The instruction the decoder reads from a table word (log 4). -/
def decodeTableWord (nbits w : Nat) : Option Instr :=
  match decode (tableIssue nbits w).1 (tableIssue nbits w).2 with
  | .ok i => some i
  | .error _ => none

end Sys2Proof
end

