-- ==== Sys2Proof/Machine/State.lean ====
section
/-!
DEFINITION. The architectural state of spec/10_state.md (R53 lists it whole), the outcome of an operation (R13, R281), the
issued operations (log 1), the reasons a step stops, and reset (R53, R320).
-/

namespace Sys2Proof.Machine

/-- One settings register: `{present, value}` (R32). -/
structure Setting where
  present : Bool
  value   : U32
  deriving DecidableEq, Repr

/-- The CFG bank: six settings, parameter ids 1 to 6 in this order (R32, R34). -/
structure CfgBank where
  headerTableSize      : Setting
  enablePush           : Setting
  maxConcurrentStreams : Setting
  initialWindowSize    : Setting
  maxFrameSize         : Setting
  maxHeaderListSize    : Setting
  deriving DecidableEq, Repr

/-- A dynamic table: `ent`, newest first (R42), and the control register `table_size` (R35). -/
structure DynTable where
  ent       : List Header
  tableSize : U32
  deriving DecidableEq, Repr

/-- DEC_FAULT_CAUSE: the sub-cause and the offset of the first byte of the representation that failed (R30). -/
structure FaultCause where
  cause  : DecodeCause
  offset : Nat
  deriving DecidableEq, Repr

/-- A stream entry (R46); `window` is signed. -/
structure StreamEntry where
  window         : U32
  reset          : Bool
  selfEndHeaders : Bool
  selfEndStream  : Bool
  deriving DecidableEq, Repr

/-- The phase of a send context (R47). -/
inductive Phase where
  | idle
  | run
  | blocked
  deriving DecidableEq, Repr

/-- A send context (R47). -/
structure SendCtx where
  phase     : Phase
  sid       : StreamId
  remaining : Nat
  wantEnd   : Bool
  deriving DecidableEq, Repr

/-- FrameHeader (R22). -/
structure FrameHeader where
  length    : U24
  typeRaw   : Byte
  typeClass : FrameType
  flags     : Byte
  rsv       : BitVec 1
  streamId  : StreamId
  deriving DecidableEq, Repr

/-- A region of a frame body: (offset, length) from the first byte after the header (R23). -/
structure Region where
  offset : Nat
  length : Nat
  deriving DecidableEq, Repr

/-- Frame: the header and the four regions of the body (R23). -/
structure Frame where
  header   : FrameHeader
  padLen   : Byte
  priority : Region
  payload  : Region
  padding  : Region
  deriving DecidableEq, Repr

/-- DataFrameDesc, the result of a send step (R24). -/
structure DataFrameDesc where
  streamId  : StreamId
  len       : Nat
  endStream : Bool
  deriving DecidableEq, Repr

/-- What SD.START, SD.STEP and SD.POLL answer (R245, R247, R251). -/
inductive SendStatus where
  | started
  | done
  | continues
  | blocked
  | resumed
  | stillBlocked
  deriving DecidableEq, Repr

/-- The value of an `ok` outcome, by operation. -/
inductive Result where
  /-- No value: DT.ADD, DT.SETSIZE, WC.OPEN, WC.UPDATE, WC.RST, WC.GOAWAY, WC.HDRS, CFG.APPLY. -/
  | done
  /-- FH.UNPACK (R130). -/
  | frameHeader (h : FrameHeader)
  /-- The output buffer of FH.PACK, FH.CREATE, HE.ENCODE (R63). -/
  | bytes (b : Bytes)
  /-- FH.PARSE (R134). -/
  | frame (f : Frame)
  /-- FH.SPLIT: the (offset, size) slices and the residue (R140). -/
  | slices (out : List Region) (residue : Nat)
  /-- DT.GET (R154). -/
  | entry (h : Header)
  /-- HD.DECODE and the representations: the header list (R190). -/
  | headers (out : List Header)
  /-- WC.CREDIT (R239). -/
  | credit (c : Int)
  /-- SD.*: the status and zero or one DATA frame descriptor. -/
  | send (status : SendStatus) (frames : List DataFrameDesc)
  /-- FT.*: the classification of a type byte (R131). -/
  | frameClass (c : FrameType)
  deriving DecidableEq, Repr

/-- The sub-causes of MalformedFrame (R283). -/
inductive MalformedCause where
  | headerTruncated
  | bodyTruncated
  | regionsExceedLength
  | paddingExceedsLength
  deriving DecidableEq, Repr

/-- The errors of R281, each with the info it records. -/
inductive Error where
  | connectionClosed
  | malformedFrame (cause : MalformedCause)
  | streamDoesntExist (id : StreamId)
  | streamClosed (id : StreamId)
  | headersNotSent (id : StreamId)
  | headersSent (id : StreamId)
  | invalidMagicSequence
  | protocolError (id : StreamId)
  | decodeError (cause : DecodeCause) (offset : Nat)
  deriving DecidableEq, Repr

/-- The outcome the block last answered with: nothing yet, `ok(result)` or `raise <Error>` (R13). A refusal is no response
but the step's own outcome (log 6). -/
inductive Response where
  | none
  | ok (r : Result)
  | raised (e : Error)
  deriving DecidableEq, Repr

/-- An operation the host has issued: the format its bytes are in, and the bytes (R101; log 1, log 2). -/
structure Issue where
  format : Format
  bytes  : Bytes
  deriving DecidableEq, Repr

/-- The state: R53's, and the model's own `inbox` and `response`. -/
structure State where
  /-- CFG.* (R32). -/
  cfg           : CfgBank
  /-- ENC.ent, ENC.table_size (R35, R42). -/
  enc           : DynTable
  /-- DEC.ent, DEC.table_size (R35, R42). -/
  dec           : DynTable
  /-- DEC_FAULT (R29). -/
  decFault      : Bool
  /-- DEC_FAULT_CAUSE (R30). -/
  decFaultCause : FaultCause
  /-- CONN_WINDOW, signed (R36). -/
  connWindow    : U32
  /-- GOAWAY_SEEN (R28). -/
  goawaySeen    : Bool
  /-- STREAMS (R45): (id, entry) pairs, ids strictly rising. -/
  streams       : List (Nat × StreamEntry)
  /-- SENDCTX; its length is N_SEND_CTX (R47, R7). -/
  sendCtx       : List SendCtx
  /-- The operations issued and not yet run, oldest first (log 1). -/
  inbox         : List Issue
  /-- The last answer (log 5). -/
  response      : Response
  deriving DecidableEq, Repr

/-- Why the machine stops. Every error of R281 is a next state, so no rule of the spec raises a fault. -/
inductive Fault where
  /-- Raised by SD.STEP and SD.POLL on a RUN or BLOCKED context whose stream has no entry: the rules read an entry that is
  not there. R48 rules it out in every state a run reaches. Safe. -/
  | contextWithoutStream
  deriving DecidableEq, Repr

/-- The `refuse <Reason>` outcomes of R13 and R281 (safe: "a model should treat it as a refusal"; log 6), the port's own
rejections (safe; log 16), and the instruction without a meaning. -/
inductive Refusal where
  /-- Raised by a command opcode outside R102's table (R113, code 0x80). Safe. -/
  | unknownCommand (opcode : Byte)
  /-- Raised by FH.CREATE, DT.GET, DT.SETSIZE, WC.OPEN (R281, code 0x81). Safe. -/
  | badOperand
  /-- Raised by SD.START (R245, code 0x82). Safe. -/
  | busy
  /-- Raised by SD.STEP and SD.POLL (R247, R251, code 0x83). Safe. -/
  | badPhase
  /-- Raised by HD.DECODE, the representations and DT.* on DEC (R29, R190, code 0x84). Safe. -/
  | decoderFaulted
  /-- Raised by WC.OPEN with a bounded stream table (R234, code 0x85). Safe. -/
  | capacityExceeded
  /-- Raised by WC.UPDATE (R231, code 0x86). Safe. -/
  | windowOverflow
  /-- Raised by step: an issue whose bytes end before its operands do (log 16). Safe. -/
  | incompleteCommand
  /-- Raised by step: an operand byte outside its type (log 16). Safe. -/
  | malformedOperand
  /-- Raised by step: bytes after the command of an issue (log 16). Safe. -/
  | excessBytes
  /-- Raised by exec for an instruction that has no meaning yet. Safe. -/
  | notModelled (mnemonic : String)
  deriving DecidableEq, Repr

/-- What an instruction's meaning answers. -/
abbrev Answer := Host.Outcome State Fault Refusal

/-- An absent setting; its value is unspecified (R53). DESIGN CHOICE: 0 (log 7). -/
def Setting.absent : Setting := ⟨false, 0⟩

/-- An empty table with the reset limit (R53). -/
def DynTable.fresh : DynTable := ⟨[], Config.tableSizeInit⟩

/-- An IDLE context; its other fields are unspecified (R53). DESIGN CHOICE: 0 and false (log 7). -/
def SendCtx.fresh : SendCtx := ⟨.idle, 0, 0, false⟩

/-- The machine right after reset (R53, R320). DEC_FAULT_CAUSE is unspecified there. DESIGN CHOICE: (IndexOutOfRange, 0)
(log 7); two contexts (log 8); nothing issued, nothing answered (log 1, log 5). -/
def State.reset : State where
  cfg := ⟨.absent, .absent, .absent, .absent, .absent, .absent⟩
  enc := .fresh
  dec := .fresh
  decFault := false
  decFaultCause := ⟨.indexOutOfRange, 0⟩
  connWindow := Config.connWindowInit
  goawaySeen := false
  streams := []
  sendCtx := List.replicate Config.nSendCtxAtReset .fresh
  inbox := []
  response := .none

end Sys2Proof.Machine
end

