-- ==== Sys2Proof/Machine/Ops.lean ====
section
/-!
DEFINITION. The named operations over the state: field updates, the dynamic tables (R150 to R158), the stream table (R45),
the send contexts (R47), answering, and taking an exception, which is `raise` (R301). There is no return from one (R305).
-/

namespace Sys2Proof.Machine

/-! ### Field updates -/

/-- Writes the CFG bank. -/
def State.setCfg (s : State) (c : CfgBank) : State := { s with cfg := c }

/-- Reads the dynamic table an operand names (R102). -/
def State.table (s : State) : TableId → DynTable
  | .enc => s.enc
  | .dec => s.dec

/-- Writes the dynamic table an operand names. -/
def State.setTable (s : State) (t : TableId) (d : DynTable) : State :=
  match t with
  | .enc => { s with enc := d }
  | .dec => { s with dec := d }

/-- Writes CONN_WINDOW. -/
def State.setConnWindow (s : State) (w : U32) : State := { s with connWindow := w }

/-- Writes STREAMS. -/
def State.setStreams (s : State) (m : List (Nat × StreamEntry)) : State := { s with streams := m }

/-- Writes SENDCTX. -/
def State.setSendCtx (s : State) (cs : List SendCtx) : State := { s with sendCtx := cs }

/-- Writes GOAWAY_SEEN. -/
def State.setGoawaySeen (s : State) (b : Bool) : State := { s with goawaySeen := b }

/-- Writes DEC_FAULT and DEC_FAULT_CAUSE, which are only ever written together (R30). -/
def State.setDecFault (s : State) (b : Bool) (c : FaultCause) : State :=
  { s with decFault := b, decFaultCause := c }

/-- Writes the queue of issued operations. -/
def State.setInbox (s : State) (q : List Issue) : State := { s with inbox := q }

/-- Writes the response latch. -/
def State.setResponse (s : State) (r : Response) : State := { s with response := r }

/-! ### The outcome of an operation (R13) -/

/-- `ok(result)`. -/
def answer (s : State) (r : Result) : Answer := .next (s.setResponse (.ok r))

/-- `raise <Error>(info)`: the caller gets the error; nothing is saved, no mode changes, control goes nowhere (R301). The
state given is the one the operation leaves: unchanged but for HD.DECODE and SD.POLL. -/
def raise (s : State) (e : Error) : Answer := .next (s.setResponse (.raised e))

/-- The refusal of a rejected issue (R113; log 16). -/
def refuseReject : Reject → Answer
  | .unknownCommand opcode => .refused (.unknownCommand opcode)
  | .incomplete => .refused .incompleteCommand
  | .malformedOperand => .refused .malformedOperand
  | .excessBytes => .refused .excessBytes

/-- The code of an error (R281). -/
def Error.code : Error → Nat
  | .connectionClosed => 1
  | .malformedFrame _ => 2
  | .streamDoesntExist _ => 3
  | .streamClosed _ => 4
  | .headersNotSent _ => 5
  | .headersSent _ => 6
  | .invalidMagicSequence => 7
  | .protocolError _ => 8
  | .decodeError _ _ => 9

/-- The code of a refusal of R281; the model's own refusals have none. -/
def Refusal.code : Refusal → Option Nat
  | .unknownCommand _ => some 0x80
  | .badOperand => some 0x81
  | .busy => some 0x82
  | .badPhase => some 0x83
  | .decoderFaulted => some 0x84
  | .capacityExceeded => some 0x85
  | .windowOverflow => some 0x86
  | _ => none

/-- The number of a MalformedFrame sub-cause (R283). -/
def MalformedCause.code : MalformedCause → Nat
  | .headerTruncated => 1
  | .bodyTruncated => 2
  | .regionsExceedLength => 3
  | .paddingExceedsLength => 4

/-- The number of a DecodeError sub-cause (R289). -/
def decodeCauseCode : DecodeCause → Nat
  | .indexOutOfRange => 1
  | .truncated => 2
  | .integerOverflow => 3
  | .huffmanInvalid => 4
  | .sizeTooLarge => 5

/-! ### The dynamic tables -/

/-- `EntrySize` (R150). -/
def entrySize (h : Header) : Nat := h.name.length + h.value.length + 32

/-- The size of a list of entries: `t.size` (R43, R150), a mathematical integer (R151). -/
def entriesSize : List Header → Nat
  | [] => 0
  | h :: hs => entrySize h + entriesSize hs

/-- `t.size` (R43). -/
def DynTable.size (t : DynTable) : Nat := entriesSize t.ent

/-- `while size > limit: drop the last element` (R153, R155), at most `fuel` turns. -/
def evictLoop : Nat → Nat → List Header → List Header
  | 0, _, ent => ent
  | fuel + 1, limit, ent =>
    if limit < entriesSize ent then evictLoop fuel limit ent.dropLast else ent

/-- The eviction loop: each turn removes one entry, so as many turns as there are entries suffice (R153). -/
def evict (limit : Nat) (ent : List Header) : List Header := evictLoop ent.length limit ent

/-- Insert at the front, then evict (R153): the body of DT.ADD, of HD.LITINC (R196) and of the encoder (R213, R215). -/
def DynTable.add (t : DynTable) (h : Header) : DynTable :=
  { t with ent := evict t.tableSize.toNat (h :: t.ent) }

/-- Write `table_size`, then evict (R155, R197). -/
def DynTable.setLimit (t : DynTable) (limit : Nat) : DynTable :=
  ⟨evict (BitVec.ofNat 32 limit).toNat t.ent, BitVec.ofNat 32 limit⟩

/-- `Lookup(t, i)` in the combined index space (R156). -/
def DynTable.lookup (t : DynTable) (i : Nat) : Option Header :=
  if 1 ≤ i ∧ i ≤ 61 then Config.staticTable[i - 1]?
  else if 62 ≤ i ∧ i ≤ 61 + t.ent.length then t.ent[i - 62]?
  else none

/-- The least combined index whose entry meets `p` (R158): static before dynamic, newer before older. -/
def DynTable.findLeast (t : DynTable) (p : Header → Bool) : Option Nat :=
  ((Config.staticTable ++ t.ent).findIdx? p).map (· + 1)

/-- `FindExact(t, name, value)` (R158); equality of byte strings. -/
def DynTable.findExact (t : DynTable) (name value : Bytes) : Option Nat :=
  t.findLeast fun h => decide (h.name = name) && decide (h.value = value)

/-- `FindName(t, name)` (R158). -/
def DynTable.findName (t : DynTable) (name : Bytes) : Option Nat :=
  t.findLeast fun h => decide (h.name = name)

/-! ### The stream table -/

/-- The canonical form of STREAMS: ids strictly rising, each a non-zero 31-bit number (R45, R234). -/
abbrev StreamsWf (m : List (Nat × StreamEntry)) : Prop :=
  (m.map Prod.fst).Pairwise (· < ·) ∧ ∀ e ∈ m, 0 < e.1 ∧ e.1 < 2 ^ 31

/-- `STREAMS[id]` (R45). -/
def streamFind : List (Nat × StreamEntry) → StreamId → Option StreamEntry
  | [], _ => none
  | (i, e) :: m, id => if i = id.toNat then some e else streamFind m id

/-- `STREAMS[id] <- e`, at its place in the order of ids. -/
def streamInsert (m : List (Nat × StreamEntry)) (id : StreamId) (e : StreamEntry) : List (Nat × StreamEntry) :=
  match m with
  | [] => [(id.toNat, e)]
  | (i, x) :: m =>
    if id.toNat < i then (id.toNat, e) :: (i, x) :: m
    else if i = id.toNat then (i, e) :: m
    else (i, x) :: streamInsert m id e

/-- `STREAMS[id]`. -/
def State.stream (s : State) (id : StreamId) : Option StreamEntry := streamFind s.streams id

/-- `STREAMS[id] <- e`. -/
def State.setStream (s : State) (id : StreamId) (e : StreamEntry) : State :=
  s.setStreams (streamInsert s.streams id e)

/-- The stream table holds N_STREAMS entries (R234); never when it is unbounded (R7). -/
def streamTableFull (capacity : Option Nat) (m : List (Nat × StreamEntry)) : Bool :=
  match capacity with
  | none => false
  | some n => decide (n ≤ m.length)

/-! ### The send contexts -/

/-- A context is in phase RUN or BLOCKED (R48). -/
def SendCtx.active (c : SendCtx) : Bool := decide (c.phase ≠ .idle)

/-- `SENDCTX[k]`, none for `k >= N_SEND_CTX` (R47). -/
def State.ctx (s : State) (k : Nat) : Option SendCtx := s.sendCtx[k]?

/-- `SENDCTX[k] <- c`. -/
def State.setCtx (s : State) (k : Nat) (c : SendCtx) : State := s.setSendCtx (s.sendCtx.set k c)

/-- Some context drives a send on the stream (R245). -/
def State.streamBusy (s : State) (sid : StreamId) : Bool :=
  s.sendCtx.any fun c => c.active && decide (c.sid = sid)

/-- The DEC unit refuses while DEC_FAULT is set (R29): `refuse DecoderFaulted`, before anything else (R297). -/
def guardTable (t : TableId) (s : State) (run : Answer) : Answer :=
  if t = .dec ∧ s.decFault = true then .refused .decoderFaulted else run

end Sys2Proof.Machine
end

