-- ==== Sys2Proof/Machine/Operands.lean ====
section
/-!
DEFINITION. The operand forms: the frame header's fields (R90, R91, R105, R106), its classification (R92, R131), the 9-byte
write back (R132), the effective settings (R33) and the credit of a stream (R232).
-/

namespace Sys2Proof.Machine

/-- `Classify(t)` (R131, R92). -/
def classify (t : Byte) : FrameType :=
  match t.toNat with
  | 0 => .data
  | 1 => .headers
  | 2 => .priority
  | 3 => .rstStream
  | 4 => .settings
  | 5 => .pushPromise
  | 6 => .ping
  | 7 => .goaway
  | 8 => .windowUpdate
  | 9 => .continuation
  | _ => .unknown

/-- The field extraction of R91, R130: big-endian, the reserved bit apart from the stream id. -/
def unpackHeader (h : HeaderBytes) : FrameHeader where
  length := h.b0 ++ h.b1 ++ h.b2
  typeRaw := h.b3
  typeClass := classify h.b3
  flags := h.b4
  rsv := h.b5.extractLsb' 7 1
  streamId := h.b5.extractLsb' 0 7 ++ h.b6 ++ h.b7 ++ h.b8

/-- The word at offsets 5 to 8: `rsv * 2^31 + stream_id` (R132). -/
def streamWord (rsv : BitVec 1) (streamId : StreamId) : U32 := rsv ++ streamId

/-- The nine bytes of a header from its fields (R132). -/
def packHeader (length : U24) (typeRaw flags : Byte) (rsv : BitVec 1) (streamId : StreamId) : HeaderBytes where
  b0 := length.extractLsb' 16 8
  b1 := length.extractLsb' 8 8
  b2 := length.extractLsb' 0 8
  b3 := typeRaw
  b4 := flags
  b5 := (streamWord rsv streamId).extractLsb' 24 8
  b6 := (streamWord rsv streamId).extractLsb' 16 8
  b7 := (streamWord rsv streamId).extractLsb' 8 8
  b8 := (streamWord rsv streamId).extractLsb' 0 8

/-- The first nine bytes of a buffer as a header, and the bytes after it (R134). -/
def splitHeader : Bytes → Option (HeaderBytes × Bytes)
  | b0 :: b1 :: b2 :: b3 :: b4 :: b5 :: b6 :: b7 :: b8 :: body =>
    some (⟨b0, b1, b2, b3, b4, b5, b6, b7, b8⟩, body)
  | _ => none

/-- `Eff(r)`: the value when present, else the default (R33). -/
def Setting.eff (r : Setting) (default : Nat) : Nat := if r.present then r.value.toNat else default

/-- `Eff(CFG.HEADER_TABLE_SIZE)` (R33). -/
def State.effHeaderTableSize (s : State) : Nat := s.cfg.headerTableSize.eff Config.defaultHeaderTableSize

/-- `Eff(CFG.INITIAL_WINDOW_SIZE)` (R33). -/
def State.effInitialWindowSize (s : State) : Nat :=
  s.cfg.initialWindowSize.eff Config.defaultInitialWindowSize

/-- `Eff(CFG.MAX_FRAME_SIZE)` (R33). -/
def State.effMaxFrameSize (s : State) : Nat := s.cfg.maxFrameSize.eff Config.defaultMaxFrameSize

/-- `Credit` of a stream with this entry, on mathematical integers (R232). -/
def State.credit (s : State) (e : StreamEntry) : Int :=
  min (s.effMaxFrameSize : Int) (min s.connWindow.toInt e.window.toInt)

/-- A setting after an update: overwritten when the update has the field, else as it was (R270). -/
def Setting.update (r : Setting) (u : Option U32) : Setting :=
  match u with
  | none => r
  | some v => ⟨true, v⟩

/-- The bank after an update (R270). -/
def CfgBank.update (c : CfgBank) (u : SettingsUpdate) : CfgBank where
  headerTableSize := c.headerTableSize.update u.headerTableSize
  enablePush := c.enablePush.update u.enablePush
  maxConcurrentStreams := c.maxConcurrentStreams.update u.maxConcurrentStreams
  initialWindowSize := c.initialWindowSize.update u.initialWindowSize
  maxFrameSize := c.maxFrameSize.update u.maxFrameSize
  maxHeaderListSize := c.maxHeaderListSize.update u.maxHeaderListSize

end Sys2Proof.Machine
end

