-- ==== Sys2Proof/Machine/Flags.lean ====
section
/-!
DEFINITION. The flags: the frame flag bits the FHP unit reads (R93), a stream's three flags (R27), and DEC_FAULT (R29, R30)
and GOAWAY_SEEN (R28). The block has no arithmetic condition codes (R31).
-/

namespace Sys2Proof.Machine

/-- PADDED, bit 3, mask 0x08 (R93). -/
def padded (flags : Byte) : Bool := flags.getLsbD 3

/-- PRIORITY, bit 5, mask 0x20 (R93). -/
def hasPriority (flags : Byte) : Bool := flags.getLsbD 5

/-- `P = 1 if flags[3] else 0` (R94). -/
def padBytes (flags : Byte) : Nat := if padded flags then 1 else 0

/-- `Q = 5 if flags[5] else 0` (R94). -/
def priorityBytes (flags : Byte) : Nat := if hasPriority flags then 5 else 0

/-- `reset <- 1` (R236). -/
def StreamEntry.markReset (e : StreamEntry) : StreamEntry := { e with reset := true }

/-- `self_end_stream <- 1` (R245, R247). -/
def StreamEntry.markFinished (e : StreamEntry) : StreamEntry := { e with selfEndStream := true }

/-- `self_end_stream <- 1` if the end of stream goes out, else as it was (R238, R247). -/
def StreamEntry.finishIf (e : StreamEntry) (endStream : Bool) : StreamEntry :=
  if endStream then e.markFinished else e

/-- `self_end_headers <- 1`, and `self_end_stream <- 1` if requested (R238). -/
def StreamEntry.markHeaders (e : StreamEntry) (endStream : Bool) : StreamEntry :=
  { e with selfEndHeaders := true }.finishIf endStream

/-- `GOAWAY_SEEN <- true` (R237). -/
def State.markGoaway (s : State) : State := s.setGoawaySeen true

/-- `DEC_FAULT <- true`, `DEC_FAULT_CAUSE <- (c, start)` (R190). -/
def State.markDecFault (s : State) (c : DecodeCause) (start : Nat) : State := s.setDecFault true ⟨c, start⟩

end Sys2Proof.Machine
end

