-- ==== Sys2Proof/Machine/Configuration.lean ====
section
/-!
DEFINITION. CFG.APPLY (spec/46_config.md R270 to R273).
-/

namespace Sys2Proof.Machine

/-- CFG.APPLY (R270): no effect outside the CFG bank (R271). -/
def execCfgApply (u : SettingsUpdate) (s : State) : Answer := answer (s.setCfg (s.cfg.update u)) .done

end Sys2Proof.Machine
end

