-- ==== Sys2Proof/Machine/DynamicTable.lean ====
section
/-!
DEFINITION. DT.ADD, DT.GET, DT.SETSIZE (spec/41_dynamic_table.md R153 to R155) on either dynamic table.
-/

namespace Sys2Proof.Machine

/-- DT.ADD (R153). -/
def execDtAdd (t : TableId) (name value : Bytes) (s : State) : Answer :=
  guardTable t s (answer (s.setTable t ((s.table t).add ⟨name, value⟩)) .done)

/-- DT.GET (R154): the 0-based position from the front. -/
def execDtGet (t : TableId) (p : Nat) (s : State) : Answer :=
  guardTable t s
    (match (s.table t).ent[p]? with
    | none => .refused .badOperand
    | some h => answer s (.entry h))

/-- DT.SETSIZE (R155). -/
def execDtSetsize (t : TableId) (limit : Nat) (s : State) : Answer :=
  guardTable t s
    (if Config.dtCapMax < limit then .refused .badOperand
    else answer (s.setTable t ((s.table t).setLimit limit)) .done)

end Sys2Proof.Machine
end

