-- ==== Sys2Proof/Machine/FrameParser.lean ====
section
/-!
DEFINITION. FH.UNPACK, FH.PACK, FH.PARSE, FH.CREATE, FH.SPLIT (spec/40_frame_header.md R130 to R141): the FHP unit, which
holds no state (R21).
-/

namespace Sys2Proof.Machine

/-- FH.UNPACK (R130). -/
def execFhUnpack (h : HeaderBytes) (s : State) : Answer := answer s (.frameHeader (unpackHeader h))

/-- FH.PACK (R132). -/
def execFhPack (length : U24) (typeRaw flags : Byte) (rsv : BitVec 1) (streamId : StreamId) (s : State) : Answer :=
  answer s (.bytes (packHeader length typeRaw flags rsv streamId).toList)

/-- The checks and regions of FH.PARSE, in the order of R134. -/
def parseFrame (b : Bytes) : Except MalformedCause Frame :=
  match splitHeader b with
  | none => .error .headerTruncated
  | some (h, body) =>
    let hdr := unpackHeader h
    let len := hdr.length.toNat
    let p := padBytes hdr.flags
    let q := priorityBytes hdr.flags
    let padLen : Byte := if p = 1 then body.headD 0 else 0
    if body.length < len then .error .bodyTruncated
    else if len < p + q then .error .regionsExceedLength
    else if len < p + q + padLen.toNat then .error .paddingExceedsLength
    else .ok {
      header := hdr
      padLen := padLen
      priority := ⟨p, q⟩
      payload := ⟨p + q, len - p - q - padLen.toNat⟩
      padding := ⟨len - padLen.toNat, padLen.toNat⟩ }

/-- FH.PARSE (R134). -/
def execFhParse (b : Bytes) (s : State) : Answer :=
  match parseFrame b with
  | .error c => raise s (.malformedFrame c)
  | .ok f => answer s (.frame f)

/-- The five refusals of FH.CREATE (R137). -/
def createRefused (flags : Byte) (priority payload padding : Bytes) : Bool :=
  (hasPriority flags && decide (priority.length ≠ 5))
    || (!hasPriority flags && decide (priority.length ≠ 0))
    || (!padded flags && decide (padding.length ≠ 0))
    || (padded flags && decide (255 < padding.length))
    || decide (16777215 < padBytes flags + priorityBytes flags + payload.length + padding.length)

/-- The bytes FH.CREATE emits once it does not refuse (R137). -/
def createBytes (streamId : StreamId) (typeRaw flags : Byte) (priority payload padding : Bytes) : Bytes :=
  let len := padBytes flags + priorityBytes flags + payload.length + padding.length
  (packHeader (BitVec.ofNat 24 len) typeRaw flags 0 streamId).toList
    ++ (if padded flags then [BitVec.ofNat 8 padding.length] else [])
    ++ (if hasPriority flags then priority else [])
    ++ payload ++ padding

/-- FH.CREATE (R137). -/
def execFhCreate (streamId : StreamId) (typeRaw flags : Byte) (priority payload padding : Bytes) (s : State) : Answer :=
  if createRefused flags priority payload padding then .refused .badOperand
  else answer s (.bytes (createBytes streamId typeRaw flags priority payload padding))

/-- The length field of a frame that starts here: `BE(b[off..off+3))` (R140). -/
def frameLength (b : Bytes) : Nat := beNat (b.take 3)

/-- The loop of FH.SPLIT (R140) from offset `off`, `b` the bytes from there on: the slices and the residue. Each frame takes
nine bytes or more, so the buffer's length is fuel enough. -/
def splitLoop : Nat → Nat → Bytes → List Region × Nat
  | 0, _, b => ([], b.length)
  | fuel + 1, off, b =>
    if b.length < 9 then ([], b.length)
    else if b.length < 9 + frameLength b then ([], b.length)
    else
      let size := 9 + frameLength b
      let r := splitLoop fuel (off + size) (b.drop size)
      (⟨off, size⟩ :: r.1, r.2)

/-- The slices and the residue of a buffer (R140). -/
def splitFrames (b : Bytes) : List Region × Nat := splitLoop b.length 0 b

/-- FH.SPLIT (R140). -/
def execFhSplit (b : Bytes) (s : State) : Answer :=
  answer s (.slices (splitFrames b).1 (splitFrames b).2)

end Sys2Proof.Machine
end

