-- ==== Sys2Proof/Machine/FrameTypes.lean ====
section
/-!
DEFINITION. FT.*: the classification of a frame type byte (spec/30_encoding.md R92, R109; spec/40_frame_header.md R131). The
FHP unit holds no state (R21): the classification is answered and nothing else changes (log 19).
-/

namespace Sys2Proof.Machine

/-- Answers `Classify(t)` (R131). -/
def classifyByte (t : Byte) (s : State) : Answer := answer s (.frameClass (classify t))

/-- FT.DATA, type byte 0x00 (R92). -/
def execFtData (s : State) : Answer := classifyByte 0x00 s

/-- FT.HEADERS, type byte 0x01 (R92). -/
def execFtHeaders (s : State) : Answer := classifyByte 0x01 s

/-- FT.PRIORITY, type byte 0x02 (R92). -/
def execFtPriority (s : State) : Answer := classifyByte 0x02 s

/-- FT.RST_STREAM, type byte 0x03 (R92). -/
def execFtRstStream (s : State) : Answer := classifyByte 0x03 s

/-- FT.SETTINGS, type byte 0x04 (R92). -/
def execFtSettings (s : State) : Answer := classifyByte 0x04 s

/-- FT.PUSH_PROMISE, type byte 0x05 (R92). -/
def execFtPushPromise (s : State) : Answer := classifyByte 0x05 s

/-- FT.PING, type byte 0x06 (R92). -/
def execFtPing (s : State) : Answer := classifyByte 0x06 s

/-- FT.GOAWAY, type byte 0x07 (R92). -/
def execFtGoaway (s : State) : Answer := classifyByte 0x07 s

/-- FT.WINDOW_UPDATE, type byte 0x08 (R92). -/
def execFtWindowUpdate (s : State) : Answer := classifyByte 0x08 s

/-- FT.CONTINUATION, type byte 0x09 (R92). -/
def execFtContinuation (s : State) : Answer := classifyByte 0x09 s

/-- FT.UNKNOWN, any type byte of 10 or more; not an error (R92, R109). -/
def execFtUnknown (typeRaw : Byte) (s : State) : Answer := classifyByte typeRaw s

end Sys2Proof.Machine
end

