-- ==== Sys2Proof/Machine/HeaderDecoder.lean ====
section
/-!
DEFINITION. HD.DECODE and the five header representations (spec/43_header_decoder.md R190 to R201). A representation is run
inside HD.DECODE from the bytes of the block, and as an instruction of its own from its fields (log 3): both use the same
effects on the decode in progress.
-/

namespace Sys2Proof.Machine

/-- A decode in progress: the decoder's table and the list built so far (R190). -/
structure Decoding where
  table : DynTable
  out   : List Header
  deriving DecidableEq, Repr

/-- `out ++ [(name, value)]`: all HD.LITNO and HD.LITNEVER do (R198, R199). -/
def Decoding.emit (d : Decoding) (h : Header) : Decoding := { d with out := d.out ++ [h] }

/-- HD.INDEXED on the index it read (R195). -/
def Decoding.indexed (d : Decoding) (i : Nat) : Except DecodeCause Decoding :=
  match d.table.lookup i with
  | none => .error .indexOutOfRange
  | some e => .ok (d.emit e)

/-- HD.LITINC on the name and value it read (R196). -/
def Decoding.litInc (d : Decoding) (h : Header) : Decoding :=
  { table := d.table.add h, out := d.out ++ [h] }

/-- HD.SIZEUPD on the size it read (R197). -/
def Decoding.sizeUpd (d : Decoding) (size : Nat) : Except DecodeCause Decoding :=
  if Config.dtCapMax < size then .error .sizeTooLarge
  else .ok { d with table := d.table.setLimit size }

/-- The name a combined index supplies in a literal (R192). -/
def indexedName (t : DynTable) (i : Nat) : Except DecodeCause Bytes :=
  match t.lookup i with
  | none => .error .indexOutOfRange
  | some e => .ok e.name

/-- `LitName(b, pos, N)` (R192): the index, then the range check or the inline string. -/
def litName (t : DynTable) (n : Nat) (b : Bytes) : Except DecodeCause (Bytes × Bytes) := do
  let (i, rest) ← intDec n b
  if i = 0 then strDec rest
  else
    let name ← indexedName t i
    .ok (name, rest)

/-- The name and the value of a literal, in the order of R298, and the bytes after them. -/
def litHeader (t : DynTable) (n : Nat) (b : Bytes) : Except DecodeCause (Header × Bytes) := do
  let (name, rest) ← litName t n b
  let (value, rest) ← strDec rest
  .ok (⟨name, value⟩, rest)

/-- One representation of a block (R190 to R199): the decode after it and the bytes after it. -/
def runRepresentation (d : Decoding) (b : Bytes) : Except DecodeCause (Decoding × Bytes) :=
  match b with
  | [] => .error .truncated
  | f :: _ =>
    match repKind f with
    | .indexed => do
      let (i, rest) ← intDec 7 b
      let d ← d.indexed i
      .ok (d, rest)
    | .litInc => do
      let (h, rest) ← litHeader d.table 6 b
      .ok (d.litInc h, rest)
    | .sizeUpd => do
      let (size, rest) ← intDec 5 b
      let d ← d.sizeUpd size
      .ok (d, rest)
    | .litNever => do
      let (h, rest) ← litHeader d.table 4 b
      .ok (d.emit h, rest)
    | .litNo => do
      let (h, rest) ← litHeader d.table 4 b
      .ok (d.emit h, rest)

/-- How the loop of R190 ends: the decode so far, and the failure if there is one: its sub-cause and the number of bytes from
the first byte of the failing representation to the end of the block. -/
structure BlockEnd where
  state   : Decoding
  failure : Option (DecodeCause × Nat)
  deriving DecidableEq, Repr

/-- The loop of R190. Each representation takes a byte or more, so the block's length is fuel enough. -/
def decodeLoop : Nat → Decoding → Bytes → BlockEnd
  | 0, d, _ => ⟨d, none⟩
  | fuel + 1, d, b =>
    if b = [] then ⟨d, none⟩
    else
      match runRepresentation d b with
      | .error c => ⟨d, some (c, b.length)⟩
      | .ok (d', rest) => decodeLoop fuel d' rest

/-- Ends a decode with its list (R190). -/
def decodeOk (s : State) (d : Decoding) : Answer := answer (s.setTable .dec d.table) (.headers d.out)

/-- Ends a decode with `raise DecodeError(c)`: the table effects stay, DEC_FAULT and its cause are set, no list (R190, R194). -/
def decodeFail (s : State) (d : Decoding) (c : DecodeCause) (start : Nat) : Answer :=
  raise ((s.setTable .dec d.table).markDecFault c start) (.decodeError c start)

/-- The start of a decode: the decoder's table, an empty list (R190). -/
def State.decoding (s : State) : Decoding := ⟨s.dec, []⟩

/-- HD.DECODE (R190). -/
def execHdDecode (b : Bytes) (s : State) : Answer :=
  guardTable .dec s
    (let r := decodeLoop b.length s.decoding b
    match r.failure with
    | none => decodeOk s r.state
    | some (c, left) => decodeFail s r.state c (b.length - left))

/-- Ends a representation that is the whole block: it starts at offset 0 (R190; log 3). -/
def finishSingle (s : State) (r : Except DecodeCause Decoding) : Answer :=
  match r with
  | .error c => decodeFail s s.decoding c 0
  | .ok d => decodeOk s d

/-- The name a literal's name field supplies (R96, R192). -/
def NameRef.text (t : DynTable) (name : NameRef) : Except DecodeCause Bytes :=
  match name with
  | .indexed i => indexedName t i
  | .inline s => s.text

/-- The name and value of a literal from its fields (R192, R298). -/
def literalHeader (t : DynTable) (name : NameRef) (value : WireString) : Except DecodeCause Header := do
  let n ← NameRef.text t name
  let v ← value.text
  .ok ⟨n, v⟩

/-- HD.INDEXED (R195). -/
def execHdIndexed (i : Nat) (s : State) : Answer :=
  guardTable .dec s (finishSingle s (s.decoding.indexed i))

/-- HD.LITINC (R196). -/
def execHdLitinc (name : NameRef) (value : WireString) (s : State) : Answer :=
  guardTable .dec s (finishSingle s ((literalHeader s.dec name value).map s.decoding.litInc))

/-- HD.SIZEUPD (R197). -/
def execHdSizeupd (size : Nat) (s : State) : Answer :=
  guardTable .dec s (finishSingle s (s.decoding.sizeUpd size))

/-- HD.LITNO (R198). -/
def execHdLitno (name : NameRef) (value : WireString) (s : State) : Answer :=
  guardTable .dec s (finishSingle s ((literalHeader s.dec name value).map s.decoding.emit))

/-- HD.LITNEVER: semantics identical to HD.LITNO (R199). -/
def execHdLitnever (name : NameRef) (value : WireString) (s : State) : Answer :=
  guardTable .dec s (finishSingle s ((literalHeader s.dec name value).map s.decoding.emit))

end Sys2Proof.Machine
end

