-- ==== Sys2Proof/Machine/HeaderEncoder.lean ====
section
/-!
DEFINITION. HE.ENCODE and its four cases (spec/44_header_encoder.md R210 to R219).
-/

namespace Sys2Proof.Machine

/-- The pattern byte of a literal by the entry's IdxMode (R213 to R215), and the prefix width that goes with it (R95). -/
def literalPattern : IdxMode → Byte × Nat
  | .index => (0x40, 6)
  | .noIndex => (0x00, 4)
  | .never => (0x10, 4)

/-- The table after a literal: the pair is added when the entry requests indexing (R213, R215), else unchanged (R214). -/
def tableAfterLiteral (t : DynTable) (e : EncEntry) : DynTable :=
  match e.idx with
  | .index => t.add ⟨e.name, e.value⟩
  | .noIndex | .never => t

/-- Case 1: an indexed representation (R212). -/
def encodeIndexed (x : Nat) : Bytes := intEnc x 7 0x80

/-- Cases 2 and 3: a literal with an indexed name (R213, R214). -/
def encodeIndexedName (n : Nat) (e : EncEntry) : Bytes :=
  intEnc n (literalPattern e.idx).2 (literalPattern e.idx).1 ++ strEnc e.value e.huff

/-- Case 4: a literal that carries its name (R215). -/
def encodeNewName (e : EncEntry) : Bytes :=
  (literalPattern e.idx).1 :: (strEnc e.name e.huff ++ strEnc e.value e.huff)

/-- One entry: its bytes and the table after it, the four cases in the order of R210 and R211. -/
def encodeEntry (t : DynTable) (e : EncEntry) : Bytes × DynTable :=
  match t.findExact e.name e.value with
  | some x => (encodeIndexed x, t)
  | none =>
    match t.findName e.name with
    | some n => (encodeIndexedName n e, tableAfterLiteral t e)
    | none => (encodeNewName e, tableAfterLiteral t e)

/-- The entries in order, each on the table the earlier ones left (R210). -/
def encodeEntries (t : DynTable) : List EncEntry → Bytes × DynTable
  | [] => ([], t)
  | e :: es =>
    let r := encodeEntry t e
    let rs := encodeEntries r.2 es
    (r.1 ++ rs.1, rs.2)

/-- HE.ENCODE (R210). -/
def execHeEncode (entries : List EncEntry) (s : State) : Answer :=
  answer (s.setTable .enc (encodeEntries s.enc entries).2) (.bytes (encodeEntries s.enc entries).1)

end Sys2Proof.Machine
end

