-- ==== Sys2Proof/Machine/SendLoop.lean ====
section
/-!
DEFINITION. SD.START, SD.STEP, SD.POLL: the send_data credit loop (spec/45_window_credit.md R245 to R255).
-/

namespace Sys2Proof.Machine

/-- Context `k` cannot take a send: there is none, or it is not IDLE (R245). -/
def State.ctxBusy (s : State) (k : Nat) : Bool :=
  match s.ctx k with
  | none => true
  | some c => c.active

/-- SD.START (R245). -/
def execSdStart (k : Nat) (sid : StreamId) (n : Nat) (wantEnd : Bool) (s : State) : Answer :=
  if s.ctxBusy k then .refused .busy
  else if s.streamBusy sid then .refused .busy
  else
    match s.stream sid with
    | none => raise s (.streamDoesntExist sid)
    | some e =>
      if e.selfEndHeaders = false then raise s (.headersNotSent sid)
      else if e.selfEndStream then raise s (.streamClosed sid)
      else if n = 0 then
        if wantEnd then answer (s.setStream sid e.markFinished) (.send .done [⟨sid, 0, true⟩])
        else answer s (.send .done [])
      else answer (s.setCtx k ⟨.run, sid, n, wantEnd⟩) (.send .started [])

/-- Both windows less `m` bytes (R247, R248). -/
def State.charge (s : State) (sid : StreamId) (e : StreamEntry) (m : Nat) : State :=
  (s.setConnWindow (toS32 (s.connWindow.toInt - m))).setStream sid
    { e with window := toS32 (e.window.toInt - m) }

/-- A window is exhausted when it is `<= 0` (R233). -/
def exhausted (w : U32) : Bool := decide (w.toInt ≤ 0)

/-- SD.STEP with nothing to send: the context blocks (R247, R249). -/
def stepBlock (k : Nat) (c : SendCtx) (s : State) : Answer :=
  answer (s.setCtx k { c with phase := .blocked }) (.send .blocked [])

/-- SD.STEP's final frame of `c.remaining` bytes (R247, R248). DESIGN CHOICE: the context's other fields, unspecified while it is
IDLE (R47), keep their values (log 25). -/
def stepFinal (k : Nat) (c : SendCtx) (e : StreamEntry) (s : State) : Answer :=
  answer ((s.charge c.sid (e.finishIf c.wantEnd) c.remaining).setCtx k { c with phase := .idle })
    (.send .done [⟨c.sid, c.remaining, c.wantEnd⟩])

/-- SD.STEP's non-final frame of `m` bytes, the whole credit (R247): blocked when it exhausts a window. -/
def stepPart (k : Nat) (c : SendCtx) (e : StreamEntry) (m : Nat) (s : State) : Answer :=
  let blocks := exhausted (toS32 (s.connWindow.toInt - m)) || exhausted (toS32 (e.window.toInt - m))
  answer ((s.charge c.sid e m).setCtx k
      { c with phase := if blocks then .blocked else .run, remaining := c.remaining - m })
    (.send (if blocks then .blocked else .continues) [⟨c.sid, m, false⟩])

/-- SD.STEP (R247). A context that does not exist is in no phase (log 14); a RUN context without its stream stops (log 15). -/
def execSdStep (k : Nat) (s : State) : Answer :=
  match s.ctx k with
  | none => .refused .badPhase
  | some c =>
    if c.phase ≠ .run then .refused .badPhase
    else
      match s.stream c.sid with
      | none => .fault .contextWithoutStream
      | some e =>
        if s.credit e ≤ 0 then stepBlock k c s
        else if (c.remaining : Int) ≤ s.credit e then stepFinal k c e s
        else stepPart k c e (s.credit e).toNat s

/-- SD.POLL (R251, R252): reset, then GOAWAY, then credit. It returns the context to IDLE when it raises.
DESIGN CHOICE: its other fields, unspecified while it is IDLE (R47), keep their values (log 25). -/
def execSdPoll (k : Nat) (s : State) : Answer :=
  match s.ctx k with
  | none => .refused .badPhase
  | some c =>
    if c.phase ≠ .blocked then .refused .badPhase
    else
      match s.stream c.sid with
      | none => .fault .contextWithoutStream
      | some e =>
        if e.reset then raise (s.setCtx k { c with phase := .idle }) (.streamClosed c.sid)
        else if s.goawaySeen then raise (s.setCtx k { c with phase := .idle }) .connectionClosed
        else if 0 < s.credit e then answer (s.setCtx k { c with phase := .run }) (.send .resumed [])
        else answer s (.send .stillBlocked [])

end Sys2Proof.Machine
end

