-- ==== Sys2Proof/Machine/WindowCredit.lean ====
section
/-!
DEFINITION. WC.OPEN, WC.UPDATE, WC.RST, WC.GOAWAY, WC.HDRS, WC.CREDIT (spec/45_window_credit.md R230 to R240).
-/

namespace Sys2Proof.Machine

/-- The entry WC.OPEN creates (R234). -/
def freshStream (window : Nat) : StreamEntry := ⟨BitVec.ofNat 32 window, false, false, false⟩

/-- WC.OPEN (R234). -/
def execWcOpen (id : StreamId) (s : State) : Answer :=
  if id = 0 then .refused .badOperand
  else
    match s.stream id with
    | some _ => answer s .done
    | none =>
      if 2147483647 < s.effInitialWindowSize then .refused .badOperand
      else if streamTableFull Config.nStreams s.streams then .refused .capacityExceeded
      else answer (s.setStream id (freshStream s.effInitialWindowSize)) .done

/-- A window after an exact addition, none outside the signed range (R231). -/
def addWindow (w delta : U32) : Option U32 :=
  if inS32 (w.toInt + delta.toInt) then some (toS32 (w.toInt + delta.toInt)) else none

/-- WC.UPDATE (R235): id 0 addresses the connection. -/
def execWcUpdate (id : StreamId) (delta : U32) (s : State) : Answer :=
  if id = 0 then
    match addWindow s.connWindow delta with
    | none => .refused .windowOverflow
    | some w => answer (s.setConnWindow w) .done
  else
    match s.stream id with
    | none => raise s (.protocolError id)
    | some e =>
      match addWindow e.window delta with
      | none => .refused .windowOverflow
      | some w => answer (s.setStream id { e with window := w }) .done

/-- WC.RST (R236). -/
def execWcRst (id : StreamId) (s : State) : Answer :=
  match s.stream id with
  | none => raise s (.protocolError id)
  | some e => answer (s.setStream id e.markReset) .done

/-- WC.GOAWAY (R237). -/
def execWcGoaway (s : State) : Answer := answer s.markGoaway .done

/-- WC.HDRS (R238): existence, then fully sent, then headers sent. -/
def execWcHdrs (id : StreamId) (endStream : Bool) (s : State) : Answer :=
  match s.stream id with
  | none => raise s (.streamDoesntExist id)
  | some e =>
    if e.selfEndStream then raise s (.streamClosed id)
    else if e.selfEndHeaders then raise s (.headersSent id)
    else answer (s.setStream id (e.markHeaders endStream)) .done

/-- WC.CREDIT (R239). -/
def execWcCredit (id : StreamId) (s : State) : Answer :=
  match s.stream id with
  | none => raise s (.streamDoesntExist id)
  | some e => answer s (.credit (s.credit e))

end Sys2Proof.Machine
end

