-- ==== Sys2Proof/Machine/Dispatch.lean ====
section
/-!
DEFINITION. exec: one arm per instruction, each one call of its meaning.
-/

namespace Sys2Proof.Machine

def exec (i : Instr) (s : State) : Host.Outcome State Fault Refusal :=
  match i with
  | .fhUnpack h => Sys2Proof.Machine.execFhUnpack h s
  | .fhPack length typeRaw flags rsv streamId => Sys2Proof.Machine.execFhPack length typeRaw flags rsv streamId s
  | .fhParse b => Sys2Proof.Machine.execFhParse b s
  | .fhCreate streamId typeRaw flags priority payload padding => Sys2Proof.Machine.execFhCreate streamId typeRaw flags priority payload padding s
  | .fhSplit b => Sys2Proof.Machine.execFhSplit b s
  | .dtAdd t name value => Sys2Proof.Machine.execDtAdd t name value s
  | .dtGet t p => Sys2Proof.Machine.execDtGet t p s
  | .dtSetsize t limit => Sys2Proof.Machine.execDtSetsize t limit s
  | .hdDecode b => Sys2Proof.Machine.execHdDecode b s
  | .heEncode entries => Sys2Proof.Machine.execHeEncode entries s
  | .wcOpen id => Sys2Proof.Machine.execWcOpen id s
  | .wcUpdate id delta => Sys2Proof.Machine.execWcUpdate id delta s
  | .wcRst id => Sys2Proof.Machine.execWcRst id s
  | .wcGoaway => Sys2Proof.Machine.execWcGoaway s
  | .wcHdrs id endStream => Sys2Proof.Machine.execWcHdrs id endStream s
  | .wcCredit id => Sys2Proof.Machine.execWcCredit id s
  | .sdStart k sid n wantEnd => Sys2Proof.Machine.execSdStart k sid n wantEnd s
  | .sdStep k => Sys2Proof.Machine.execSdStep k s
  | .sdPoll k => Sys2Proof.Machine.execSdPoll k s
  | .cfgApply u => Sys2Proof.Machine.execCfgApply u s
  | .hdIndexed index => Sys2Proof.Machine.execHdIndexed index s
  | .hdLitinc name value => Sys2Proof.Machine.execHdLitinc name value s
  | .hdSizeupd size => Sys2Proof.Machine.execHdSizeupd size s
  | .hdLitno name value => Sys2Proof.Machine.execHdLitno name value s
  | .hdLitnever name value => Sys2Proof.Machine.execHdLitnever name value s
  | .ftData => Sys2Proof.Machine.execFtData s
  | .ftHeaders => Sys2Proof.Machine.execFtHeaders s
  | .ftPriority => Sys2Proof.Machine.execFtPriority s
  | .ftRstStream => Sys2Proof.Machine.execFtRstStream s
  | .ftSettings => Sys2Proof.Machine.execFtSettings s
  | .ftPushPromise => Sys2Proof.Machine.execFtPushPromise s
  | .ftPing => Sys2Proof.Machine.execFtPing s
  | .ftGoaway => Sys2Proof.Machine.execFtGoaway s
  | .ftWindowUpdate => Sys2Proof.Machine.execFtWindowUpdate s
  | .ftContinuation => Sys2Proof.Machine.execFtContinuation s
  | .ftUnknown typeRaw => Sys2Proof.Machine.execFtUnknown typeRaw s

end Sys2Proof.Machine
end

