-- ==== Sys2Proof/Machine/Step.lean ====
section
/-!
DEFINITION. The step: run the oldest operation the host has issued (R69, R74; log 1). With nothing issued the block waits
(R322, R293).
-/

namespace Sys2Proof.Machine

/-- One step: the oldest issue leaves the queue, is decoded, and its instruction runs; an issue that is no instruction is
refused by name (R113). -/
def step (s : State) : Host.Outcome State Fault Refusal :=
  match s.inbox with
  | [] => .next s
  | q :: rest =>
    match decode q.format q.bytes with
    | .error r => refuseReject r
    | .ok i => exec i (s.setInbox rest)

/-- The state with the instruction of a table word issued before all else (log 4). -/
def State.withFetchWord (s : State) (nbits w : Nat) : State :=
  s.setInbox (⟨(tableIssue nbits w).1, (tableIssue nbits w).2⟩ :: s.inbox)

end Sys2Proof.Machine
end

