-- ==== Sys2Proof/Safety.lean ====
section
/-!
DEFINITION. What counts as a legal state (R44, R45, R48 of spec/10_state.md) and as a quiet one (the state's part of a clean
run, R343 of spec/70_reset_and_hazards.md); and the fairness of the host that the end of a blocked send rests on (R342).
-/

namespace Sys2Proof.Machine

/-- R44: between operations the size of a table is at most its limit. -/
abbrev DynTable.Bounded (t : DynTable) : Prop := t.size ≤ t.tableSize.toNat

/-- The stream of a context in phase RUN or BLOCKED is open, its headers are sent and it is not fully sent (R48). -/
def State.ctxBacked (s : State) (c : SendCtx) : Bool :=
  match s.stream c.sid with
  | none => false
  | some e => e.selfEndHeaders && !e.selfEndStream

/-- R48 for one context: an active context is backed by its stream and has bytes left. -/
abbrev State.CtxLegal (s : State) (c : SendCtx) : Prop :=
  c.active = true → s.ctxBacked c = true ∧ 0 < c.remaining

/-- R48 for two contexts: two active contexts have different streams. -/
abbrev CtxDistinct (c d : SendCtx) : Prop := c.active = true → d.active = true → c.sid ≠ d.sid

/-- The invariants between operations: R44 for both tables, the canonical form of STREAMS, R48 for the contexts. -/
abbrev State.Inv (s : State) : Prop :=
  s.enc.Bounded ∧ s.dec.Bounded ∧ StreamsWf s.streams ∧ (∀ c ∈ s.sendCtx, s.CtxLegal c)
    ∧ s.sendCtx.Pairwise CtxDistinct

/-- The state's part of R343: DEC_FAULT is false and every send context is IDLE. -/
def State.quiet (s : State) : Bool := !s.decFault && s.sendCtx.all fun c => !c.active

/-! ### Fairness of the host (R342, R336, U18; log 26): a premise on the host, no property of the block -/

/-- What an event gives a blocked context: its stream is reset, a GOAWAY was seen, or there is credit (R251, R294). -/
def State.woken (s : State) (c : SendCtx) : Bool :=
  match s.stream c.sid with
  | none => false
  | some e => e.reset || s.goawaySeen || decide (0 < s.credit e)

/-- An endless run: the host's operations, one after another, each answering (log 13). -/
def HostRun (ops : Nat → Instr) (run : Nat → State) : Prop := ∀ n, exec (ops n) (run n) = .next (run (n + 1))

/-- The fairness assumption of R342 for context `k`: whenever it is BLOCKED, the host goes on to poll it at a state in which an
event has woken it. -/
def FairHost (k : Nat) (ops : Nat → Instr) (run : Nat → State) : Prop :=
  ∀ n c, (run n).ctx k = some c → c.phase = .blocked →
    ∃ m, n ≤ m ∧ ops m = .sdPoll k ∧ ∃ d, (run m).ctx k = some d ∧ (run m).woken d = true

end Sys2Proof.Machine
end

