-- ==== Sys2Proof/Certificates/Slice0/Obligations.lean ====
section
/-!
DEFINITION. The statements for the provers, each formalising the rules its docstring cites; before them the words they are
stated in, written from the spec and not from the meanings.
-/

namespace Sys2Proof.Claims

open Sys2Proof.Machine

/-! ### Frame headers -/

/-- The ten names of R92 in the order of their numbers. -/
def frameTypeNames : List FrameType :=
  [.data, .headers, .priority, .rstStream, .settings, .pushPromise, .ping, .goaway, .windowUpdate, .continuation]

/-- R92, R131: the name of a type byte, UNKNOWN from 10 on. -/
def frameTypeOf (t : Byte) : FrameType := frameTypeNames.getD t.toNat .unknown

/-- R91, R130: a header is the unpacking of nine bytes. -/
def IsUnpacked (h : HeaderBytes) (hdr : FrameHeader) : Prop :=
  hdr.length.toNat = h.b0.toNat * 65536 + h.b1.toNat * 256 + h.b2.toNat
    ∧ hdr.typeRaw = h.b3
    ∧ hdr.typeClass = frameTypeOf h.b3
    ∧ hdr.flags = h.b4
    ∧ hdr.rsv.toNat = h.b5.toNat / 128
    ∧ hdr.streamId.toNat =
        (h.b5.toNat % 128) * 16777216 + h.b6.toNat * 65536 + h.b7.toNat * 256 + h.b8.toNat

/-- `P` of R94, R134, R137: 1 when flag bit 3 is set. -/
def padOne (flags : Byte) : Nat := if flags.toNat / 8 % 2 = 1 then 1 else 0

/-- `Q` of R94, R134, R137: 5 when flag bit 5 is set. -/
def prioFive (flags : Byte) : Nat := if flags.toNat / 32 % 2 = 1 then 5 else 0

/-- The first nine bytes of a buffer. -/
def headOf (b : Bytes) : HeaderBytes :=
  ⟨b.getD 0 0, b.getD 1 0, b.getD 2 0, b.getD 3 0, b.getD 4 0, b.getD 5 0, b.getD 6 0, b.getD 7 0, b.getD 8 0⟩

/-- `BE(b[off..off+3))`. -/
def length24 (b : Bytes) (off : Nat) : Nat :=
  (b.getD off 0).toNat * 65536 + (b.getD (off + 1) 0).toNat * 256 + (b.getD (off + 2) 0).toNat

/-- `pad_len` of R134: the byte at body offset 0 when PADDED. -/
def padLenOf (b : Bytes) : Nat := if padOne (b.getD 4 0) = 1 then (b.getD 9 0).toNat else 0

/-- R134, the ok outcome: the frame of a buffer. -/
def IsParsed (b : Bytes) (f : Frame) : Prop :=
  let p := padOne (b.getD 4 0)
  let q := prioFive (b.getD 4 0)
  IsUnpacked (headOf b) f.header
    ∧ f.padLen.toNat = padLenOf b
    ∧ f.priority = ⟨p, q⟩
    ∧ f.payload = ⟨p + q, length24 b 0 - p - q - padLenOf b⟩
    ∧ f.padding = ⟨length24 b 0 - padLenOf b, padLenOf b⟩

/-- The bytes of a buffer at a region of its frame body. -/
def regionBytes (b : Bytes) (r : Region) : Bytes := (b.drop (9 + r.offset)).take r.length

/-! ### The dynamic tables -/

/-- R43, R150: the sum of `len(name) + len(value) + 32`. -/
def totalSize (ent : List Header) : Nat := (ent.map fun h => h.name.length + h.value.length + 32).sum

/-- R153, R159: `kept` is the longest prefix of `all` (newest first) whose total size is at most `limit`. -/
def LongestWithin (limit : Nat) (all kept : List Header) : Prop :=
  kept <+: all ∧ totalSize kept ≤ limit ∧ ∀ p, p <+: all → totalSize p ≤ limit → p <+: kept

/-- R156: the entry a combined index names. -/
def entryAt (t : DynTable) (i : Nat) : Option Header :=
  if i = 0 then none else if i ≤ 61 then Config.staticTable[i - 1]? else t.ent[i - 62]?

/-- R158: `i` is the least combined index whose entry meets `p`. -/
def LeastIndex (t : DynTable) (p : Header → Prop) (i : Nat) : Prop :=
  (∃ h, entryAt t i = some h ∧ p h) ∧ ∀ j < i, ∀ h, entryAt t j = some h → ¬ p h

/-- R158: no combined index's entry meets `p`. -/
def NoIndex (t : DynTable) (p : Header → Prop) : Prop := ∀ j h, entryAt t j = some h → ¬ p h

/-- DT.ADD of the headers one after another (R159), oldest first. -/
def addAll (t : TableId) : List Header → State → Answer
  | [], s => .next s
  | h :: hs, s =>
    match exec (.dtAdd t h.name h.value) s with
    | .next u => addAll t hs u
    | other => other

/-! ### Header blocks -/

/-- R174: the text of a wire string. -/
def TextIs (w : WireString) (t : Bytes) : Prop :=
  if w.huff = true then Config.huffDec w.octets = some t else w.octets = t

/-- R174: a Huffman string HuffDec rejects. -/
def TextInvalid (w : WireString) : Prop := w.huff = true ∧ Config.huffDec w.octets = none

/-- R96, R192: the name a literal's name field supplies. -/
def NameIs (t : DynTable) (name : NameRef) (n : Bytes) : Prop :=
  match name with
  | .indexed i => ∃ h, entryAt t i = some h ∧ h.name = n
  | .inline w => TextIs w n

/-- The decoder's failure at the first byte of a block: nothing changes but DEC_FAULT and its cause (R190, R194). -/
def failedAtZero (s : State) (c : DecodeCause) : State :=
  { s with decFault := true, decFaultCause := ⟨c, 0⟩, response := .raised (.decodeError c 0) }

/-- The units whose state an operation runs on (R21, R73). -/
inductive HwUnit where
  | fhp
  | enc
  | dec
  | wct
  | cfg
  deriving DecidableEq, Repr

/-- The unit that owns a dynamic table (R73). -/
def tableUnit : TableId → HwUnit
  | .enc => .enc
  | .dec => .dec

/-- The unit an instruction runs on (R73, R29): DT.* on the unit of its table, the representations on DEC. -/
def unitOf : Instr → HwUnit
  | .fhUnpack _ | .fhPack _ _ _ _ _ | .fhParse _ | .fhCreate _ _ _ _ _ _ | .fhSplit _ => .fhp
  | .dtAdd t _ _ => tableUnit t
  | .dtGet t _ => tableUnit t
  | .dtSetsize t _ => tableUnit t
  | .hdDecode _ => .dec
  | .heEncode _ => .enc
  | .wcOpen _ | .wcUpdate _ _ | .wcRst _ | .wcGoaway | .wcHdrs _ _ | .wcCredit _ => .wct
  | .sdStart _ _ _ _ | .sdStep _ | .sdPoll _ => .wct
  | .cfgApply _ => .cfg
  | .hdIndexed _ | .hdLitinc _ _ | .hdSizeupd _ | .hdLitno _ _ | .hdLitnever _ _ => .dec
  | .ftData | .ftHeaders | .ftPriority | .ftRstStream | .ftSettings | .ftPushPromise | .ftPing
  | .ftGoaway | .ftWindowUpdate | .ftContinuation | .ftUnknown _ => .fhp

/-- HD.DECODE and the representations, which interpret a header block. -/
def interpretsBlock : Instr → Bool
  | .hdDecode _ | .hdIndexed _ | .hdLitinc _ _ | .hdSizeupd _ | .hdLitno _ _ | .hdLitnever _ _ => true
  | _ => false

/-! ### Windows -/

/-- `Eff` of R33. -/
def effective (r : Setting) (default : Nat) : Nat := if r.present = true then r.value.toNat else default

/-- R232: `min(max_frame_size, connection_window, stream_window)`. -/
def creditOf (s : State) (e : StreamEntry) : Int :=
  min (effective s.cfg.maxFrameSize 16384 : Int) (min s.connWindow.toInt e.window.toInt)

/-- The streams `m` are those of `s` but for `id`, whose entry is `e`. -/
def StreamsWith (s : State) (id : StreamId) (e : StreamEntry) (m : List (Nat × StreamEntry)) : Prop :=
  streamFind m id = some e ∧ ∀ j, j ≠ id → streamFind m j = s.stream j

/-- The bytes of the DATA frames an answer returns. -/
def sentBytes : Response → Nat
  | .ok (.send _ frames) => (frames.map DataFrameDesc.len).sum
  | _ => 0

/-- The bytes of the DATA frames an answer returns on one stream. -/
def sentOn (id : StreamId) : Response → Nat
  | .ok (.send _ frames) => ((frames.filter fun f => decide (f.streamId = id)).map DataFrameDesc.len).sum
  | _ => 0

/-- `delta(0)`: what an operation adds to the connection window (R253). -/
def deltaConn : Instr → Int
  | .wcUpdate id delta => if id = 0 then delta.toInt else 0
  | _ => 0

/-- `delta(id)`: what an operation adds to the window of stream `id`, which is not 0 (R253). -/
def deltaStream (id : StreamId) : Instr → Int
  | .wcUpdate j delta => if j = id then delta.toInt else 0
  | _ => 0

/-- A run of operations that all answer a next state: the last state, `Σ delta(0)` and `Σ len` (R253). -/
def connBalance : List Instr → State → Option (State × Int × Int)
  | [], s => some (s, 0, 0)
  | i :: is, s =>
    match exec i s with
    | .next t => (connBalance is t).map fun r => (r.1, deltaConn i + r.2.1, sentBytes t.response + r.2.2)
    | _ => none

/-- The same for one stream: the last state, `Σ delta(id)` and `Σ len(id)` (R253). -/
def streamBalance (id : StreamId) : List Instr → State → Option (State × Int × Int)
  | [], s => some (s, 0, 0)
  | i :: is, s =>
    match exec i s with
    | .next t =>
      (streamBalance id is t).map fun r => (r.1, deltaStream id i + r.2.1, sentOn id t.response + r.2.2)
    | _ => none

/-- SD.STEP on one context, `m` times. -/
def stepTimes : Nat → Nat → State → Answer
  | 0, _, s => .next s
  | m + 1, k, s =>
    match exec (.sdStep k) s with
    | .next t => stepTimes m k t
    | other => other

end Sys2Proof.Claims

open Sys2Proof Sys2Proof.Machine Sys2Proof.Claims

/-! ### Encodings -/

/-- Every well-formed instruction is read back from its encoding (R90, R95, R97, R98, R102; the operand layout is the model's,
log 2). -/
def Obligations.DecodeOfEncode : Prop :=
  ∀ i : Instr, i.wf = true → decode i.format (encode i) = .ok i

/-- Words written out from R92, R95, R102 and from the vectors of spec/95_test_vectors.md decode to their instructions (the
operand layout after a command opcode is the model's, log 2). -/
def Obligations.SpecWordsDecode : Prop :=
  decode .cmd [0x33] = .ok .wcGoaway
    ∧ decode .cmd [0x01, 0x00, 0x00, 0x0E, 0x00, 0x00, 0x00, 0x00, 0x00, 0x01]
        = .ok (.fhUnpack ⟨0x00, 0x00, 0x0E, 0x00, 0x00, 0x00, 0x00, 0x00, 0x01⟩)
    ∧ decode .hr [0x82] = .ok (.hdIndexed 2)
    ∧ decode .hr [0x3F, 0xE1, 0x1F] = .ok (.hdSizeupd 4096)
    ∧ decode .hr [0x40, 0x01, 0x61, 0x01, 0x62] = .ok (.hdLitinc (.inline ⟨false, [0x61]⟩) ⟨false, [0x62]⟩)
    ∧ decode .hr [0x04, 0x01, 0x2F] = .ok (.hdLitno (.indexed 4) ⟨false, [0x2F]⟩)
    ∧ decode .hr [0x1F, 0x30, 0x01, 0x6F] = .ok (.hdLitnever (.indexed 63) ⟨false, [0x6F]⟩)
    ∧ decode .fh [0x07] = .ok .ftGoaway
    ∧ decode .fh [0x0A] = .ok (.ftUnknown 0x0A)

/-- R113: a command opcode outside the table of R102 is refused by name, whatever follows it. -/
def Obligations.UnlistedOpcodeRefused : Prop :=
  ∀ (s : State) (opcode : Byte) (operands : Bytes) (rest : List Issue),
    opcode.toNat ∉ [0x01, 0x02, 0x03, 0x04, 0x05, 0x10, 0x11, 0x12, 0x20, 0x28, 0x30, 0x31, 0x32, 0x33, 0x34, 0x35,
      0x38, 0x39, 0x3A, 0x40] →
    s.inbox = ⟨.cmd, opcode :: operands⟩ :: rest →
    step s = .refused (.unknownCommand opcode)

/-- R95, R191: the leading bits of the first byte select the representation, over all 256 values. -/
def Obligations.LeadingBitsSelectRepresentation : Prop :=
  ∀ (f : Byte) (rest after : Bytes) (i : Instr), decodeRepresentation (f :: rest) = .ok (i, after) →
    (128 ≤ f.toNat → ∃ n, i = .hdIndexed n)
    ∧ (64 ≤ f.toNat → f.toNat < 128 → ∃ n v, i = .hdLitinc n v)
    ∧ (32 ≤ f.toNat → f.toNat < 64 → ∃ n, i = .hdSizeupd n)
    ∧ (16 ≤ f.toNat → f.toNat < 32 → ∃ n v, i = .hdLitnever n v)
    ∧ (f.toNat < 16 → ∃ n v, i = .hdLitno n v)

/-- R173 (the spec's inference from R170 and R172): a prefix integer in range is read back, and the cursor stands after the
bytes written; `2^N - 2` takes one byte and `2^N - 1` two; and the worked examples. -/
def Obligations.PrefixIntegerRoundTrip : Prop :=
  (∀ (v n : Nat) (hi : Byte) (rest : Bytes), 1 ≤ n → n ≤ 8 → hi.toNat % 2 ^ n = 0 → v ≤ Config.intMax →
    intDec n (intEnc v n hi ++ rest) = .ok (v, rest))
  ∧ (∀ (n : Nat) (hi : Byte), 1 ≤ n → n ≤ 8 →
    (intEnc (2 ^ n - 2) n hi).length = 1
    ∧ intEnc (2 ^ n - 1) n hi = [hi ||| BitVec.ofNat 8 (2 ^ n - 1), 0x00])
  ∧ intEnc 10 5 0x00 = [0x0A] ∧ intEnc 1337 5 0x00 = [0x1F, 0x9A, 0x0A] ∧ intEnc 62 7 0x80 = [0xBE]
  ∧ intEnc 127 7 0x80 = [0xFF, 0x00] ∧ intEnc 4096 5 0x20 = [0x3F, 0xE1, 0x1F]
  ∧ intDec 5 [0x1F, 0x9A, 0x0A] = .ok (1337, []) ∧ intDec 5 [0x1F] = .error .truncated
  ∧ intDec 5 [0x1F, 0x80, 0x80, 0x80, 0x80, 0x80, 0x01] = .error .integerOverflow

/-- R170, R171: an integer above `2^INT_BITS - 1` is IntegerOverflow, whatever follows it (INT_BITS = 32: log 9; its bytes are the
loop of R172 beyond that rule's domain: log 24). -/
def Obligations.PrefixIntegerOverflow : Prop :=
  ∀ (v n : Nat) (hi : Byte) (rest : Bytes), 1 ≤ n → n ≤ 8 → hi.toNat % 2 ^ n = 0 → 2 ^ 32 - 1 < v →
    intDec n (intEnc v n hi ++ rest) = .error .integerOverflow

/-- R175 (decision D16 on the tie): StrEnc writes the length of the body under the Huffman flag and the body: the coder's
octets for HUFF, and for AUTO when they are fewer than the string's; else, on a tie too, the string itself.
A body above `2^INT_BITS - 1` octets is written behind the longer integer: the model's choice, log 24. -/
def Obligations.StringEncodingChoice : Prop :=
  ∀ (t : Bytes) (mode : HuffMode),
    ((mode = .huff ∨ (mode = .auto ∧ (Config.huffEnc t).length < t.length)) →
      strEnc t mode = intEnc (Config.huffEnc t).length 7 0x80 ++ Config.huffEnc t)
    ∧ ((mode = .raw ∨ (mode = .auto ∧ t.length ≤ (Config.huffEnc t).length)) →
      strEnc t mode = intEnc t.length 7 0x00 ++ t)

/-- R176, the law, for strings whose written form has a length IntEnc can write: under HuffRoundTrip a string is read back. -/
def Obligations.StringRoundTrip : Prop :=
  Config.HuffRoundTrip → ∀ (t : Bytes) (mode : HuffMode) (rest : Bytes),
    (wireForm t mode).octets.length ≤ 2 ^ 32 - 1 → strDec (strEnc t mode ++ rest) = .ok (t, rest)

/-! ### The step -/

/-- An issue that decodes leaves the queue and runs as its instruction: step is exec on the rest of the queue (R69, R101; the
queue is the model's, log 1). -/
def Obligations.StepRunsIssuedInstruction : Prop :=
  ∀ (s : State) (q : Issue) (rest : List Issue) (i : Instr),
    s.inbox = q :: rest → decode q.format q.bytes = .ok i → step s = exec i { s with inbox := rest }

/-- With nothing issued the block waits: nothing happens (R293, R322; the queue is the model's, log 1). -/
def Obligations.StepWaitsWithoutIssue : Prop :=
  ∀ s : State, s.inbox = [] → step s = .next s

/-- Bytes issued as a header block run as HD.DECODE of that block, whether they are one representation or not (R190; that a
representation can be issued alone is the model's, log 3). -/
def Obligations.IssuedBlockIsDecoded : Prop :=
  ∀ (s : State) (b : Bytes) (rest : List Issue), s.inbox = ⟨.hr, b⟩ :: rest →
    step s = exec (.hdDecode b) { s with inbox := rest }

/-! ### The frame header parser -/

/-- R91, R130, R131: FH.UNPACK extracts every field of every 9-byte string and changes nothing; two headers that differ only
in the reserved bit have the same stream id. -/
def Obligations.UnpackExtractsFields : Prop :=
  ∀ (h : HeaderBytes) (s : State), ∃ hdr, IsUnpacked h hdr
    ∧ exec (.fhUnpack h) s = .next { s with response := .ok (.frameHeader hdr) }
    ∧ ∀ x : Byte, x.toNat % 128 = h.b5.toNat % 128 → ∃ hdr',
      exec (.fhUnpack { h with b5 := x }) s = .next { s with response := .ok (.frameHeader hdr') }
        ∧ hdr'.streamId = hdr.streamId

/-- R132: FH.PACK emits length, type, flags and `rsv * 2^31 + stream_id`, big-endian, and changes nothing. -/
def Obligations.PackEmitsFields : Prop :=
  ∀ (length : U24) (typeRaw flags : Byte) (rsv : BitVec 1) (streamId : StreamId) (s : State),
    exec (.fhPack length typeRaw flags rsv streamId) s = .next { s with
      response := .ok (.bytes (bytesBE length.toNat 3 ++ [typeRaw] ++ [flags] ++ bytesBE (rsv.toNat * 2 ^ 31 + streamId.toNat) 4)) }

/-- R133 (the spec's inference from R130 and R132): FH.PACK and FH.UNPACK are inverse, both ways. -/
def Obligations.PackUnpackInverse : Prop :=
  (∀ (h : HeaderBytes) (s : State), ∃ hdr,
    exec (.fhUnpack h) s = .next { s with response := .ok (.frameHeader hdr) }
      ∧ exec (.fhPack hdr.length hdr.typeRaw hdr.flags hdr.rsv hdr.streamId) s
          = .next { s with response := .ok (.bytes h.toList) })
  ∧ ∀ (length : U24) (typeRaw flags : Byte) (rsv : BitVec 1) (streamId : StreamId) (s : State), ∃ h : HeaderBytes,
    exec (.fhPack length typeRaw flags rsv streamId) s = .next { s with response := .ok (.bytes h.toList) }
      ∧ exec (.fhUnpack h) s = .next { s with
          response := .ok (.frameHeader ⟨length, typeRaw, frameTypeOf typeRaw, flags, rsv, streamId⟩) }

/-- R92, R131: FT.* answer the class of their type byte and change nothing (that a type byte can be issued alone is the model's,
log 19). -/
def Obligations.FrameTypesClassified : Prop :=
  (∀ s : State,
    exec .ftData s = .next { s with response := .ok (.frameClass .data) }
    ∧ exec .ftHeaders s = .next { s with response := .ok (.frameClass .headers) }
    ∧ exec .ftPriority s = .next { s with response := .ok (.frameClass .priority) }
    ∧ exec .ftRstStream s = .next { s with response := .ok (.frameClass .rstStream) }
    ∧ exec .ftSettings s = .next { s with response := .ok (.frameClass .settings) }
    ∧ exec .ftPushPromise s = .next { s with response := .ok (.frameClass .pushPromise) }
    ∧ exec .ftPing s = .next { s with response := .ok (.frameClass .ping) }
    ∧ exec .ftGoaway s = .next { s with response := .ok (.frameClass .goaway) }
    ∧ exec .ftWindowUpdate s = .next { s with response := .ok (.frameClass .windowUpdate) }
    ∧ exec .ftContinuation s = .next { s with response := .ok (.frameClass .continuation) }
    ∧ ∀ t : Byte, 10 ≤ t.toNat → exec (.ftUnknown t) s = .next { s with response := .ok (.frameClass .unknown) })
  ∧ (∀ (t : Byte) (s : State), ∃ i, decode .fh [t] = .ok i
    ∧ exec i s = .next { s with response := .ok (.frameClass (frameTypeOf t)) })

/-- R134 (decision D7 on the order and the sub-causes): FH.PARSE, the four failures in their order and the frame, for every
buffer; nothing else changes. -/
def Obligations.ParseFindsRegions : Prop :=
  ∀ (b : Bytes) (s : State),
    let p := padOne (b.getD 4 0)
    let q := prioFive (b.getD 4 0)
    let n := length24 b 0
    (b.length < 9 → exec (.fhParse b) s = .next { s with response := .raised (.malformedFrame .headerTruncated) })
    ∧ (9 ≤ b.length → b.length - 9 < n →
        exec (.fhParse b) s = .next { s with response := .raised (.malformedFrame .bodyTruncated) })
    ∧ (9 ≤ b.length → n ≤ b.length - 9 → n < p + q →
        exec (.fhParse b) s = .next { s with response := .raised (.malformedFrame .regionsExceedLength) })
    ∧ (9 ≤ b.length → n ≤ b.length - 9 → p + q ≤ n → n < p + q + padLenOf b →
        exec (.fhParse b) s = .next { s with response := .raised (.malformedFrame .paddingExceedsLength) })
    ∧ (9 ≤ b.length → n ≤ b.length - 9 → p + q + padLenOf b ≤ n →
        ∃ f, IsParsed b f ∧ exec (.fhParse b) s = .next { s with response := .ok (.frame f) })

/-- R23, R135 (a), (g): of a parsed frame `length == priority_len + payload_len + padding_len + (1 if padded)`, the regions
follow one another to the end of the body, and bytes after the frame are ignored. -/
def Obligations.ParsedRegionsAddUp : Prop :=
  ∀ (b extra : Bytes) (s : State) (f : Frame),
    exec (.fhParse b) s = .next { s with response := .ok (.frame f) } →
    f.header.length.toNat = f.priority.length + f.payload.length + f.padding.length + padOne f.header.flags
    ∧ f.priority.offset = padOne f.header.flags
    ∧ f.payload.offset = f.priority.offset + f.priority.length
    ∧ f.padding.offset = f.payload.offset + f.payload.length
    ∧ f.padding.offset + f.padding.length = f.header.length.toNat
    ∧ exec (.fhParse (b ++ extra)) s = .next { s with response := .ok (.frame f) }

/-- R137 (decision D10 on the refusals): FH.CREATE refuses operands that contradict the flags or do not fit, and else emits
the frame; nothing changes. -/
def Obligations.CreateEmitsFrame : Prop :=
  ∀ (streamId : StreamId) (typeRaw flags : Byte) (priority payload padding : Bytes) (s : State),
    let p := padOne flags
    let q := prioFive flags
    let n := p + q + payload.length + padding.length
    let bad := (q = 5 ∧ priority.length ≠ 5) ∨ (q = 0 ∧ priority.length ≠ 0) ∨ (p = 0 ∧ padding.length ≠ 0)
      ∨ (p = 1 ∧ 255 < padding.length) ∨ 16777215 < n
    (bad → exec (.fhCreate streamId typeRaw flags priority payload padding) s = .refused .badOperand)
    ∧ (¬ bad → exec (.fhCreate streamId typeRaw flags priority payload padding) s
        = .next { s with response := .ok (.bytes
            (bytesBE n 3 ++ [typeRaw] ++ [flags] ++ bytesBE streamId.toNat 4
              ++ (if p = 1 then bytesBE padding.length 1 else []) ++ priority ++ payload ++ padding)) })

/-- R139 (the spec's inference from R134 and R137): FH.CREATE on what FH.PARSE found gives the buffer back, for a buffer of
exactly one frame with reserved bit 0. -/
def Obligations.CreateOfParse : Prop :=
  ∀ (b : Bytes) (s : State) (f : Frame),
    exec (.fhParse b) s = .next { s with response := .ok (.frame f) } →
    b.length = 9 + f.header.length.toNat → f.header.rsv = 0 →
    exec (.fhCreate f.header.streamId f.header.typeRaw f.header.flags (regionBytes b f.priority)
      (regionBytes b f.payload) (regionBytes b f.padding)) s = .next { s with response := .ok (.bytes b) }

/-- R141 (the spec's inference from R134 and R140): the slices of FH.SPLIT start at 0 and are contiguous, each as long as its
length field says; with the residue they make up the buffer; the residue is no complete frame; no slice is truncated for
FH.PARSE; nothing changes. -/
def Obligations.SplitCarvesFrames : Prop :=
  (∀ (b : Bytes) (s : State), ∃ out residue,
    exec (.fhSplit b) s = .next { s with response := .ok (.slices out residue) }
    ∧ (∀ k (hk : k < out.length), out[k].offset = ((out.take k).map Region.length).sum)
    ∧ (∀ r ∈ out, r.length = 9 + length24 b r.offset)
    ∧ (out.map Region.length).sum + residue = b.length
    ∧ (residue < 9 ∨ residue < 9 + length24 b (b.length - residue))
    ∧ ∀ r ∈ out,
        exec (.fhParse ((b.drop r.offset).take r.length)) s
            ≠ .next { s with response := .raised (.malformedFrame .headerTruncated) }
        ∧ exec (.fhParse ((b.drop r.offset).take r.length)) s
            ≠ .next { s with response := .raised (.malformedFrame .bodyTruncated) })
  ∧ ∀ s : State, exec (.fhSplit []) s = .next { s with response := .ok (.slices [] 0) }

/-! ### The dynamic tables -/

/-- R153: DT.ADD puts the entry at the front and evicts from the back until the size is within the limit, which leaves the
longest prefix that fits; nothing else changes; DecoderFaulted on DEC after a fault. -/
def Obligations.DtAddKeepsNewest : Prop :=
  ∀ (t : TableId) (name value : Bytes) (s : State),
    ((t = .dec ∧ s.decFault = true) → exec (.dtAdd t name value) s = .refused .decoderFaulted)
    ∧ (¬ (t = .dec ∧ s.decFault = true) → ∃ kept,
      LongestWithin (s.table t).tableSize.toNat (⟨name, value⟩ :: (s.table t).ent) kept
      ∧ exec (.dtAdd t name value) s
          = .next { s.setTable t ⟨kept, (s.table t).tableSize⟩ with response := .ok .done })

/-- R154 (decision D47 on the refusal): DT.GET answers the entry at a 0-based position, refuses past the end, and refuses on
DEC after a fault. -/
def Obligations.DtGetReadsPosition : Prop :=
  ∀ (t : TableId) (p : Nat) (s : State),
    ((t = .dec ∧ s.decFault = true) → exec (.dtGet t p) s = .refused .decoderFaulted)
    ∧ (¬ (t = .dec ∧ s.decFault = true) →
        (∀ hp : p < (s.table t).ent.length,
          exec (.dtGet t p) s = .next { s with response := .ok (.entry (s.table t).ent[p]) })
        ∧ ((s.table t).ent.length ≤ p → exec (.dtGet t p) s = .refused .badOperand))

/-- R155 (decision D19): DT.SETSIZE writes the limit and evicts from the back until the size is within it, and refuses a
limit above DT_CAP_MAX; raising the limit evicts nothing and limit 0 empties the table; nothing else changes; DecoderFaulted
on DEC after a fault. -/
def Obligations.DtSetsizeEvicts : Prop :=
  ∀ (t : TableId) (limit : Nat) (s : State),
    ((t = .dec ∧ s.decFault = true) → exec (.dtSetsize t limit) s = .refused .decoderFaulted)
    ∧ (¬ (t = .dec ∧ s.decFault = true) →
      (limit ≤ Config.dtCapMax → ∃ kept size, size.toNat = limit ∧ LongestWithin limit (s.table t).ent kept
        ∧ (totalSize (s.table t).ent ≤ limit → kept = (s.table t).ent) ∧ (limit = 0 → kept = [])
        ∧ exec (.dtSetsize t limit) s = .next { s.setTable t ⟨kept, size⟩ with response := .ok .done })
      ∧ (Config.dtCapMax < limit → exec (.dtSetsize t limit) s = .refused .badOperand))

/-- R159 (the spec's inference from R153): after any sequence of DT.ADD on an empty table of constant limit the table is the
longest prefix of the added entries, newest first, whose total size fits; position 0 is the newest surviving entry. -/
def Obligations.EvictionKeepsNewestPrefix : Prop :=
  ∀ (t : TableId) (hs : List Header) (s : State), ¬ (t = .dec ∧ s.decFault = true) → (s.table t).ent = [] →
    ∃ u, addAll t hs s = .next u ∧ (u.table t).tableSize = (s.table t).tableSize
      ∧ LongestWithin (s.table t).tableSize.toNat hs.reverse (u.table t).ent
      ∧ ∀ h, (u.table t).ent.head? = some h → hs.getLast? = some h
          ∧ exec (.dtGet t 0) u = .next { u with response := .ok (.entry h) }

/-- R29, R304: exactly the instructions of the DEC unit refuse DecoderFaulted, and exactly while DEC_FAULT is set. -/
def Obligations.OnlyFaultedDecoderRefuses : Prop :=
  ∀ (i : Instr) (s : State),
    exec i s = .refused .decoderFaulted ↔ (s.decFault = true ∧ unitOf i = .dec)

/-! ### The header decoder -/

/-- R156, R195, R112: HD.INDEXED answers the entry its combined index names and changes nothing; an index that names nothing
is IndexOutOfRange and sets DEC_FAULT (the representation stands alone, at offset 0: log 3). -/
def Obligations.IndexedAnswersEntry : Prop :=
  ∀ (i : Nat) (s : State), s.decFault = false →
    (∀ h, entryAt s.dec i = some h → exec (.hdIndexed i) s = .next { s with response := .ok (.headers [h]) })
    ∧ ((i = 0 ∨ 61 + s.dec.ent.length < i) →
        exec (.hdIndexed i) s = .next (failedAtZero s .indexOutOfRange))
    ∧ ((1 ≤ i ∧ i ≤ 61 + s.dec.ent.length) → ∃ h, entryAt s.dec i = some h)

/-- R196: HD.LITINC answers its header and leaves what DT.ADD of it on DEC leaves. -/
def Obligations.LitincAddsHeader : Prop :=
  ∀ (name : NameRef) (value : WireString) (n v : Bytes) (s : State), s.decFault = false →
    NameIs s.dec name n → TextIs value v → ∃ u,
      exec (.dtAdd .dec n v) s = .next u
      ∧ exec (.hdLitinc name value) s = .next { u with response := .ok (.headers [⟨n, v⟩]) }

/-- R197: HD.SIZEUPD answers no header and leaves what DT.SETSIZE on DEC leaves (alone in a block: log 3). That every size up to
`2^32 - 1` is taken and none is SizeTooLarge turns on DT_CAP_MAX = `2^32 - 1` (R7, decision D19; PRESUMED, log 9). -/
def Obligations.SizeupdSetsLimit : Prop :=
  ∀ (size : Nat) (s : State), s.decFault = false → size ≤ 2 ^ 32 - 1 → ∃ u,
    exec (.dtSetsize .dec size) s = .next u
    ∧ exec (.hdSizeupd size) s = .next { u with response := .ok (.headers []) }

/-- R198, R199: HD.LITNO and HD.LITNEVER answer their header alike and change nothing. -/
def Obligations.UnindexedLiteralsAnswerHeader : Prop :=
  ∀ (name : NameRef) (value : WireString) (n v : Bytes) (s : State), s.decFault = false →
    NameIs s.dec name n → TextIs value v →
      exec (.hdLitno name value) s = .next { s with response := .ok (.headers [⟨n, v⟩]) }
      ∧ exec (.hdLitnever name value) s = .next { s with response := .ok (.headers [⟨n, v⟩]) }

/-- R192, R174, R298: the failures of the three literal forms, the name before the value (alone in a block, at offset 0:
log 3): a name index that names nothing, a name HuffDec rejects, a value HuffDec rejects. -/
def Obligations.LiteralFailuresInOrder : Prop :=
  ∀ (name : NameRef) (value : WireString) (s : State) (i : Instr), s.decFault = false →
    i ∈ [Instr.hdLitinc name value, Instr.hdLitno name value, Instr.hdLitnever name value] →
    (∀ k, name = .indexed k → entryAt s.dec k = none → exec i s = .next (failedAtZero s .indexOutOfRange))
    ∧ (∀ w, name = .inline w → TextInvalid w → exec i s = .next (failedAtZero s .huffmanInvalid))
    ∧ (∀ n, NameIs s.dec name n → TextInvalid value → exec i s = .next (failedAtZero s .huffmanInvalid))

/-- R190, R195: HD.DECODE of a block of indexed representations, each naming an entry, answers the entries in order and
changes nothing; the empty block answers the empty list. -/
def Obligations.DecodeOfIndexedBlock : Prop :=
  ∀ (is : List Nat) (hs : List Header) (s : State), s.decFault = false → (∀ i ∈ is, i ≤ 2 ^ 32 - 1) →
    is.map (entryAt s.dec) = hs.map some →
    exec (.hdDecode (is.flatMap fun i => intEnc i 7 0x80)) s = .next { s with response := .ok (.headers hs) }

/-- R190, R194, R302: what HD.DECODE can do: a list and no fault, or a DecodeError with its cause and the offset of a byte of
the block, DEC_FAULT set; either way nothing but DEC, DEC_FAULT and its cause changes, and the table stays within its limit. -/
def Obligations.DecodeOutcomes : Prop :=
  ∀ (b : Bytes) (s : State), s.decFault = false → ∃ t, exec (.hdDecode b) s = .next t
    ∧ t = { s with dec := t.dec, decFault := t.decFault, decFaultCause := t.decFaultCause, response := t.response }
    ∧ ((∃ hs, t.response = .ok (.headers hs) ∧ t.decFault = false ∧ t.decFaultCause = s.decFaultCause)
      ∨ ∃ c start, start < b.length ∧ c ≠ .sizeTooLarge ∧ t.response = .raised (.decodeError c start)
          ∧ t.decFault = true ∧ t.decFaultCause = ⟨c, start⟩)
    ∧ (totalSize s.dec.ent ≤ s.dec.tableSize.toNat → totalSize t.dec.ent ≤ t.dec.tableSize.toNat)

/-- R191, R194, R200: a block is interpreted in sequence. If the first part of a block decodes, the rest is decoded from the
state that part leaves: its list follows, or its failure stands at its offset after the first part, with the first part's
effects kept and its list discarded. -/
def Obligations.DecodeIsSequential : Prop :=
  ∀ (b₁ b₂ : Bytes) (s t : State) (hs₁ : List Header),
    exec (.hdDecode b₁) s = .next t → t.response = .ok (.headers hs₁) →
    (∀ u hs₂, exec (.hdDecode b₂) t = .next u → u.response = .ok (.headers hs₂) →
      exec (.hdDecode (b₁ ++ b₂)) s = .next { u with response := .ok (.headers (hs₁ ++ hs₂)) })
    ∧ (∀ u c start, exec (.hdDecode b₂) t = .next u → u.response = .raised (.decodeError c start) →
      exec (.hdDecode (b₁ ++ b₂)) s = .next { u with
        decFaultCause := ⟨c, b₁.length + start⟩,
        response := .raised (.decodeError c (b₁.length + start)) })

/-- R193: a representation that would answer, cut short anywhere after its first byte, is DecodeError(Truncated) at its start,
with no effect on the table. -/
def Obligations.TruncatedRepresentationFails : Prop :=
  ∀ (i : Instr) (s t : State) (hs : List Header) (n : Nat), i.wf = true → i.format = .hr →
    exec i s = .next t → t.response = .ok (.headers hs) → 0 < n → n < (encode i).length →
    exec (.hdDecode ((encode i).take n)) s = .next (failedAtZero s .truncated)

/-! ### The header encoder -/

/-- R212, in the case R210 and R211 select: an entry whose exact pair is in a table is sent as its least index, whatever its
IdxMode; one byte for an index of at most 126; nothing changes. The least index and byte equality are the spec's own choices
(R158, decisions D14, D15). -/
def Obligations.EncodeExactMatch : Prop :=
  ∀ (e : EncEntry) (x : Nat) (s : State),
    LeastIndex s.enc (fun h => h.name = e.name ∧ h.value = e.value) x →
    exec (.heEncode [e]) s = .next { s with response := .ok (.bytes (intEnc x 7 0x80)) }
    ∧ (x ≤ 126 → (intEnc x 7 0x80).length = 1)

/-- R211, R213, R214, R215: an entry without an exact match is sent as a literal, with the least name index or its name; the
pair is added, as DT.ADD on ENC adds it, exactly when the entry requests indexing.
The least name index (R158, decision D14), one HuffMode for both strings and raw on a tie (R216, R175, decision D16) and the bytes
of case 4 (decision D43) are the spec's own choices; a body above `2^INT_BITS - 1` octets is the model's, log 24. -/
def Obligations.EncodeLiteral : Prop :=
  ∀ (e : EncEntry) (s : State), NoIndex s.enc (fun h => h.name = e.name ∧ h.value = e.value) →
    (∀ n, LeastIndex s.enc (fun h => h.name = e.name) n →
      (e.idx = .index → ∃ u, exec (.dtAdd .enc e.name e.value) s = .next u
        ∧ exec (.heEncode [e]) s
            = .next { u with response := .ok (.bytes (intEnc n 6 0x40 ++ strEnc e.value e.huff)) })
      ∧ (e.idx = .noIndex → exec (.heEncode [e]) s
            = .next { s with response := .ok (.bytes (intEnc n 4 0x00 ++ strEnc e.value e.huff)) })
      ∧ (e.idx = .never → exec (.heEncode [e]) s
            = .next { s with response := .ok (.bytes (intEnc n 4 0x10 ++ strEnc e.value e.huff)) }))
    ∧ (NoIndex s.enc (fun h => h.name = e.name) →
      (e.idx = .index → ∃ u, exec (.dtAdd .enc e.name e.value) s = .next u
        ∧ exec (.heEncode [e]) s = .next { u with
            response := .ok (.bytes ([0x40] ++ strEnc e.name e.huff ++ strEnc e.value e.huff)) })
      ∧ (e.idx = .noIndex → exec (.heEncode [e]) s = .next { s with
            response := .ok (.bytes ([0x00] ++ strEnc e.name e.huff ++ strEnc e.value e.huff)) })
      ∧ (e.idx = .never → exec (.heEncode [e]) s = .next { s with
            response := .ok (.bytes ([0x10] ++ strEnc e.name e.huff ++ strEnc e.value e.huff)) }))

/-- R210: the encoder cannot fail (for a body above `2^INT_BITS - 1` octets that it answers is the model's choice: log 24); a list
is encoded entry by entry, each part on the table the part before it left; nothing but ENC.ent changes. -/
def Obligations.EncodeIsSequential : Prop :=
  ∀ (l₁ l₂ : List EncEntry) (s : State), ∃ ent₁ ent₂ o₁ o₂,
    exec (.heEncode l₁) s
      = .next { s with enc := ⟨ent₁, s.enc.tableSize⟩, response := .ok (.bytes o₁) }
    ∧ exec (.heEncode l₂) { s with enc := ⟨ent₁, s.enc.tableSize⟩ }
      = .next { s with enc := ⟨ent₂, s.enc.tableSize⟩, response := .ok (.bytes o₂) }
    ∧ exec (.heEncode (l₁ ++ l₂)) s
      = .next { s with enc := ⟨ent₂, s.enc.tableSize⟩, response := .ok (.bytes (o₁ ++ o₂)) }
    ∧ exec (.heEncode []) s = .next { s with response := .ok (.bytes []) }

/-- R218: from equal tables within their limit, under HuffRoundTrip and with every written string's length a prefix integer,
HD.DECODE of what HE.ENCODE emits answers the pairs in order and leaves the tables equal; nothing else changes. -/
def Obligations.CodecRoundTrip : Prop :=
  Config.HuffRoundTrip → ∀ (l : List EncEntry) (s : State),
    s.decFault = false → s.enc = s.dec → totalSize s.enc.ent ≤ s.enc.tableSize.toNat →
    (∀ e ∈ l, (wireForm e.name e.huff).octets.length ≤ 2 ^ 32 - 1
      ∧ (wireForm e.value e.huff).octets.length ≤ 2 ^ 32 - 1) →
    ∃ tbl b,
      exec (.heEncode l) s = .next { s with enc := tbl, response := .ok (.bytes b) }
      ∧ exec (.hdDecode b) { s with enc := tbl, response := .ok (.bytes b) }
        = .next { s with
            enc := tbl, dec := tbl, response := .ok (.headers (l.map fun e => ⟨e.name, e.value⟩)) }

/-- R219: a pair sent with INDEX whose entry fits the table costs one indexed representation the second time, one byte when
its index is at most 126. -/
def Obligations.SecondSendIsIndexed : Prop :=
  ∀ (e : EncEntry) (s t : State), e.idx = .index →
    e.name.length + e.value.length + 32 ≤ s.enc.tableSize.toNat → exec (.heEncode [e]) s = .next t →
    ∃ x, exec (.heEncode [e]) t = .next { t with response := .ok (.bytes (intEnc x 7 0x80)) }
      ∧ entryAt t.enc x = some ⟨e.name, e.value⟩
      ∧ (x ≤ 126 → (intEnc x 7 0x80).length = 1)

/-- R200, R217 (c), (e): HE.ENCODE never reads or writes DEC or its fault, and HD.DECODE never reads or writes ENC: their
results depend on their own table alone. -/
def Obligations.CodecHalvesIndependent : Prop :=
  (∀ (l : List EncEntry) (s s' : State), s.enc = s'.enc → ∃ tbl b,
    exec (.heEncode l) s = .next { s with enc := tbl, response := .ok (.bytes b) }
    ∧ exec (.heEncode l) s' = .next { s' with enc := tbl, response := .ok (.bytes b) })
  ∧ ∀ (b : Bytes) (s s' t : State), s.dec = s'.dec → s.decFault = s'.decFault →
    s.decFaultCause = s'.decFaultCause → exec (.hdDecode b) s = .next t →
    exec (.hdDecode b) s' = .next { s' with
      dec := t.dec, decFault := t.decFault, decFaultCause := t.decFaultCause, response := t.response }

/-! ### The window credit tracker -/

/-- R234 with the stream table unbounded (R7): WC.OPEN refuses id 0, leaves an open stream as it is, refuses an initial window
above 2147483647, and else creates the entry; no other stream and nothing else changes. -/
def Obligations.WcOpenCreatesStream : Prop :=
  ∀ (id : StreamId) (s : State),
    (id = 0 → exec (.wcOpen id) s = .refused .badOperand)
    ∧ (id ≠ 0 → ∀ e, s.stream id = some e → exec (.wcOpen id) s = .next { s with response := .ok .done })
    ∧ (id ≠ 0 → s.stream id = none → 2147483647 < effective s.cfg.initialWindowSize 65535 →
        exec (.wcOpen id) s = .refused .badOperand)
    ∧ (id ≠ 0 → s.stream id = none → effective s.cfg.initialWindowSize 65535 ≤ 2147483647 →
        ∃ (w : U32) (m : List (Nat × StreamEntry)), w.toInt = effective s.cfg.initialWindowSize 65535
          ∧ StreamsWith s id ⟨w, false, false, false⟩ m
          ∧ exec (.wcOpen id) s = .next { s with streams := m, response := .ok .done })

/-- R235: WC.UPDATE adds the delta to the connection window (id 0) or to the stream's; ProtocolError for an unknown stream;
refused, with no change, when the sum leaves the signed 32-bit range. -/
def Obligations.WcUpdateAddsCredit : Prop :=
  ∀ (id : StreamId) (delta : U32) (s : State),
    (id = 0 →
      (s.connWindow.toInt + delta.toInt < -2147483648 ∨ 2147483647 < s.connWindow.toInt + delta.toInt →
        exec (.wcUpdate id delta) s = .refused .windowOverflow)
      ∧ (-2147483648 ≤ s.connWindow.toInt + delta.toInt → s.connWindow.toInt + delta.toInt ≤ 2147483647 →
        ∃ w : U32, w.toInt = s.connWindow.toInt + delta.toInt
          ∧ exec (.wcUpdate id delta) s = .next { s with connWindow := w, response := .ok .done }))
    ∧ (id ≠ 0 →
      (s.stream id = none → exec (.wcUpdate id delta) s = .next { s with response := .raised (.protocolError id) })
      ∧ ∀ e, s.stream id = some e →
        (e.window.toInt + delta.toInt < -2147483648 ∨ 2147483647 < e.window.toInt + delta.toInt →
          exec (.wcUpdate id delta) s = .refused .windowOverflow)
        ∧ (-2147483648 ≤ e.window.toInt + delta.toInt → e.window.toInt + delta.toInt ≤ 2147483647 →
          ∃ (w : U32) (m : List (Nat × StreamEntry)), w.toInt = e.window.toInt + delta.toInt ∧ StreamsWith s id { e with window := w } m
            ∧ exec (.wcUpdate id delta) s = .next { s with streams := m, response := .ok .done }))

/-- R236, R237: WC.RST sets the stream's reset flag and nothing else, ProtocolError for an unknown stream, as id 0 is in a
well-formed table; WC.GOAWAY never fails, sets GOAWAY_SEEN and nothing else. -/
def Obligations.ResetAndGoawayMark : Prop :=
  ∀ (id : StreamId) (s : State),
    (s.stream id = none → exec (.wcRst id) s = .next { s with response := .raised (.protocolError id) })
    ∧ (id = 0 → StreamsWf s.streams → exec (.wcRst id) s = .next { s with response := .raised (.protocolError id) })
    ∧ (∀ e, s.stream id = some e → ∃ m, StreamsWith s id { e with reset := true } m
        ∧ exec (.wcRst id) s = .next { s with streams := m, response := .ok .done })
    ∧ exec .wcGoaway s = .next { s with goawaySeen := true, response := .ok .done }

/-- R238 (decision D30 on the order): WC.HDRS tests existence, StreamClosed, HeadersSent in that order, and else marks the
stream; nothing else changes. -/
def Obligations.WcHdrsMarksHeaders : Prop :=
  ∀ (id : StreamId) (endStream : Bool) (s : State),
    (s.stream id = none →
      exec (.wcHdrs id endStream) s = .next { s with response := .raised (.streamDoesntExist id) })
    ∧ ∀ e, s.stream id = some e →
      (e.selfEndStream = true →
        exec (.wcHdrs id endStream) s = .next { s with response := .raised (.streamClosed id) })
      ∧ (e.selfEndStream = false → e.selfEndHeaders = true →
        exec (.wcHdrs id endStream) s = .next { s with response := .raised (.headersSent id) })
      ∧ (e.selfEndStream = false → e.selfEndHeaders = false →
        ∃ m, StreamsWith s id { e with selfEndHeaders := true, selfEndStream := endStream } m
          ∧ exec (.wcHdrs id endStream) s = .next { s with streams := m, response := .ok .done })

/-- R232, R239 (decision D2): WC.CREDIT answers the least of the three windows and changes nothing; StreamDoesntExist without
an entry. -/
def Obligations.WcCreditReadsMinimum : Prop :=
  ∀ (id : StreamId) (s : State),
    (s.stream id = none →
      exec (.wcCredit id) s = .next { s with response := .raised (.streamDoesntExist id) })
    ∧ ∀ e, s.stream id = some e →
        exec (.wcCredit id) s = .next { s with response := .ok (.credit (creditOf s e)) }

/-! ### The send loop -/

/-- R245 (decisions D29, D32): SD.START: Busy, then the validations in order, the empty payload, and the start of a send;
nothing else changes. -/
def Obligations.SdStartValidates : Prop :=
  ∀ (k : Nat) (sid : StreamId) (n : Nat) (wantEnd : Bool) (s : State),
    let i := Instr.sdStart k sid n wantEnd
    let busy := (∀ c, s.sendCtx[k]? = some c → c.phase ≠ .idle)
      ∨ ∃ c ∈ s.sendCtx, c.phase ≠ .idle ∧ c.sid = sid
    (busy → exec i s = .refused .busy)
    ∧ (¬ busy → s.stream sid = none →
        exec i s = .next { s with response := .raised (.streamDoesntExist sid) })
    ∧ (¬ busy → ∀ e, s.stream sid = some e →
        (e.selfEndHeaders = false → exec i s = .next { s with response := .raised (.headersNotSent sid) })
        ∧ (e.selfEndHeaders = true → e.selfEndStream = true →
            exec i s = .next { s with response := .raised (.streamClosed sid) })
        ∧ (e.selfEndHeaders = true → e.selfEndStream = false →
            (n = 0 → wantEnd = true → ∃ m, StreamsWith s sid { e with selfEndStream := true } m
              ∧ exec i s = .next { s with streams := m, response := .ok (.send .done [⟨sid, 0, true⟩]) })
            ∧ (n = 0 → wantEnd = false → exec i s = .next { s with response := .ok (.send .done []) })
            ∧ (n ≠ 0 → exec i s = .next { s with
                sendCtx := s.sendCtx.set k ⟨.run, sid, n, wantEnd⟩,
                response := .ok (.send .started []) })))

/-- R247, R248, R249: SD.STEP: BadPhase unless RUN; no credit blocks; a payload within the credit is the final frame; else the
whole credit goes out, and the context blocks exactly when a window is then exhausted; both windows are charged.
That no credit blocks (R249, decision D28) and that the final frame is charged (R248, decision D27, against DNH's text: C3) are
the spec's own choices; that the fields of a context back in IDLE keep their values is the model's, log 25. -/
def Obligations.SdStepSendsCredit : Prop :=
  ∀ (k : Nat) (c : SendCtx) (s : State), s.sendCtx[k]? = some c →
    (c.phase ≠ .run → exec (.sdStep k) s = .refused .badPhase)
    ∧ (c.phase = .run → ∀ e, s.stream c.sid = some e →
      (creditOf s e ≤ 0 → exec (.sdStep k) s = .next { s with
          sendCtx := s.sendCtx.set k { c with phase := .blocked }, response := .ok (.send .blocked []) })
      ∧ (0 < creditOf s e → (c.remaining : Int) ≤ creditOf s e → ∃ (w v : U32) (m : List (Nat × StreamEntry)),
          w.toInt = s.connWindow.toInt - c.remaining ∧ v.toInt = e.window.toInt - c.remaining
          ∧ StreamsWith s c.sid
              { e with window := v, selfEndStream := if c.wantEnd = true then true else e.selfEndStream } m
          ∧ exec (.sdStep k) s = .next { s with
              connWindow := w, streams := m, sendCtx := s.sendCtx.set k { c with phase := .idle },
              response := .ok (.send .done [⟨c.sid, c.remaining, c.wantEnd⟩]) })
      ∧ (0 < creditOf s e → creditOf s e < c.remaining → ∃ (w v : U32) (m : List (Nat × StreamEntry)) (n : Nat),
          (n : Int) = creditOf s e
          ∧ w.toInt = s.connWindow.toInt - n ∧ v.toInt = e.window.toInt - n
          ∧ StreamsWith s c.sid { e with window := v } m
          ∧ ((w.toInt ≤ 0 ∨ v.toInt ≤ 0) → exec (.sdStep k) s = .next { s with
              connWindow := w, streams := m,
              sendCtx := s.sendCtx.set k { c with phase := .blocked, remaining := c.remaining - n },
              response := .ok (.send .blocked [⟨c.sid, n, false⟩]) })
          ∧ (0 < w.toInt → 0 < v.toInt → exec (.sdStep k) s = .next { s with
              connWindow := w, streams := m,
              sendCtx := s.sendCtx.set k { c with phase := .run, remaining := c.remaining - n },
              response := .ok (.send .continues [⟨c.sid, n, false⟩]) })))

/-- R251, R252: SD.POLL: BadPhase unless BLOCKED; then reset, GOAWAY and credit in that order; a raise returns the context to
IDLE; nothing else changes. The order is the spec's own choice (R252, R297, decision D31); that the fields of a context back in
IDLE keep their values is the model's, log 25. -/
def Obligations.SdPollRechecks : Prop :=
  ∀ (k : Nat) (c : SendCtx) (s : State), s.sendCtx[k]? = some c →
    (c.phase ≠ .blocked → exec (.sdPoll k) s = .refused .badPhase)
    ∧ (c.phase = .blocked → ∀ e, s.stream c.sid = some e →
      (e.reset = true → exec (.sdPoll k) s = .next { s with
          sendCtx := s.sendCtx.set k { c with phase := .idle }, response := .raised (.streamClosed c.sid) })
      ∧ (e.reset = false → s.goawaySeen = true → exec (.sdPoll k) s = .next { s with
          sendCtx := s.sendCtx.set k { c with phase := .idle }, response := .raised .connectionClosed })
      ∧ (e.reset = false → s.goawaySeen = false → 0 < creditOf s e → exec (.sdPoll k) s = .next { s with
          sendCtx := s.sendCtx.set k { c with phase := .run }, response := .ok (.send .resumed []) })
      ∧ (e.reset = false → s.goawaySeen = false → creditOf s e ≤ 0 →
          exec (.sdPoll k) s = .next { s with response := .ok (.send .stillBlocked []) }))

/-- R253: every DATA frame with bytes comes from an SD.STEP, is within the frame bound and both windows, and charges both
windows by exactly its length. -/
def Obligations.FramesWithinWindows : Prop :=
  ∀ (i : Instr) (s t : State) (st : SendStatus) (frames : List DataFrameDesc) (f : DataFrameDesc),
    exec i s = .next t → t.response = .ok (.send st frames) → f ∈ frames → 0 < f.len →
    ∃ k e e', i = .sdStep k ∧ frames = [f] ∧ s.stream f.streamId = some e ∧ t.stream f.streamId = some e'
      ∧ f.len ≤ effective s.cfg.maxFrameSize 16384
      ∧ (f.len : Int) ≤ s.connWindow.toInt ∧ (f.len : Int) ≤ e.window.toInt
      ∧ t.connWindow.toInt = s.connWindow.toInt - f.len ∧ e'.window.toInt = e.window.toInt - f.len

/-- R253: over any run of operations `CONN_WINDOW` is its first value plus `Σ delta(0)` less `Σ len`. -/
def Obligations.ConnectionWindowBalance : Prop :=
  ∀ (is : List Instr) (s t : State) (added sent : Int),
    connBalance is s = some (t, added, sent) → t.connWindow.toInt = s.connWindow.toInt + added - sent

/-- R253, R254 (b): over any run of operations the window of an open stream is its first value plus `Σ delta(id)` less
`Σ len(id)`: no other operation, CFG.APPLY least of all, changes it. -/
def Obligations.StreamWindowBalance : Prop :=
  ∀ (id : StreamId) (is : List Instr) (s t : State) (e : StreamEntry) (added sent : Int),
    id ≠ 0 → s.stream id = some e → streamBalance id is s = some (t, added, sent) →
    ∃ e', t.stream id = some e' ∧ e'.window.toInt = e.window.toInt + added - sent

/-- R250: a context in phase RUN with an open stream leaves RUN after at most `remaining` steps, each of which answers. -/
def Obligations.SendLeavesRun : Prop :=
  ∀ (k : Nat) (c : SendCtx) (s : State), s.sendCtx[k]? = some c → c.phase = .run → 0 < c.remaining →
    s.stream c.sid ≠ none →
    ∃ m ≤ c.remaining, ∃ u c', stepTimes m k s = .next u ∧ u.sendCtx[k]? = some c' ∧ c'.phase ≠ .run

/-! ### Configuration -/

/-- R270, R271: CFG.APPLY overwrites exactly the fields present in the update and changes nothing outside the bank. -/
def Obligations.CfgApplyOverwritesPresent : Prop :=
  ∀ (u : SettingsUpdate) (s : State),
    let field := fun (r : Setting) (v : Option U32) => v.elim r fun x => Setting.mk true x
    exec (.cfgApply u) s = .next { s with
      cfg := ⟨field s.cfg.headerTableSize u.headerTableSize, field s.cfg.enablePush u.enablePush,
        field s.cfg.maxConcurrentStreams u.maxConcurrentStreams,
        field s.cfg.initialWindowSize u.initialWindowSize, field s.cfg.maxFrameSize u.maxFrameSize,
        field s.cfg.maxHeaderListSize u.maxHeaderListSize⟩,
      response := .ok .done }

/-! ### The whole machine -/

/-- R53, R320 (decisions D12, D20, D23, D32): the values the spec gives for reset; that there is a context at all is R7's. -/
def Obligations.ResetValues : Prop :=
  (State.reset.cfg.headerTableSize.present = false ∧ State.reset.cfg.enablePush.present = false
    ∧ State.reset.cfg.maxConcurrentStreams.present = false ∧ State.reset.cfg.initialWindowSize.present = false
    ∧ State.reset.cfg.maxFrameSize.present = false ∧ State.reset.cfg.maxHeaderListSize.present = false)
  ∧ State.reset.enc = ⟨[], 4096⟩ ∧ State.reset.dec = ⟨[], 4096⟩
  ∧ State.reset.decFault = false ∧ State.reset.connWindow.toInt = 65535 ∧ State.reset.goawaySeen = false
  ∧ (∀ id, State.reset.stream id = none)
  ∧ State.reset.sendCtx ≠ [] ∧ ∀ c ∈ State.reset.sendCtx, c.phase = .idle

/-- R44, R48 and the canonical form of STREAMS hold at reset. -/
def Obligations.ResetIsLegal : Prop := State.reset.Inv

/-- R44, R48: every step keeps the table bounds, the form of STREAMS and the legality of the send contexts. -/
def Obligations.StepKeepsInvariants : Prop :=
  ∀ s t : State, s.Inv → step s = .next t → t.Inv

/-- R48: in a legal state no step finds a context without its stream, so the block never stops with a fault. -/
def Obligations.LegalStateNeverFaults : Prop :=
  ∀ (s : State) (f : Fault), s.Inv → step s ≠ .fault f

/-- R27, R28, R29, R30, R45, R272: what is never cleared. A stream entry stays and its flags stay set, GOAWAY_SEEN and
DEC_FAULT with its cause stay, a setting once present stays present, and the number of contexts stays. -/
def Obligations.StickyStateStays : Prop :=
  ∀ (i : Instr) (s t : State), exec i s = .next t →
    (∀ id e, s.stream id = some e → ∃ e', t.stream id = some e' ∧ (e.reset = true → e'.reset = true)
      ∧ (e.selfEndHeaders = true → e'.selfEndHeaders = true) ∧ (e.selfEndStream = true → e'.selfEndStream = true))
    ∧ (s.goawaySeen = true → t.goawaySeen = true)
    ∧ (s.decFault = true → t.decFault = true ∧ t.decFaultCause = s.decFaultCause)
    ∧ (s.cfg.maxFrameSize.present = true → t.cfg.maxFrameSize.present = true)
    ∧ (s.cfg.initialWindowSize.present = true → t.cfg.initialWindowSize.present = true)
    ∧ (s.cfg.headerTableSize.present = true → t.cfg.headerTableSize.present = true)
    ∧ (s.cfg.enablePush.present = true → t.cfg.enablePush.present = true)
    ∧ (s.cfg.maxConcurrentStreams.present = true → t.cfg.maxConcurrentStreams.present = true)
    ∧ (s.cfg.maxHeaderListSize.present = true → t.cfg.maxHeaderListSize.present = true)
    ∧ t.sendCtx.length = s.sendCtx.length

/-- R301: a raise leaves all state as it was, with two exceptions: HD.DECODE and its representations keep the table effects of
what completed and set DEC_FAULT with its cause; SD.POLL returns its context to IDLE,
whose other fields keep their values (log 25). -/
def Obligations.RaiseLeavesStateUnchanged : Prop :=
  ∀ (i : Instr) (s t : State) (e : Error), exec i s = .next t → t.response = .raised e →
    t = { s with response := .raised e }
    ∨ (interpretsBlock i = true ∧ t = { s with
        dec := t.dec, decFault := true, decFaultCause := t.decFaultCause, response := .raised e })
    ∨ ∃ k c, i = .sdPoll k ∧ s.sendCtx[k]? = some c
      ∧ t = { s with sendCtx := s.sendCtx.set k { c with phase := .idle }, response := .raised e }

/-- R60, R73: no instruction reaches another unit's state. CFG is written by CFG.APPLY alone, ENC by the ENC unit, DEC and
its fault by the DEC unit, the windows, streams, contexts and GOAWAY_SEEN by the WCT unit; no instruction touches the queue. -/
def Obligations.UnitsKeepApart : Prop :=
  ∀ (i : Instr) (s t : State), exec i s = .next t →
    (unitOf i ≠ .cfg → t.cfg = s.cfg)
    ∧ (unitOf i ≠ .enc → t.enc = s.enc)
    ∧ (unitOf i ≠ .dec → t.dec = s.dec)
    ∧ (interpretsBlock i = false → t.decFault = s.decFault ∧ t.decFaultCause = s.decFaultCause)
    ∧ (unitOf i ≠ .wct → t.connWindow = s.connWindow ∧ t.goawaySeen = s.goawaySeen ∧ t.streams = s.streams
        ∧ t.sendCtx = s.sendCtx)
    ∧ t.inbox = s.inbox
end

