-- ==== Sys2Proof/Laws/State.lean ====
section
/-!
SUPPORT. One lemma per field per update of the state, each true by unfolding the update, so that no proof unfolds a record
update again; the derived updates and the views of the state follow.
-/

namespace Sys2Proof.Machine

/-! ### setCfg -/

@[simp] theorem State.setCfg_cfg (s : State) (c : CfgBank) : (s.setCfg c).cfg = c := rfl
@[simp] theorem State.setCfg_enc (s : State) (c : CfgBank) : (s.setCfg c).enc = s.enc := rfl
@[simp] theorem State.setCfg_dec (s : State) (c : CfgBank) : (s.setCfg c).dec = s.dec := rfl
@[simp] theorem State.setCfg_decFault (s : State) (c : CfgBank) : (s.setCfg c).decFault = s.decFault := rfl
@[simp] theorem State.setCfg_decFaultCause (s : State) (c : CfgBank) : (s.setCfg c).decFaultCause = s.decFaultCause := rfl
@[simp] theorem State.setCfg_connWindow (s : State) (c : CfgBank) : (s.setCfg c).connWindow = s.connWindow := rfl
@[simp] theorem State.setCfg_goawaySeen (s : State) (c : CfgBank) : (s.setCfg c).goawaySeen = s.goawaySeen := rfl
@[simp] theorem State.setCfg_streams (s : State) (c : CfgBank) : (s.setCfg c).streams = s.streams := rfl
@[simp] theorem State.setCfg_sendCtx (s : State) (c : CfgBank) : (s.setCfg c).sendCtx = s.sendCtx := rfl
@[simp] theorem State.setCfg_inbox (s : State) (c : CfgBank) : (s.setCfg c).inbox = s.inbox := rfl
@[simp] theorem State.setCfg_response (s : State) (c : CfgBank) : (s.setCfg c).response = s.response := rfl

/-! ### setConnWindow -/

@[simp] theorem State.setConnWindow_cfg (s : State) (w : U32) : (s.setConnWindow w).cfg = s.cfg := rfl
@[simp] theorem State.setConnWindow_enc (s : State) (w : U32) : (s.setConnWindow w).enc = s.enc := rfl
@[simp] theorem State.setConnWindow_dec (s : State) (w : U32) : (s.setConnWindow w).dec = s.dec := rfl
@[simp] theorem State.setConnWindow_decFault (s : State) (w : U32) : (s.setConnWindow w).decFault = s.decFault := rfl
@[simp] theorem State.setConnWindow_decFaultCause (s : State) (w : U32) : (s.setConnWindow w).decFaultCause = s.decFaultCause := rfl
@[simp] theorem State.setConnWindow_connWindow (s : State) (w : U32) : (s.setConnWindow w).connWindow = w := rfl
@[simp] theorem State.setConnWindow_goawaySeen (s : State) (w : U32) : (s.setConnWindow w).goawaySeen = s.goawaySeen := rfl
@[simp] theorem State.setConnWindow_streams (s : State) (w : U32) : (s.setConnWindow w).streams = s.streams := rfl
@[simp] theorem State.setConnWindow_sendCtx (s : State) (w : U32) : (s.setConnWindow w).sendCtx = s.sendCtx := rfl
@[simp] theorem State.setConnWindow_inbox (s : State) (w : U32) : (s.setConnWindow w).inbox = s.inbox := rfl
@[simp] theorem State.setConnWindow_response (s : State) (w : U32) : (s.setConnWindow w).response = s.response := rfl

/-! ### setStreams -/

@[simp] theorem State.setStreams_cfg (s : State) (m : List (Nat × StreamEntry)) : (s.setStreams m).cfg = s.cfg := rfl
@[simp] theorem State.setStreams_enc (s : State) (m : List (Nat × StreamEntry)) : (s.setStreams m).enc = s.enc := rfl
@[simp] theorem State.setStreams_dec (s : State) (m : List (Nat × StreamEntry)) : (s.setStreams m).dec = s.dec := rfl
@[simp] theorem State.setStreams_decFault (s : State) (m : List (Nat × StreamEntry)) : (s.setStreams m).decFault = s.decFault := rfl
@[simp] theorem State.setStreams_decFaultCause (s : State) (m : List (Nat × StreamEntry)) : (s.setStreams m).decFaultCause = s.decFaultCause := rfl
@[simp] theorem State.setStreams_connWindow (s : State) (m : List (Nat × StreamEntry)) : (s.setStreams m).connWindow = s.connWindow := rfl
@[simp] theorem State.setStreams_goawaySeen (s : State) (m : List (Nat × StreamEntry)) : (s.setStreams m).goawaySeen = s.goawaySeen := rfl
@[simp] theorem State.setStreams_streams (s : State) (m : List (Nat × StreamEntry)) : (s.setStreams m).streams = m := rfl
@[simp] theorem State.setStreams_sendCtx (s : State) (m : List (Nat × StreamEntry)) : (s.setStreams m).sendCtx = s.sendCtx := rfl
@[simp] theorem State.setStreams_inbox (s : State) (m : List (Nat × StreamEntry)) : (s.setStreams m).inbox = s.inbox := rfl
@[simp] theorem State.setStreams_response (s : State) (m : List (Nat × StreamEntry)) : (s.setStreams m).response = s.response := rfl

/-! ### setSendCtx -/

@[simp] theorem State.setSendCtx_cfg (s : State) (cs : List SendCtx) : (s.setSendCtx cs).cfg = s.cfg := rfl
@[simp] theorem State.setSendCtx_enc (s : State) (cs : List SendCtx) : (s.setSendCtx cs).enc = s.enc := rfl
@[simp] theorem State.setSendCtx_dec (s : State) (cs : List SendCtx) : (s.setSendCtx cs).dec = s.dec := rfl
@[simp] theorem State.setSendCtx_decFault (s : State) (cs : List SendCtx) : (s.setSendCtx cs).decFault = s.decFault := rfl
@[simp] theorem State.setSendCtx_decFaultCause (s : State) (cs : List SendCtx) : (s.setSendCtx cs).decFaultCause = s.decFaultCause := rfl
@[simp] theorem State.setSendCtx_connWindow (s : State) (cs : List SendCtx) : (s.setSendCtx cs).connWindow = s.connWindow := rfl
@[simp] theorem State.setSendCtx_goawaySeen (s : State) (cs : List SendCtx) : (s.setSendCtx cs).goawaySeen = s.goawaySeen := rfl
@[simp] theorem State.setSendCtx_streams (s : State) (cs : List SendCtx) : (s.setSendCtx cs).streams = s.streams := rfl
@[simp] theorem State.setSendCtx_sendCtx (s : State) (cs : List SendCtx) : (s.setSendCtx cs).sendCtx = cs := rfl
@[simp] theorem State.setSendCtx_inbox (s : State) (cs : List SendCtx) : (s.setSendCtx cs).inbox = s.inbox := rfl
@[simp] theorem State.setSendCtx_response (s : State) (cs : List SendCtx) : (s.setSendCtx cs).response = s.response := rfl

/-! ### setGoawaySeen -/

@[simp] theorem State.setGoawaySeen_cfg (s : State) (b : Bool) : (s.setGoawaySeen b).cfg = s.cfg := rfl
@[simp] theorem State.setGoawaySeen_enc (s : State) (b : Bool) : (s.setGoawaySeen b).enc = s.enc := rfl
@[simp] theorem State.setGoawaySeen_dec (s : State) (b : Bool) : (s.setGoawaySeen b).dec = s.dec := rfl
@[simp] theorem State.setGoawaySeen_decFault (s : State) (b : Bool) : (s.setGoawaySeen b).decFault = s.decFault := rfl
@[simp] theorem State.setGoawaySeen_decFaultCause (s : State) (b : Bool) : (s.setGoawaySeen b).decFaultCause = s.decFaultCause := rfl
@[simp] theorem State.setGoawaySeen_connWindow (s : State) (b : Bool) : (s.setGoawaySeen b).connWindow = s.connWindow := rfl
@[simp] theorem State.setGoawaySeen_goawaySeen (s : State) (b : Bool) : (s.setGoawaySeen b).goawaySeen = b := rfl
@[simp] theorem State.setGoawaySeen_streams (s : State) (b : Bool) : (s.setGoawaySeen b).streams = s.streams := rfl
@[simp] theorem State.setGoawaySeen_sendCtx (s : State) (b : Bool) : (s.setGoawaySeen b).sendCtx = s.sendCtx := rfl
@[simp] theorem State.setGoawaySeen_inbox (s : State) (b : Bool) : (s.setGoawaySeen b).inbox = s.inbox := rfl
@[simp] theorem State.setGoawaySeen_response (s : State) (b : Bool) : (s.setGoawaySeen b).response = s.response := rfl

/-! ### setDecFault -/

@[simp] theorem State.setDecFault_cfg (s : State) (b : Bool) (c : FaultCause) : (s.setDecFault b c).cfg = s.cfg := rfl
@[simp] theorem State.setDecFault_enc (s : State) (b : Bool) (c : FaultCause) : (s.setDecFault b c).enc = s.enc := rfl
@[simp] theorem State.setDecFault_dec (s : State) (b : Bool) (c : FaultCause) : (s.setDecFault b c).dec = s.dec := rfl
@[simp] theorem State.setDecFault_decFault (s : State) (b : Bool) (c : FaultCause) : (s.setDecFault b c).decFault = b := rfl
@[simp] theorem State.setDecFault_decFaultCause (s : State) (b : Bool) (c : FaultCause) : (s.setDecFault b c).decFaultCause = c := rfl
@[simp] theorem State.setDecFault_connWindow (s : State) (b : Bool) (c : FaultCause) : (s.setDecFault b c).connWindow = s.connWindow := rfl
@[simp] theorem State.setDecFault_goawaySeen (s : State) (b : Bool) (c : FaultCause) : (s.setDecFault b c).goawaySeen = s.goawaySeen := rfl
@[simp] theorem State.setDecFault_streams (s : State) (b : Bool) (c : FaultCause) : (s.setDecFault b c).streams = s.streams := rfl
@[simp] theorem State.setDecFault_sendCtx (s : State) (b : Bool) (c : FaultCause) : (s.setDecFault b c).sendCtx = s.sendCtx := rfl
@[simp] theorem State.setDecFault_inbox (s : State) (b : Bool) (c : FaultCause) : (s.setDecFault b c).inbox = s.inbox := rfl
@[simp] theorem State.setDecFault_response (s : State) (b : Bool) (c : FaultCause) : (s.setDecFault b c).response = s.response := rfl

/-! ### setInbox -/

@[simp] theorem State.setInbox_cfg (s : State) (q : List Issue) : (s.setInbox q).cfg = s.cfg := rfl
@[simp] theorem State.setInbox_enc (s : State) (q : List Issue) : (s.setInbox q).enc = s.enc := rfl
@[simp] theorem State.setInbox_dec (s : State) (q : List Issue) : (s.setInbox q).dec = s.dec := rfl
@[simp] theorem State.setInbox_decFault (s : State) (q : List Issue) : (s.setInbox q).decFault = s.decFault := rfl
@[simp] theorem State.setInbox_decFaultCause (s : State) (q : List Issue) : (s.setInbox q).decFaultCause = s.decFaultCause := rfl
@[simp] theorem State.setInbox_connWindow (s : State) (q : List Issue) : (s.setInbox q).connWindow = s.connWindow := rfl
@[simp] theorem State.setInbox_goawaySeen (s : State) (q : List Issue) : (s.setInbox q).goawaySeen = s.goawaySeen := rfl
@[simp] theorem State.setInbox_streams (s : State) (q : List Issue) : (s.setInbox q).streams = s.streams := rfl
@[simp] theorem State.setInbox_sendCtx (s : State) (q : List Issue) : (s.setInbox q).sendCtx = s.sendCtx := rfl
@[simp] theorem State.setInbox_inbox (s : State) (q : List Issue) : (s.setInbox q).inbox = q := rfl
@[simp] theorem State.setInbox_response (s : State) (q : List Issue) : (s.setInbox q).response = s.response := rfl

/-! ### setResponse -/

@[simp] theorem State.setResponse_cfg (s : State) (r : Response) : (s.setResponse r).cfg = s.cfg := rfl
@[simp] theorem State.setResponse_enc (s : State) (r : Response) : (s.setResponse r).enc = s.enc := rfl
@[simp] theorem State.setResponse_dec (s : State) (r : Response) : (s.setResponse r).dec = s.dec := rfl
@[simp] theorem State.setResponse_decFault (s : State) (r : Response) : (s.setResponse r).decFault = s.decFault := rfl
@[simp] theorem State.setResponse_decFaultCause (s : State) (r : Response) : (s.setResponse r).decFaultCause = s.decFaultCause := rfl
@[simp] theorem State.setResponse_connWindow (s : State) (r : Response) : (s.setResponse r).connWindow = s.connWindow := rfl
@[simp] theorem State.setResponse_goawaySeen (s : State) (r : Response) : (s.setResponse r).goawaySeen = s.goawaySeen := rfl
@[simp] theorem State.setResponse_streams (s : State) (r : Response) : (s.setResponse r).streams = s.streams := rfl
@[simp] theorem State.setResponse_sendCtx (s : State) (r : Response) : (s.setResponse r).sendCtx = s.sendCtx := rfl
@[simp] theorem State.setResponse_inbox (s : State) (r : Response) : (s.setResponse r).inbox = s.inbox := rfl
@[simp] theorem State.setResponse_response (s : State) (r : Response) : (s.setResponse r).response = r := rfl

/-! ### setStream -/

@[simp] theorem State.setStream_cfg (s : State) (id : StreamId) (e : StreamEntry) : (s.setStream id e).cfg = s.cfg := rfl
@[simp] theorem State.setStream_enc (s : State) (id : StreamId) (e : StreamEntry) : (s.setStream id e).enc = s.enc := rfl
@[simp] theorem State.setStream_dec (s : State) (id : StreamId) (e : StreamEntry) : (s.setStream id e).dec = s.dec := rfl
@[simp] theorem State.setStream_decFault (s : State) (id : StreamId) (e : StreamEntry) : (s.setStream id e).decFault = s.decFault := rfl
@[simp] theorem State.setStream_decFaultCause (s : State) (id : StreamId) (e : StreamEntry) : (s.setStream id e).decFaultCause = s.decFaultCause := rfl
@[simp] theorem State.setStream_connWindow (s : State) (id : StreamId) (e : StreamEntry) : (s.setStream id e).connWindow = s.connWindow := rfl
@[simp] theorem State.setStream_goawaySeen (s : State) (id : StreamId) (e : StreamEntry) : (s.setStream id e).goawaySeen = s.goawaySeen := rfl
@[simp] theorem State.setStream_streams (s : State) (id : StreamId) (e : StreamEntry) : (s.setStream id e).streams = streamInsert s.streams id e := rfl
@[simp] theorem State.setStream_sendCtx (s : State) (id : StreamId) (e : StreamEntry) : (s.setStream id e).sendCtx = s.sendCtx := rfl
@[simp] theorem State.setStream_inbox (s : State) (id : StreamId) (e : StreamEntry) : (s.setStream id e).inbox = s.inbox := rfl
@[simp] theorem State.setStream_response (s : State) (id : StreamId) (e : StreamEntry) : (s.setStream id e).response = s.response := rfl

/-! ### setCtx -/

@[simp] theorem State.setCtx_cfg (s : State) (k : Nat) (c : SendCtx) : (s.setCtx k c).cfg = s.cfg := rfl
@[simp] theorem State.setCtx_enc (s : State) (k : Nat) (c : SendCtx) : (s.setCtx k c).enc = s.enc := rfl
@[simp] theorem State.setCtx_dec (s : State) (k : Nat) (c : SendCtx) : (s.setCtx k c).dec = s.dec := rfl
@[simp] theorem State.setCtx_decFault (s : State) (k : Nat) (c : SendCtx) : (s.setCtx k c).decFault = s.decFault := rfl
@[simp] theorem State.setCtx_decFaultCause (s : State) (k : Nat) (c : SendCtx) : (s.setCtx k c).decFaultCause = s.decFaultCause := rfl
@[simp] theorem State.setCtx_connWindow (s : State) (k : Nat) (c : SendCtx) : (s.setCtx k c).connWindow = s.connWindow := rfl
@[simp] theorem State.setCtx_goawaySeen (s : State) (k : Nat) (c : SendCtx) : (s.setCtx k c).goawaySeen = s.goawaySeen := rfl
@[simp] theorem State.setCtx_streams (s : State) (k : Nat) (c : SendCtx) : (s.setCtx k c).streams = s.streams := rfl
@[simp] theorem State.setCtx_sendCtx (s : State) (k : Nat) (c : SendCtx) : (s.setCtx k c).sendCtx = s.sendCtx.set k c := rfl
@[simp] theorem State.setCtx_inbox (s : State) (k : Nat) (c : SendCtx) : (s.setCtx k c).inbox = s.inbox := rfl
@[simp] theorem State.setCtx_response (s : State) (k : Nat) (c : SendCtx) : (s.setCtx k c).response = s.response := rfl

/-! ### setTable -/

@[simp] theorem State.setTable_cfg (s : State) (t : TableId) (d : DynTable) : (s.setTable t d).cfg = s.cfg := by
  cases t <;> rfl
@[simp] theorem State.setTable_decFault (s : State) (t : TableId) (d : DynTable) : (s.setTable t d).decFault = s.decFault := by
  cases t <;> rfl
@[simp] theorem State.setTable_decFaultCause (s : State) (t : TableId) (d : DynTable) : (s.setTable t d).decFaultCause = s.decFaultCause := by
  cases t <;> rfl
@[simp] theorem State.setTable_connWindow (s : State) (t : TableId) (d : DynTable) : (s.setTable t d).connWindow = s.connWindow := by
  cases t <;> rfl
@[simp] theorem State.setTable_goawaySeen (s : State) (t : TableId) (d : DynTable) : (s.setTable t d).goawaySeen = s.goawaySeen := by
  cases t <;> rfl
@[simp] theorem State.setTable_streams (s : State) (t : TableId) (d : DynTable) : (s.setTable t d).streams = s.streams := by
  cases t <;> rfl
@[simp] theorem State.setTable_sendCtx (s : State) (t : TableId) (d : DynTable) : (s.setTable t d).sendCtx = s.sendCtx := by
  cases t <;> rfl
@[simp] theorem State.setTable_inbox (s : State) (t : TableId) (d : DynTable) : (s.setTable t d).inbox = s.inbox := by
  cases t <;> rfl
@[simp] theorem State.setTable_response (s : State) (t : TableId) (d : DynTable) : (s.setTable t d).response = s.response := by
  cases t <;> rfl
@[simp] theorem State.setTable_enc_enc (s : State) (d : DynTable) : (s.setTable .enc d).enc = d := rfl
@[simp] theorem State.setTable_enc_dec (s : State) (d : DynTable) : (s.setTable .enc d).dec = s.dec := rfl
@[simp] theorem State.setTable_dec_dec (s : State) (d : DynTable) : (s.setTable .dec d).dec = d := rfl
@[simp] theorem State.setTable_dec_enc (s : State) (d : DynTable) : (s.setTable .dec d).enc = s.enc := rfl
@[simp] theorem State.table_enc (s : State) : s.table .enc = s.enc := rfl
@[simp] theorem State.table_dec (s : State) : s.table .dec = s.dec := rfl

/-- Reading back the table written. -/
@[simp] theorem State.table_setTable (s : State) (t : TableId) (d : DynTable) : (s.setTable t d).table t = d := by
  cases t <;> rfl

/-- Writing a table as it is changes nothing. -/
@[simp] theorem State.setTable_table (s : State) (t : TableId) : s.setTable t (s.table t) = s := by
  cases t <;> rfl

/-! ### Derived updates and views -/

@[simp] theorem State.markGoaway_eq (s : State) : s.markGoaway = s.setGoawaySeen true := rfl
@[simp] theorem State.markDecFault_eq (s : State) (c : DecodeCause) (start : Nat) :
    s.markDecFault c start = s.setDecFault true ⟨c, start⟩ := rfl
@[simp] theorem State.stream_setResponse (s : State) (r : Response) (id : StreamId) :
    (s.setResponse r).stream id = s.stream id := rfl
@[simp] theorem State.stream_setConnWindow (s : State) (w : U32) (id : StreamId) :
    (s.setConnWindow w).stream id = s.stream id := rfl
@[simp] theorem State.stream_setSendCtx (s : State) (cs : List SendCtx) (id : StreamId) :
    (s.setSendCtx cs).stream id = s.stream id := rfl
@[simp] theorem State.stream_setCtx (s : State) (k : Nat) (c : SendCtx) (id : StreamId) :
    (s.setCtx k c).stream id = s.stream id := rfl
@[simp] theorem State.stream_setInbox (s : State) (q : List Issue) (id : StreamId) :
    (s.setInbox q).stream id = s.stream id := rfl
@[simp] theorem State.stream_setCfg (s : State) (c : CfgBank) (id : StreamId) :
    (s.setCfg c).stream id = s.stream id := rfl
@[simp] theorem State.stream_setGoawaySeen (s : State) (b : Bool) (id : StreamId) :
    (s.setGoawaySeen b).stream id = s.stream id := rfl
@[simp] theorem State.stream_setTable (s : State) (t : TableId) (d : DynTable) (id : StreamId) :
    (s.setTable t d).stream id = s.stream id := by cases t <;> rfl
@[simp] theorem State.stream_setDecFault (s : State) (b : Bool) (c : FaultCause) (id : StreamId) :
    (s.setDecFault b c).stream id = s.stream id := rfl

/-- `charge` in its parts. -/
@[simp] theorem State.charge_eq (s : State) (sid : StreamId) (e : StreamEntry) (m : Nat) :
    s.charge sid e m = (s.setConnWindow (toS32 (s.connWindow.toInt - m))).setStream sid
      { e with window := toS32 (e.window.toInt - m) } := rfl

end Sys2Proof.Machine
end

