-- ==== Sys2Proof/Laws/Ops.lean ====
section
/-!
SUPPORT. What each shared operation can do, once: answering and raising, the decoder's guard, eviction, the combined index
space, the stream table. Provers cite these and do not unfold the operations.
-/

namespace Sys2Proof.Machine

/-! ### Answers -/

@[simp] theorem answer_eq_next (s t : State) (r : Result) : answer s r = .next t ↔ s.setResponse (.ok r) = t := by
  simp [answer]

@[simp] theorem raise_eq_next (s t : State) (e : Error) : raise s e = .next t ↔ s.setResponse (.raised e) = t := by
  simp [raise]

@[simp] theorem answer_ne_refused (s : State) (r : Result) (x : Refusal) : answer s r ≠ .refused x := by
  simp [answer]

@[simp] theorem raise_ne_refused (s : State) (e : Error) (x : Refusal) : raise s e ≠ .refused x := by
  simp [raise]

@[simp] theorem answer_ne_fault (s : State) (r : Result) (x : Fault) : answer s r ≠ .fault x := by
  simp [answer]

@[simp] theorem raise_ne_fault (s : State) (e : Error) (x : Fault) : raise s e ≠ .fault x := by
  simp [raise]

/-- A rejected issue never gives a next state. -/
theorem refuseReject_ne_next (r : Reject) (t : State) : refuseReject r ≠ .next t := by
  cases r <;> simp [refuseReject]

/-- A rejected issue never faults. -/
theorem refuseReject_ne_fault (r : Reject) (f : Fault) : refuseReject r ≠ .fault f := by
  cases r <;> simp [refuseReject]

/-- The guard lets an operation run unless it is on DEC and DEC_FAULT is set. -/
theorem guardTable_pass (t : TableId) (s : State) (run : Answer) (h : ¬ (t = .dec ∧ s.decFault = true)) :
    guardTable t s run = run := by simp only [guardTable, if_neg h]

/-- The guard refuses on DEC while DEC_FAULT is set. -/
theorem guardTable_stop (s : State) (run : Answer) (h : s.decFault = true) :
    guardTable .dec s run = .refused .decoderFaulted := by simp [guardTable, h]

/-- A guarded operation that answers a next state was let through. -/
theorem guardTable_next (t : TableId) (s u : State) (run : Answer) (h : guardTable t s run = .next u) :
    ¬ (t = .dec ∧ s.decFault = true) ∧ run = .next u := by
  unfold guardTable at h
  split at h
  · cases h
  · exact ⟨‹_›, h⟩

/-! ### Sizes and eviction -/

@[simp] theorem entriesSize_nil : entriesSize [] = 0 := rfl

@[simp] theorem entriesSize_cons (h : Header) (hs : List Header) :
    entriesSize (h :: hs) = entrySize h + entriesSize hs := rfl

/-- Every entry costs at least 32 (R150). -/
theorem entrySize_ge (h : Header) : 32 ≤ entrySize h := by unfold entrySize; omega

@[simp] theorem entriesSize_append (a b : List Header) : entriesSize (a ++ b) = entriesSize a + entriesSize b := by
  induction a with
  | nil => simp
  | cons h t ih => simp only [List.cons_append, entriesSize_cons, ih]; omega

/-- `count(t) <= size / 32` (R44). -/
theorem length_le_entriesSize (ent : List Header) : 32 * ent.length ≤ entriesSize ent := by
  induction ent with
  | nil => simp
  | cons h t ih =>
    have := entrySize_ge h
    simp only [List.length_cons, entriesSize_cons]; omega

/-- A shorter prefix is no larger. -/
theorem entriesSize_le_of_prefix {a b : List Header} (h : a <+: b) : entriesSize a ≤ entriesSize b := by
  obtain ⟨c, rfl⟩ := h
  simp

/-- What the eviction loop leaves: a prefix that fits, and every other prefix that fits is a prefix of it. -/
theorem evictLoop_spec (fuel limit : Nat) (ent : List Header) (hf : ent.length ≤ fuel) :
    evictLoop fuel limit ent <+: ent ∧ entriesSize (evictLoop fuel limit ent) ≤ limit
      ∧ ∀ p, p <+: ent → entriesSize p ≤ limit → p <+: evictLoop fuel limit ent := by
  induction fuel generalizing ent with
  | zero =>
    have : ent = [] := List.length_eq_zero_iff.mp (by omega)
    subst this
    exact ⟨List.prefix_refl _, by simp [evictLoop], fun p hp _ => hp⟩
  | succ fuel ih =>
    unfold evictLoop
    split
    · rename_i hlt
      have hd : ent.dropLast.length ≤ fuel := by simp only [List.length_dropLast]; omega
      obtain ⟨h1, h2, h3⟩ := ih ent.dropLast hd
      refine ⟨h1.trans (List.dropLast_prefix ent), h2, fun p hp hs => h3 p ?_ hs⟩
      have hne : p ≠ ent := fun h => by subst h; omega
      have hlen : p.length < ent.length := by
        have := hp.length_le
        rcases Nat.lt_or_eq_of_le this with h | h
        · exact h
        · exact absurd (hp.eq_of_length h) hne
      rw [List.prefix_iff_eq_take] at hp ⊢
      rw [List.dropLast_eq_take, List.take_take, Nat.min_eq_left (by omega)]
      exact hp
    · exact ⟨List.prefix_refl _, by omega, fun p hp _ => hp⟩

/-- `evict` keeps a prefix. -/
theorem evict_prefix (limit : Nat) (ent : List Header) : evict limit ent <+: ent :=
  (evictLoop_spec _ limit ent (Nat.le_refl _)).1

/-- `evict` makes the entries fit (R44). -/
theorem evict_le (limit : Nat) (ent : List Header) : entriesSize (evict limit ent) ≤ limit :=
  (evictLoop_spec _ limit ent (Nat.le_refl _)).2.1

/-- `evict` keeps every prefix that fits (R159). -/
theorem evict_longest (limit : Nat) (ent p : List Header) (hp : p <+: ent) (hs : entriesSize p ≤ limit) :
    p <+: evict limit ent :=
  (evictLoop_spec _ limit ent (Nat.le_refl _)).2.2 p hp hs

/-- Entries that fit stay (R155: raising the limit evicts nothing). -/
theorem evict_eq_self (limit : Nat) (ent : List Header) (h : entriesSize ent ≤ limit) : evict limit ent = ent :=
  (evict_prefix limit ent).eq_of_length
    (Nat.le_antisymm (evict_prefix limit ent).length_le (evict_longest limit ent ent (List.prefix_refl _) h).length_le)

@[simp] theorem DynTable.add_tableSize (t : DynTable) (h : Header) : (t.add h).tableSize = t.tableSize := rfl

@[simp] theorem DynTable.add_ent (t : DynTable) (h : Header) :
    (t.add h).ent = evict t.tableSize.toNat (h :: t.ent) := rfl

@[simp] theorem DynTable.setLimit_ent (t : DynTable) (limit : Nat) :
    (t.setLimit limit).ent = evict (BitVec.ofNat 32 limit).toNat t.ent := rfl

@[simp] theorem DynTable.setLimit_tableSize (t : DynTable) (limit : Nat) :
    (t.setLimit limit).tableSize = BitVec.ofNat 32 limit := rfl

/-- DT.ADD's table is within its limit (R44). -/
theorem DynTable.add_bounded (t : DynTable) (h : Header) : (t.add h).Bounded := evict_le _ _

/-- DT.SETSIZE's table is within its limit (R44). -/
theorem DynTable.setLimit_bounded (t : DynTable) (limit : Nat) : (t.setLimit limit).Bounded := evict_le _ _

/-! ### The combined index space -/

/-- STATIC has 61 entries (R152). -/
theorem staticTable_length : Config.staticTable.length = 61 := rfl

/-- `Lookup` is one numbering over the static table and then the dynamic table (R156). -/
theorem DynTable.lookup_eq (t : DynTable) (i : Nat) :
    t.lookup i = if i = 0 then none else (Config.staticTable ++ t.ent)[i - 1]? := by
  unfold DynTable.lookup
  by_cases h0 : i = 0
  · simp [h0]
  · rw [if_neg h0]
    by_cases h1 : i ≤ 61
    · rw [if_pos ⟨by omega, h1⟩, List.getElem?_append_left (by rw [staticTable_length]; omega)]
    · rw [if_neg (by omega), List.getElem?_append_right (by rw [staticTable_length]; omega), staticTable_length]
      have e : i - 1 - 61 = i - 62 := by omega
      rw [e]
      split
      · rfl
      · rw [List.getElem?_eq_none (by omega)]

/-- What the encoder's search finds: an entry that meets the test, at the least such index (R158). -/
theorem DynTable.findLeast_some (t : DynTable) (p : Header → Bool) (i : Nat) (h : t.findLeast p = some i) :
    ∃ e, t.lookup i = some e ∧ p e = true ∧ 1 ≤ i ∧ i ≤ 61 + t.ent.length
      ∧ ∀ j, j < i → ∀ x, t.lookup j = some x → p x = false := by
  unfold DynTable.findLeast at h
  rw [Option.map_eq_some_iff] at h
  obtain ⟨a, ha, rfl⟩ := h
  rw [List.findIdx?_eq_some_iff_getElem] at ha
  obtain ⟨hlt, hp, hmin⟩ := ha
  refine ⟨(Config.staticTable ++ t.ent)[a], ?_, hp, by omega, ?_, ?_⟩
  · rw [DynTable.lookup_eq, if_neg (by omega)]
    simp
  · have : a < (Config.staticTable ++ t.ent).length := hlt
    rw [List.length_append, staticTable_length] at this
    omega
  · intro j hj x hx
    rw [DynTable.lookup_eq] at hx
    split at hx
    · cases hx
    · rename_i hj0
      rw [List.getElem?_eq_some_iff] at hx
      obtain ⟨hl, rfl⟩ := hx
      simpa using hmin (j - 1) (by omega)

/-- What the encoder's search misses: no index's entry meets the test (R158). -/
theorem DynTable.findLeast_none (t : DynTable) (p : Header → Bool) (h : t.findLeast p = none) (i : Nat) (x : Header)
    (hx : t.lookup i = some x) : p x = false := by
  unfold DynTable.findLeast at h
  rw [Option.map_eq_none_iff, List.findIdx?_eq_none_iff] at h
  rw [DynTable.lookup_eq] at hx
  split at hx
  · cases hx
  · exact h x (List.mem_of_getElem? hx)

/-! ### The stream table -/

/-- Reading back the entry written. -/
@[simp] theorem streamFind_insert_self (m : List (Nat × StreamEntry)) (id : StreamId) (e : StreamEntry) :
    streamFind (streamInsert m id e) id = some e := by
  induction m with
  | nil => simp [streamInsert, streamFind]
  | cons x m ih =>
    obtain ⟨i, y⟩ := x
    unfold streamInsert
    split
    · simp [streamFind]
    · split
      · simp [streamFind, *]
      · simp [streamFind, *]

/-- Writing one entry leaves every other stream alone. -/
theorem streamFind_insert_of_ne (m : List (Nat × StreamEntry)) (id j : StreamId) (e : StreamEntry) (h : j ≠ id) :
    streamFind (streamInsert m id e) j = streamFind m j := by
  have hn : id.toNat ≠ j.toNat := fun hh => h (BitVec.eq_of_toNat_eq hh.symm)
  induction m with
  | nil => simp [streamInsert, streamFind, hn]
  | cons x m ih =>
    obtain ⟨i, y⟩ := x
    unfold streamInsert
    split
    · simp [streamFind, hn]
    · split
      · rename_i hi
        subst hi
        simp [streamFind, hn]
      · simp only [streamFind, ih]

/-- The ids of the table after a write. -/
theorem mem_streamInsert (m : List (Nat × StreamEntry)) (id : StreamId) (e : StreamEntry) (x : Nat × StreamEntry)
    (h : x ∈ streamInsert m id e) : x.1 = id.toNat ∨ x ∈ m := by
  induction m with
  | nil => simp only [streamInsert, List.mem_singleton] at h; exact .inl (by rw [h])
  | cons y m ih =>
    obtain ⟨i, z⟩ := y
    unfold streamInsert at h
    split at h
    · rcases List.mem_cons.mp h with h | h
      · exact .inl (by rw [h])
      · exact .inr h
    · split at h
      · rename_i hi
        rcases List.mem_cons.mp h with h | h
        · exact .inl (by rw [h]; exact hi)
        · exact .inr (List.mem_cons_of_mem _ h)
      · rcases List.mem_cons.mp h with h | h
        · exact .inr (by rw [h]; exact List.mem_cons_self)
        · exact (ih h).imp (fun hh => hh) (List.mem_cons_of_mem _)

/-- Writing an entry keeps the canonical form. -/
theorem streamInsert_wf (m : List (Nat × StreamEntry)) (id : StreamId) (e : StreamEntry) (h0 : id ≠ 0)
    (h : StreamsWf m) : StreamsWf (streamInsert m id e) := by
  have hid : 0 < id.toNat := by
    rcases Nat.eq_zero_or_pos id.toNat with hz | hz
    · exact absurd (BitVec.eq_of_toNat_eq (by simpa using hz)) h0
    · exact hz
  obtain ⟨hp, hb⟩ := h
  refine ⟨?_, fun x hx => ?_⟩
  · clear hb
    induction m with
    | nil => simp [streamInsert]
    | cons y m ih =>
      obtain ⟨i, z⟩ := y
      simp only [List.map_cons, List.pairwise_cons] at hp
      unfold streamInsert
      split
      · rename_i hlt
        simp only [List.map_cons, List.pairwise_cons, List.mem_cons, List.mem_map]
        refine ⟨?_, ?_, hp.2⟩
        · rintro a (rfl | ⟨b, hb, rfl⟩)
          · exact hlt
          · exact Nat.lt_trans hlt (hp.1 _ (List.mem_map_of_mem hb))
        · rintro a ⟨b, hb, rfl⟩
          exact hp.1 _ (List.mem_map_of_mem hb)
      · split
        · simpa only [List.map_cons, List.pairwise_cons] using hp
        · simp only [List.map_cons, List.pairwise_cons]
          refine ⟨fun a ha => ?_, ih hp.2⟩
          obtain ⟨b, hb, rfl⟩ := List.mem_map.mp ha
          rcases mem_streamInsert m id e b hb with hb | hb
          · rw [hb]; omega
          · exact hp.1 _ (List.mem_map_of_mem hb)
  · rcases mem_streamInsert m id e x hx with hx | hx
    · rw [hx]; exact ⟨hid, id.isLt⟩
    · exact hb x hx

@[simp] theorem State.stream_setStream_self (s : State) (id : StreamId) (e : StreamEntry) :
    (s.setStream id e).stream id = some e := streamFind_insert_self _ _ _

theorem State.stream_setStream_of_ne (s : State) (id j : StreamId) (e : StreamEntry) (h : j ≠ id) :
    (s.setStream id e).stream j = s.stream j := streamFind_insert_of_ne _ _ _ _ h

/-- The stream table right after reset is in canonical form. -/
theorem reset_streams_wf : StreamsWf State.reset.streams := by decide

/-- An open stream of a canonical table is not stream 0. -/
theorem streamFind_ne_zero (m : List (Nat × StreamEntry)) (id : StreamId) (e : StreamEntry) (h : StreamsWf m)
    (hf : streamFind m id = some e) : id ≠ 0 := by
  obtain ⟨-, hb⟩ := h
  induction m with
  | nil => cases hf
  | cons x m ih =>
    obtain ⟨i, y⟩ := x
    unfold streamFind at hf
    split at hf
    · rename_i hi
      have := (hb (i, y) List.mem_cons_self).1
      rintro rfl
      simp only at this
      simp at hi
      omega
    · exact ih hf (fun e he => hb e (List.mem_cons_of_mem _ he))

/-! ### Window arithmetic -/

/-- Narrowing is exact in the signed range (R231). -/
theorem toInt_toS32 (x : Int) (h1 : -2147483648 ≤ x) (h2 : x ≤ 2147483647) : (toS32 x).toInt = x := by
  unfold toS32
  rw [BitVec.toInt_ofInt]
  exact Int.bmod_eq_of_le (by simpa using h1) (by simp; omega)

/-- A window is in the signed range. -/
theorem window_range (w : U32) : -2147483648 ≤ w.toInt ∧ w.toInt ≤ 2147483647 := by
  have h1 := BitVec.le_toInt w
  have h2 := BitVec.toInt_lt (x := w)
  simp at h1 h2
  omega

/-- Charging a positive credit stays in range: SD.STEP never leaves it (R231). -/
theorem toInt_charge (w : U32) (m : Nat) (h : (m : Int) ≤ w.toInt) :
    (toS32 (w.toInt - m)).toInt = w.toInt - m := by
  have := window_range w
  exact toInt_toS32 _ (by omega) (by omega)

end Sys2Proof.Machine
end

