-- ==== Sys2Proof/Laws/Decoder.lean ====
section
/-!
SUPPORT. What the readers of a header block can do: the bytes a successful read takes, that it takes the same from any longer
buffer and fails Truncated on any shorter one, how the syntax of a representation meets its effect, and the loop of HD.DECODE
without its fuel.
-/

namespace Sys2Proof.Machine

/-! ### Binds -/

/-- A bind that answers: its first part answered. -/
theorem except_bind_ok {ε α β} {x : Except ε α} {f : α → Except ε β} {r : β} (h : x >>= f = .ok r) : ∃ a, x = .ok a ∧ f a = .ok r := by
  cases x with
  | error e => cases h
  | ok a => exact ⟨a, rfl, h⟩

/-- A bind that fails: one of its parts failed. -/
theorem except_bind_err {ε α β} {x : Except ε α} {f : α → Except ε β} {c : ε} (h : x >>= f = .error c) : x = .error c ∨ ∃ a, x = .ok a ∧ f a = .error c := by
  cases x with
  | error e => cases h; exact .inl rfl
  | ok a => exact .inr ⟨a, rfl, h⟩

/-! ### Readers -/

/-- The reader takes exactly the bytes `p`, whatever follows, answers `v`, and fails Truncated on every proper part of `p`
(R62, R193). -/
structure Reads {α} (f : Bytes → Except DecodeCause (α × Bytes)) (p : Bytes) (v : α) : Prop where
  ne : p ≠ []
  run : ∀ e, f (p ++ e) = .ok (v, e)
  cut : ∀ n, n < p.length → f (p.take n) = .error .truncated

/-- The continuation of a prefix integer (R170). -/
theorem intDecMore_ok (b : Bytes) (acc m v : Nat) (rest : Bytes) (h : intDecMore acc m b = .ok (v, rest)) :
    v ≤ Config.intMax ∧ ∃ p, b = p ++ rest ∧ Reads (intDecMore acc m) p v := by
  induction b generalizing acc m with
  | nil => cases h
  | cons c b ih =>
    simp only [intDecMore] at h
    by_cases h1 : Config.intMax < acc + c.toNat % 128 * 2 ^ m
    · rw [if_pos h1] at h; cases h
    · rw [if_neg h1] at h
      by_cases h2 : c.toNat < 128
      · rw [if_pos h2] at h; cases h
        refine ⟨by omega, [c], rfl, by simp, fun e => ?_, fun n hn => ?_⟩
        · simp only [List.cons_append, intDecMore, if_neg h1, if_pos h2]; rfl
        · simp at hn
          subst hn; rfl
      · rw [if_neg h2] at h
        obtain ⟨i1, p, rfl, i2⟩ := ih _ _ h
        refine ⟨i1, c :: p, rfl, by simp, fun e => ?_, fun n hn => ?_⟩
        · simp only [List.cons_append, intDecMore, if_neg h1, if_neg h2]; exact i2.run e
        · cases n with
          | zero => rfl
          | succ n => simp only [List.take_succ_cons, intDecMore, if_neg h1, if_neg h2]
                      apply i2.cut; simpa using hn

/-- A prefix integer is in range, and its reader takes its bytes (R170, R171). -/
theorem intDec_ok (k : Nat) (b : Bytes) (v : Nat) (rest : Bytes) (hk : k ≤ 8) (h : intDec k b = .ok (v, rest)) :
    v ≤ Config.intMax ∧ ∃ p, b = p ++ rest ∧ Reads (intDec k) p v := by
  have h8 : (2:Nat) ^ k ≤ 2 ^ 8 := Nat.pow_le_pow_right (by omega) hk
  cases b with
  | nil => cases h
  | cons c b =>
    simp only [intDec] at h
    by_cases h1 : c.toNat % 2 ^ k < 2 ^ k - 1
    · rw [if_pos h1] at h; cases h
      refine ⟨by unfold Config.intMax Config.intBits; omega, [c], rfl, by simp, fun e => ?_, fun n hn => ?_⟩
      · simp only [List.cons_append, intDec, if_pos h1]; rfl
      · simp at hn
        subst hn; rfl
    · rw [if_neg h1] at h
      obtain ⟨i1, p, rfl, i2⟩ := intDecMore_ok _ _ _ _ _ h
      refine ⟨i1, c :: p, rfl, by simp, fun e => ?_, fun n hn => ?_⟩
      · simp only [List.cons_append, intDec, if_neg h1]; exact i2.run e
      · cases n with
        | zero => rfl
        | succ n => simp only [List.take_succ_cons, intDec, if_neg h1]
                    apply i2.cut; simpa using hn

/-- The wire form of a string (R174). -/
theorem readString_ok (b : Bytes) (w : WireString) (rest : Bytes) (h : readString b = .ok (w, rest)) :
    ∃ p, b = p ++ rest ∧ Reads readString p w := by
  cases b with
  | nil => cases h
  | cons c b =>
    simp only [readString] at h
    obtain ⟨⟨v, r⟩, h1, h⟩ := except_bind_ok h
    simp only [memRead] at h
    by_cases hv : v ≤ r.length
    · rw [if_pos hv] at h; cases h
      obtain ⟨-, p, hbp, i2⟩ := intDec_ok _ _ _ _ (by omega) h1
      obtain ⟨x, p', rfl⟩ := List.exists_cons_of_ne_nil i2.ne
      simp only [List.cons_append, List.cons.injEq] at hbp
      obtain ⟨rfl, rfl⟩ := hbp
      have hl : (r.take v).length = v := by simp; omega
      refine ⟨c :: (p' ++ r.take v), by simp, by simp, fun e => ?_, fun n hn => ?_⟩
      · have := i2.run (r.take v ++ e)
        simp only [List.cons_append, List.append_assoc, readString] at this ⊢
        simp only [this, bind, Except.bind, memRead]
        rw [if_pos (by simp; omega)]
        simp [List.take_append_of_le_length (i := v) (l₁ := r.take v) (by omega), List.drop_append_of_le_length (i := v) (l₁ := r.take v) (by omega), List.take_take]
      · cases n with
        | zero => rfl
        | succ n =>
          simp only [List.length_cons, List.length_append, hl] at hn
          by_cases hc : n + 1 < (c :: p').length
          · have := i2.cut _ hc
            simp only [List.length_cons] at hc
            simp only [List.take_succ_cons, List.take_append_of_le_length (show n ≤ p'.length by omega)] at this ⊢
            simp only [readString, this, bind, Except.bind]
          · simp only [List.length_cons] at hc
            have := i2.run ((r.take v).take (n - p'.length))
            simp only [List.take_succ_cons, List.take_append, List.take_of_length_le (show p'.length ≤ n by omega), List.cons_append] at this ⊢
            simp only [readString, this, bind, Except.bind, memRead]
            rw [if_neg (by simp; omega)]
    · rw [if_neg hv] at h; cases h

/-- Two readers in sequence. -/
theorem Reads.bind {α β} {f : Bytes → Except DecodeCause (α × Bytes)} {g : α → Bytes → Except DecodeCause (β × Bytes)} {p q : Bytes} {v : α} {w : β}
    (hf : Reads f p v) (hg : Reads (g v) q w) : Reads (fun b => f b >>= fun (a, r) => g a r) (p ++ q) w := by
  refine ⟨by simp [hf.ne], fun e => ?_, fun n hn => ?_⟩
  · simp only [List.append_assoc, hf.run]; exact hg.run e
  · by_cases hc : n < p.length
    · simp only [List.take_append_of_le_length (show n ≤ p.length by omega), hf.cut n hc]; rfl
    · simp only [List.take_append, List.take_of_length_le (show p.length ≤ n by omega), hf.run]
      apply hg.cut; simp at hn; omega

/-- A reader followed by a function. -/
theorem Reads.map {α β} {f : Bytes → Except DecodeCause (α × Bytes)} {p : Bytes} {v : α} (g : α → β)
    (hf : Reads f p v) : Reads (fun b => f b >>= fun (a, r) => .ok (g a, r)) p (g v) := by
  refine ⟨hf.ne, fun e => by simp only [hf.run]; rfl, fun n hn => by simp only [hf.cut n hn]; rfl⟩

/-- A reader followed by a check. -/
theorem Reads.mapM {α β} {f : Bytes → Except DecodeCause (α × Bytes)} {p : Bytes} {v : α} {w : β} (g : α → Except DecodeCause β)
    (hf : Reads f p v) (hg : g v = .ok w) : Reads (fun b => f b >>= fun (a, r) => g a >>= fun c => .ok (c, r)) p w := by
  refine ⟨hf.ne, fun e => by simp only [hf.run]; simp [Bind.bind, Except.bind, hg], fun n hn => by simp only [hf.cut n hn]; rfl⟩

/-- `StrDec` (R174). -/
theorem strDec_ok (b t rest : Bytes) (h : strDec b = .ok (t, rest)) : ∃ p, b = p ++ rest ∧ Reads strDec p t := by
  obtain ⟨⟨w, r⟩, h1, h⟩ := except_bind_ok h
  obtain ⟨t', h2, h⟩ := except_bind_ok h
  cases h
  obtain ⟨p, rfl, hp⟩ := readString_ok _ _ _ h1
  exact ⟨p, rfl, hp.mapM _ h2⟩

/-- `LitName` (R192). -/
theorem litName_ok (t : DynTable) (n : Nat) (hn : n ≤ 8) (b nm rest : Bytes) (h' : litName t n b = .ok (nm, rest)) : ∃ p, b = p ++ rest ∧ Reads (litName t n) p nm := by
  obtain ⟨⟨k, r⟩, h1, h⟩ := except_bind_ok h'
  change (if k = 0 then strDec r else _) = _ at h
  clear h'
  obtain ⟨-, p, rfl, hp⟩ := intDec_ok _ _ _ _ hn h1
  by_cases hk : k = 0
  · rw [if_pos hk] at h
    obtain ⟨q, rfl, hq⟩ := strDec_ok _ _ _ h
    refine ⟨p ++ q, by simp, ?_⟩
    exact hp.bind (g := fun i rest => if i = 0 then strDec rest else do let name ← indexedName t i; .ok (name, rest)) (by simpa [hk] using hq)
  · rw [if_neg hk] at h
    obtain ⟨x, hx, h⟩ := except_bind_ok h
    cases h
    refine ⟨p, rfl, ⟨hp.ne, fun e => ?_, fun n hn => ?_⟩⟩
    · simp only [litName, hp.run, Bind.bind, Except.bind, if_neg hk, hx]
    · simp only [litName, hp.cut n hn]; rfl

/-- Name and value of a literal (R196, R198). -/
theorem litHeader_ok (t : DynTable) (n : Nat) (hn : n ≤ 8) (b rest : Bytes) (hd : Header) (h : litHeader t n b = .ok (hd, rest)) : ∃ p, b = p ++ rest ∧ Reads (litHeader t n) p hd := by
  obtain ⟨⟨k, r⟩, h1, h⟩ := except_bind_ok h
  obtain ⟨⟨v, r2⟩, h2, h⟩ := except_bind_ok h
  cases h
  obtain ⟨p, rfl, hp⟩ := litName_ok t n hn _ _ _ h1
  obtain ⟨q, rfl, hq⟩ := strDec_ok _ _ _ h2
  refine ⟨p ++ q, by simp, ?_⟩
  exact hp.bind (g := fun nm rest => strDec rest >>= fun (v, rest) => .ok (Header.mk nm v, rest)) (hq.map (fun v => Header.mk k v))

/-- One representation (R190). -/
theorem runRepresentation_ok (d d' : Decoding) (b rest : Bytes) (h : runRepresentation d b = .ok (d', rest)) : ∃ p, b = p ++ rest ∧ Reads (runRepresentation d) p d' := by
  cases b with
  | nil => cases h
  | cons f b =>
    have key : ∀ {α : Type} (g : Bytes → Except DecodeCause (α × Bytes)) (k : α → Except DecodeCause Decoding), (∀ l, runRepresentation d (f :: l) = (g (f :: l) >>= fun (a, r) => k a >>= fun c => .ok (c, r)))
      → (∀ b v rest, g b = .ok (v, rest) → ∃ p, b = p ++ rest ∧ Reads g p v) → ∃ p, f :: b = p ++ rest ∧ Reads (runRepresentation d) p d' := by
      intro α g k hr hg
      rw [hr] at h
      obtain ⟨⟨v, r⟩, h1, h⟩ := except_bind_ok h
      obtain ⟨c, h2, h⟩ := except_bind_ok h
      cases h
      obtain ⟨p, hp, hR⟩ := hg _ _ _ h1
      have hR2 := hR.mapM k h2
      obtain ⟨x, p', rfl⟩ := List.exists_cons_of_ne_nil hR.ne
      simp only [List.cons_append, List.cons.injEq] at hp
      obtain ⟨rfl, rfl⟩ := hp
      refine ⟨f :: p', rfl, by simp, fun e => ?_, fun n hn => ?_⟩
      · rw [List.cons_append, hr, ← List.cons_append]; exact hR2.run e
      · cases n with
        | zero => rfl
        | succ n => rw [List.take_succ_cons, hr, ← List.take_succ_cons]; exact hR2.cut _ hn
    cases hk : repKind f
    · exact key (intDec 7) d.indexed (fun l => by simp only [runRepresentation, hk]) (fun b v rest h => (intDec_ok 7 b v rest (by omega) h).2)
    · exact key (litHeader d.table 6) (fun x => .ok (d.litInc x)) (fun l => by simp only [runRepresentation, hk]; rfl) (fun b v rest h => litHeader_ok _ 6 (by omega) b rest v h)
    · exact key (intDec 5) d.sizeUpd (fun l => by simp only [runRepresentation, hk]) (fun b v rest h => (intDec_ok 5 b v rest (by omega) h).2)
    · exact key (litHeader d.table 4) (fun x => .ok (d.emit x)) (fun l => by simp only [runRepresentation, hk]; rfl) (fun b v rest h => litHeader_ok _ 4 (by omega) b rest v h)
    · exact key (litHeader d.table 4) (fun x => .ok (d.emit x)) (fun l => by simp only [runRepresentation, hk]; rfl) (fun b v rest h => litHeader_ok _ 4 (by omega) b rest v h)

/-! ### A representation as syntax and its effect -/

/-- What a representation does to the decode in progress (R195 to R199). -/
def effect (d : Decoding) : Instr → Except DecodeCause Decoding
  | .hdIndexed i => d.indexed i
  | .hdLitinc n v => (literalHeader d.table n v).map d.litInc
  | .hdSizeupd n => d.sizeUpd n
  | .hdLitno n v => (literalHeader d.table n v).map d.emit
  | .hdLitnever n v => (literalHeader d.table n v).map d.emit
  | _ => .ok d

/-- The syntax of a representation by the kind of its first byte (R95). -/
theorem decodeRep_cases (f : Byte) (l rest : Bytes) (i : Instr) (h : decodeRepresentation (f :: l) = .ok (i, rest)) :
    (∃ n, repKind f = .indexed ∧ intDec 7 (f :: l) = .ok (n, rest) ∧ i = .hdIndexed n)
    ∨ (∃ n v, repKind f = .litInc ∧ readLiteral 6 (f :: l) = .ok ((n, v), rest) ∧ i = .hdLitinc n v)
    ∨ (∃ n, repKind f = .sizeUpd ∧ intDec 5 (f :: l) = .ok (n, rest) ∧ i = .hdSizeupd n)
    ∨ (∃ n v, repKind f = .litNever ∧ readLiteral 4 (f :: l) = .ok ((n, v), rest) ∧ i = .hdLitnever n v)
    ∨ (∃ n v, repKind f = .litNo ∧ readLiteral 4 (f :: l) = .ok ((n, v), rest) ∧ i = .hdLitno n v) := by
  unfold decodeRepresentation at h
  cases hk : repKind f <;> simp only [hk] at h <;> obtain ⟨a, ha, h⟩ := except_bind_ok h
  · obtain ⟨n, r⟩ := a; cases h; exact .inl ⟨n, rfl, ha, rfl⟩
  · obtain ⟨⟨n, v⟩, r⟩ := a; cases h; exact .inr (.inl ⟨n, v, rfl, ha, rfl⟩)
  · obtain ⟨n, r⟩ := a; cases h; exact .inr (.inr (.inl ⟨n, rfl, ha, rfl⟩))
  · obtain ⟨⟨n, v⟩, r⟩ := a; cases h; exact .inr (.inr (.inr (.inl ⟨n, v, rfl, ha, rfl⟩)))
  · obtain ⟨⟨n, v⟩, r⟩ := a; cases h; exact .inr (.inr (.inr (.inr ⟨n, v, rfl, ha, rfl⟩)))

/-- A literal read as syntax is the literal read with its text. -/
theorem litHeader_of (t : DynTable) (n : Nat) (b rest : Bytes) (nm : NameRef) (v : WireString) (h : readLiteral n b = .ok ((nm, v), rest)) :
    litHeader t n b = (literalHeader t nm v).map (·, rest) := by
  obtain ⟨⟨nm', r1⟩, h1, h⟩ := except_bind_ok h
  obtain ⟨⟨v', r2⟩, h2, h⟩ := except_bind_ok h
  cases h
  obtain ⟨⟨k, r0⟩, h0, h1⟩ := except_bind_ok h1
  simp only [litHeader, litName, h0, bind, Except.bind]
  simp only at h1
  split at h1
  · rename_i hk
    obtain ⟨⟨w, r⟩, hw, h1⟩ := except_bind_ok h1
    cases h1
    simp only [hk, if_true, strDec, hw, bind, Except.bind, literalHeader, NameRef.text]
    cases w.text <;> simp [h2, Except.map]
    cases v.text <;> simp
  · rename_i hk
    cases h1
    simp only [if_neg hk, literalHeader, NameRef.text, bind, Except.bind]
    cases indexedName t k <;> simp [strDec, h2, Except.map, bind, Except.bind]
    cases v.text <;> simp

/-- Where a representation reads as syntax, running it is its effect (log 3). -/
theorem runRepresentation_of (d : Decoding) (b rest : Bytes) (i : Instr) (h : decodeRepresentation b = .ok (i, rest)) :
    runRepresentation d b = (effect d i).map (·, rest) := by
  cases b with
  | nil => cases h
  | cons f l =>
    rcases decodeRep_cases f l rest i h with ⟨n, hk, hd, rfl⟩ | ⟨n, v, hk, hd, rfl⟩ | ⟨n, hk, hd, rfl⟩ | ⟨n, v, hk, hd, rfl⟩ | ⟨n, v, hk, hd, rfl⟩
    · simp only [runRepresentation, hk, hd, bind, Except.bind, effect]; cases d.indexed n <;> rfl
    · simp only [runRepresentation, hk, litHeader_of d.table _ _ _ _ _ hd, bind, Except.bind, effect]; cases literalHeader d.table n v <;> rfl
    · simp only [runRepresentation, hk, hd, bind, Except.bind, effect]; cases d.sizeUpd n <;> rfl
    · simp only [runRepresentation, hk, litHeader_of d.table _ _ _ _ _ hd, bind, Except.bind, effect]; cases literalHeader d.table n v <;> rfl
    · simp only [runRepresentation, hk, litHeader_of d.table _ _ _ _ _ hd, bind, Except.bind, effect]; cases literalHeader d.table n v <;> rfl

/-- The loop on an empty block. -/
theorem decodeLoop_nil (n : Nat) (d : Decoding) : decodeLoop n d [] = ⟨d, none⟩ := by cases n <;> simp [decodeLoop]

/-- A representation as an instruction (log 3). -/
theorem exec_rep (i : Instr) (s : State) (hf : i.format = .hr) : exec i s = guardTable .dec s (finishSingle s (effect s.decoding i)) := by
  cases i <;> simp only [Instr.format] at hf <;> first | rfl | cases hf

/-- What reads as a representation is one. -/
theorem decodeRep_format (b rest : Bytes) (i : Instr) (h : decodeRepresentation b = .ok (i, rest)) : i.format = .hr := by
  cases b with
  | nil => cases h
  | cons f l =>
    rcases decodeRep_cases f l rest i h with ⟨n, hk, hd, rfl⟩ | ⟨n, v, hk, hd, rfl⟩ | ⟨n, hk, hd, rfl⟩ | ⟨n, v, hk, hd, rfl⟩ | ⟨n, v, hk, hd, rfl⟩ <;> rfl

/-! ### The loop of HD.DECODE -/

/-- The loop of R190 on a whole block. -/
def decodeBlock (d : Decoding) (b : Bytes) : BlockEnd := decodeLoop b.length d b

/-- Any fuel from the length on gives the same (log 20). -/
theorem decodeLoop_fuel (n : Nat) (d : Decoding) (b : Bytes) (h : b.length ≤ n) : decodeLoop n d b = decodeBlock d b := by
  induction n using Nat.strongRecOn generalizing d b with
  | _ n ih =>
    cases b with
    | nil => simp [decodeBlock, decodeLoop_nil]
    | cons f l =>
      cases n with
      | zero => simp at h
      | succ n =>
        simp only [decodeBlock, List.length_cons, decodeLoop]
        rw [if_neg (by simp)]
        cases hr : runRepresentation d (f :: l) with
        | error c => rfl
        | ok x =>
          obtain ⟨d', rest⟩ := x
          obtain ⟨p, hp, hR⟩ := runRepresentation_ok _ _ _ _ hr
          have : rest.length ≤ l.length := by
            have e := congrArg List.length hp
            have := List.length_pos_iff.mpr hR.ne
            simp at e; omega
          simp only [List.length_cons] at h
          simp only
          rw [ih n (by omega) d' rest (by omega)]
          rw [if_neg (by simp)]
          exact (ih l.length (by omega) d' rest (by omega)).symm

/-- The empty block. -/
theorem decodeBlock_nil (d : Decoding) : decodeBlock d [] = ⟨d, none⟩ := decodeLoop_nil _ _

/-- A block whose first representation fails. -/
theorem decodeBlock_err (d : Decoding) (b : Bytes) (c) (hb : b ≠ []) (h : runRepresentation d b = .error c) : decodeBlock d b = ⟨d, some (c, b.length)⟩ := by
  obtain ⟨f, l, rfl⟩ := List.exists_cons_of_ne_nil hb
  simp only [decodeBlock, List.length_cons, decodeLoop]
  rw [if_neg (by simp), h]

/-- A block whose first representation runs. -/
theorem decodeBlock_ok (d d' : Decoding) (b rest : Bytes) (h : runRepresentation d b = .ok (d', rest)) : decodeBlock d b = decodeBlock d' rest := by
  obtain ⟨p, hp, hR⟩ := runRepresentation_ok _ _ _ _ h
  have e := congrArg List.length hp
  have hpos := List.length_pos_iff.mpr hR.ne
  cases b with
  | nil => cases h
  | cons f l =>
    conv_lhs => simp only [decodeBlock, List.length_cons, decodeLoop]
    rw [if_neg (by simp), h]
    simp at e
    exact decodeLoop_fuel _ _ _ (by omega)

/-- Induction over a block: it is empty, its first representation fails, or it is one representation and the rest. -/
theorem decodeBlock_ind (P : Decoding → Bytes → BlockEnd → Prop) (h0 : ∀ d, P d [] ⟨d, none⟩)
   (h1 : ∀ d b c, b ≠ [] → runRepresentation d b = .error c → P d b ⟨d, some (c, b.length)⟩)
   (h2 : ∀ d d' p rest, p ≠ [] → Reads (runRepresentation d) p d' → P d' rest (decodeBlock d' rest) → P d (p ++ rest) (decodeBlock d' rest)) : ∀ d b, P d b (decodeBlock d b) := by
  intro d b
  induction hn : b.length using Nat.strongRecOn generalizing d b with
  | _ n ih =>
    by_cases hb : b = []
    · subst hb; rw [decodeBlock_nil]; exact h0 d
    · cases hr : runRepresentation d b with
      | error c => rw [decodeBlock_err _ _ _ hb hr]; exact h1 _ _ _ hb hr
      | ok x =>
        obtain ⟨d', rest⟩ := x
        rw [decodeBlock_ok _ _ _ _ hr]
        obtain ⟨p, rfl, hR⟩ := runRepresentation_ok _ _ _ _ hr
        have := List.length_pos_iff.mpr hR.ne
        exact h2 _ _ _ _ hR.ne hR (ih rest.length (by simp at hn; omega) d' rest rfl)

/-- A list already built goes before what a decode adds. -/
def Decoding.after (o : List Header) (d : Decoding) : Decoding := ⟨d.table, o ++ d.out⟩

/-- A representation does not read the list. -/
theorem runRepresentation_pre (o : List Header) (d : Decoding) (b : Bytes) : runRepresentation (Decoding.after o d) b = (runRepresentation d b).map (fun x => (Decoding.after o x.1, x.2)) := by
  cases b with
  | nil => rfl
  | cons f l =>
    simp only [runRepresentation]
    cases repKind f <;> simp only [bind, Except.bind]
    · cases intDec 7 (f :: l) with
      | error => rfl
      | ok x => simp only [Decoding.indexed, Decoding.after, Decoding.emit]; cases d.table.lookup x.1 <;> simp [Except.map]
    · simp only [Decoding.after]; cases litHeader d.table 6 (f :: l) <;> simp [Except.map, Decoding.litInc]
    · cases intDec 5 (f :: l) with
      | error => rfl
      | ok x => simp only [Decoding.sizeUpd]; by_cases hx : Config.dtCapMax < x.1 <;> simp [Except.map, Decoding.after, hx]
    · simp only [Decoding.after]; cases litHeader d.table 4 (f :: l) <;> simp [Except.map, Decoding.emit]
    · simp only [Decoding.after]; cases litHeader d.table 4 (f :: l) <;> simp [Except.map, Decoding.emit]

/-- A block does not read the list. -/
theorem decodeBlock_pre (o : List Header) (d : Decoding) (b : Bytes) : decodeBlock (Decoding.after o d) b = ⟨Decoding.after o (decodeBlock d b).state, (decodeBlock d b).failure⟩ := by
  refine decodeBlock_ind (fun d b r => decodeBlock (Decoding.after o d) b = ⟨Decoding.after o r.state, r.failure⟩) ?_ ?_ ?_ d b
  · intro d; rw [decodeBlock_nil]
  · intro d b c hb h; rw [decodeBlock_err _ _ c hb (by rw [runRepresentation_pre, h]; rfl)]
  · intro d d' p rest hp hR ih
    rw [decodeBlock_ok (Decoding.after o d) (Decoding.after o d') (p ++ rest) rest (by rw [runRepresentation_pre, hR.run]; rfl), ih]

/-- A block whose first part decodes (R191, R200). -/
theorem decodeBlock_append (d : Decoding) (b e : Bytes) (h : (decodeBlock d b).failure = none) : decodeBlock d (b ++ e) = decodeBlock (decodeBlock d b).state e := by
  refine decodeBlock_ind (fun d b r => r.failure = none → decodeBlock d (b ++ e) = decodeBlock r.state e) ?_ ?_ ?_ d b h
  · intros; rfl
  · intros _ _ _ _ _ h; cases h
  · intro d d' p rest hp hR ih h
    rw [List.append_assoc, decodeBlock_ok d d' _ _ (hR.run _), ih h]

/-- A failure stands inside the block. -/
theorem decodeBlock_left (d : Decoding) (b : Bytes) : ∀ c left, (decodeBlock d b).failure = some (c, left) → 0 < left ∧ left ≤ b.length := by
  refine decodeBlock_ind (fun d b r => ∀ c left, r.failure = some (c, left) → 0 < left ∧ left ≤ b.length) ?_ ?_ ?_ d b
  · intro d c l h; cases h
  · intro d b c hb _ c' l h; cases h; exact ⟨List.length_pos_iff.mpr hb, Nat.le_refl _⟩
  · intro d d' p rest hp hR ih c l h; have := ih c l h; simp; omega

/-- The state HD.DECODE leaves when it runs (R190, R194). -/
def decodeEnd (s : State) (n : Nat) (r : BlockEnd) : State :=
  match r.failure with
  | none => { s with dec := r.state.table, response := .ok (.headers r.state.out) }
  | some (c, left) => { s with dec := r.state.table, decFault := true, decFaultCause := ⟨c, n - left⟩, response := .raised (.decodeError c (n - left)) }

/-- HD.DECODE on a decoder without a fault. -/
theorem exec_decode (b : Bytes) (s : State) (h : s.decFault = false) : exec (.hdDecode b) s = .next (decodeEnd s b.length (decodeBlock ⟨s.dec, []⟩ b)) := by
  simp only [exec, execHdDecode, guardTable_pass .dec s _ (by simp [h])]
  change (match (decodeBlock ⟨s.dec, []⟩ b).failure with
    | none => decodeOk s (decodeBlock ⟨s.dec, []⟩ b).state
    | some (c, left) => decodeFail s (decodeBlock ⟨s.dec, []⟩ b).state c (b.length - left)) = _
  unfold decodeEnd
  cases (decodeBlock ⟨s.dec, []⟩ b).failure <;> rfl

/-- HD.DECODE after a fault (R29). -/
theorem exec_decode_stop (b : Bytes) (s : State) (h : s.decFault = true) : exec (.hdDecode b) s = .refused .decoderFaulted := guardTable_stop _ _ h

/-- One representation leaves the table or one within its limit (R44). -/
theorem runRepresentation_bounded (d d' : Decoding) (b r : Bytes) (h : runRepresentation d b = .ok (d', r)) : d'.table = d.table ∨ d'.table.Bounded := by
  cases b with
  | nil => cases h
  | cons f l =>
    unfold runRepresentation at h
    simp only at h
    split at h <;> obtain ⟨⟨w, r⟩, h1, h⟩ := except_bind_ok h
    · obtain ⟨x, hx, h⟩ := except_bind_ok h; cases h
      unfold Decoding.indexed at hx; split at hx <;> cases hx; exact .inl rfl
    · cases h; exact .inr (DynTable.add_bounded _ _)
    · obtain ⟨x, hx, h⟩ := except_bind_ok h; cases h
      unfold Decoding.sizeUpd at hx; split at hx <;> cases hx; exact .inr (DynTable.setLimit_bounded _ _)
    · cases h; exact .inl rfl
    · cases h; exact .inl rfl

/-- A block leaves the table or one within its limit (R44). -/
theorem decodeBlock_bounded (d : Decoding) (b : Bytes) : (decodeBlock d b).state.table = d.table ∨ (decodeBlock d b).state.table.Bounded := by
  refine decodeBlock_ind (fun d b r => r.state.table = d.table ∨ r.state.table.Bounded) ?_ ?_ ?_ d b
  · intros; exact .inl rfl
  · intros; exact .inl rfl
  · intro d d' p rest hp hR ih
    have h := hR.run []
    rcases ih with ih | ih
    · rcases runRepresentation_bounded _ _ _ _ h with h | h
      · exact .inl (ih.trans h)
      · exact .inr (by rw [ih]; exact h)
    · exact .inr ih

end Sys2Proof.Machine
end

