-- ==== Sys2Proof/Laws/Headers.lean ====
section
/-!
SUPPORT. The frame header's fields as numbers: unpacking (R91), packing (R132) and the flag bits (R93).
-/

namespace Sys2Proof.Machine

/-- Concatenation as arithmetic: the first operand is the more significant (R9). -/
theorem toNat_append_add {v w : Nat} (x : BitVec v) (y : BitVec w) : (x ++ y).toNat = x.toNat * 2 ^ w + y.toNat := by
  rw [BitVec.toNat_append, ← Nat.shiftLeft_add_eq_or_of_lt y.isLt, Nat.shiftLeft_eq]

/-- A slice as arithmetic. -/
theorem toNat_slice {w : Nat} (x : BitVec w) (lo len : Nat) : (x.extractLsb' lo len).toNat = x.toNat / 2 ^ lo % 2 ^ len := by
  rw [BitVec.extractLsb'_toNat, Nat.shiftRight_eq_div_pow]

/-- PADDED as arithmetic (R93). -/
theorem padded_eq (flags : Byte) : padded flags = decide (flags.toNat / 8 % 2 = 1) := by
  revert flags; decide +kernel

/-- PRIORITY as arithmetic (R93). -/
theorem hasPriority_eq (flags : Byte) : hasPriority flags = decide (flags.toNat / 32 % 2 = 1) := by
  revert flags; decide +kernel

@[simp] theorem unpackHeader_length_toNat (h : HeaderBytes) :
    (unpackHeader h).length.toNat = h.b0.toNat * 65536 + h.b1.toNat * 256 + h.b2.toNat := by
  simp only [unpackHeader, toNat_append_add]
  omega

@[simp] theorem unpackHeader_rsv_toNat (h : HeaderBytes) : (unpackHeader h).rsv.toNat = h.b5.toNat / 128 := by
  have := h.b5.isLt
  simp only [unpackHeader, toNat_slice]
  omega

@[simp] theorem unpackHeader_streamId_toNat (h : HeaderBytes) :
    (unpackHeader h).streamId.toNat
      = (h.b5.toNat % 128) * 16777216 + h.b6.toNat * 65536 + h.b7.toNat * 256 + h.b8.toNat := by
  simp only [unpackHeader, toNat_append_add, toNat_slice]
  omega

/-- The word at offsets 5 to 8 (R132). -/
theorem streamWord_toNat (rsv : BitVec 1) (streamId : StreamId) :
    (streamWord rsv streamId).toNat = rsv.toNat * 2 ^ 31 + streamId.toNat := toNat_append_add _ _

/-- A byte slice of a word is that byte of its number. -/
theorem slice_eq_ofNat {w : Nat} (x : BitVec w) (lo : Nat) : x.extractLsb' lo 8 = BitVec.ofNat 8 (x.toNat / 2 ^ lo) := by
  apply BitVec.eq_of_toNat_eq
  rw [toNat_slice, BitVec.toNat_ofNat]

end Sys2Proof.Machine
end

