-- ==== Sys2Proof/Laws/Machine.lean ====
section
/-!
SUPPORT. Everything one instruction can do to the state, once: `exec_change` says which of the listed changes a next state is.
An invariant over all instructions is a case analysis over `Change`.
-/

namespace Sys2Proof.Machine

/-! ### The encoder -/

/-- A list in two parts (R210). -/
theorem encodeEntries_append (t : DynTable) (l l2 : List EncEntry) : encodeEntries t (l ++ l2) = ((encodeEntries t l).1 ++ (encodeEntries (encodeEntries t l).2 l2).1, (encodeEntries (encodeEntries t l).2 l2).2) := by
  induction l generalizing t with
  | nil => simp [encodeEntries]
  | cons e l ih => simp [encodeEntries, ih]

/-- The encoder does not write the limit (R210). -/
theorem encodeEntry_tableSize (t : DynTable) (e : EncEntry) : (encodeEntry t e).2.tableSize = t.tableSize := by
  unfold encodeEntry tableAfterLiteral
  split
  · rfl
  · split <;> dsimp only <;> split <;> rfl

/-- The encoder does not write the limit (R210). -/
theorem encodeEntries_tableSize (t : DynTable) (l : List EncEntry) : (encodeEntries t l).2.tableSize = t.tableSize := by
  induction l generalizing t with
  | nil => rfl
  | cons e l ih => simp [encodeEntries, ih, encodeEntry_tableSize]

/-- A literal keeps the table within its limit (R44). -/
theorem tableAfterLiteral_bounded (t : DynTable) (e : EncEntry) (h : t.Bounded) : (tableAfterLiteral t e).Bounded := by
  unfold tableAfterLiteral; split
  · exact DynTable.add_bounded _ _
  · exact h
  · exact h

/-! ### The windows -/

/-- An addition outside the range is not performed (R231). -/
theorem addWindow_out (w d : U32) (h : w.toInt + d.toInt < -2147483648 ∨ 2147483647 < w.toInt + d.toInt) : addWindow w d = none := by
  unfold addWindow inS32; rw [if_neg]; simp; omega

/-- An addition inside the range is exact (R231). -/
theorem addWindow_in (w d : U32) (h1 : -2147483648 ≤ w.toInt + d.toInt) (h2 : w.toInt + d.toInt ≤ 2147483647) : ∃ x, addWindow w d = some x ∧ x.toInt = w.toInt + d.toInt := by
  refine ⟨_, ?_, toInt_toS32 _ h1 h2⟩
  unfold addWindow inS32; rw [if_pos]; simp; omega

/-- The credit is at most each of the three (R232). -/
theorem credit_le (s : State) (e : StreamEntry) :
    s.credit e ≤ s.effMaxFrameSize ∧ s.credit e ≤ s.connWindow.toInt ∧ s.credit e ≤ e.window.toInt := by
  unfold State.credit; omega

/-- SD.STEP of a RUN context with a stream (R247). -/
theorem exec_sdStep_run (k : Nat) (c : SendCtx) (s : State) (e : StreamEntry) (hk : s.ctx k = some c) (h : c.phase = .run) (he : s.stream c.sid = some e) :
   exec (.sdStep k) s = if s.credit e ≤ 0 then stepBlock k c s
        else if (c.remaining : Int) ≤ s.credit e then stepFinal k c e s
        else stepPart k c e (s.credit e).toNat s := by
  simp only [exec, execSdStep, hk, he, h]; simp

/-- SD.POLL of a BLOCKED context with a stream (R251). -/
theorem exec_sdPoll_blocked (k : Nat) (c : SendCtx) (s : State) (e : StreamEntry) (hk : s.ctx k = some c) (h : c.phase = .blocked) (he : s.stream c.sid = some e) :
   exec (.sdPoll k) s = if e.reset then raise (s.setCtx k { c with phase := .idle }) (.streamClosed c.sid)
        else if s.goawaySeen then raise (s.setCtx k { c with phase := .idle }) .connectionClosed
        else if 0 < s.credit e then answer (s.setCtx k { c with phase := .run }) (.send .resumed [])
        else answer s (.send .stillBlocked []) := by
  simp only [exec, execSdPoll, hk, he]; simp [h]

/-- SD.POLL answers only on a BLOCKED context (R251). -/
theorem exec_sdPoll_next_phase (k : Nat) (c : SendCtx) (s t : State) (hk : s.ctx k = some c) (h : exec (.sdPoll k) s = .next t) :
    c.phase = .blocked := by
  by_contra hp
  simp only [exec, execSdPoll, hk, if_pos hp] at h
  cases h

/-- A poll of a woken context ends the wait (R250, R251). -/
theorem exec_sdPoll_woken (k : Nat) (c : SendCtx) (s t : State) (hk : s.ctx k = some c) (hw : s.woken c = true)
    (h : exec (.sdPoll k) s = .next t) : ∃ d, t.ctx k = some d ∧ d.phase ≠ .blocked := by
  have hb := exec_sdPoll_next_phase k c s t hk h
  have hlt : k < s.sendCtx.length := (List.getElem?_eq_some_iff.mp hk).1
  unfold State.woken at hw
  split at hw
  · cases hw
  · rename_i e he
    have hset (x : SendCtx) (r : Response) : ((s.setCtx k x).setResponse r).ctx k = some x := List.getElem?_set_self hlt
    rw [exec_sdPoll_blocked k c s e hk hb he] at h
    simp only [Bool.or_eq_true, decide_eq_true_eq] at hw
    split at h
    · cases h; exact ⟨_, hset _ _, by simp⟩
    · split at h
      · cases h; exact ⟨_, hset _ _, by simp⟩
      · rw [if_pos (by tauto)] at h
        cases h; exact ⟨_, hset _ _, by simp⟩

/-- Under the fairness of R342 no wait is endless: a BLOCKED context leaves BLOCKED (R342, R336). -/
theorem FairHost.leaves_blocked {k : Nat} {ops : Nat → Instr} {run : Nat → State} (hr : HostRun ops run) (hf : FairHost k ops run)
    {n : Nat} {c : SendCtx} (hk : (run n).ctx k = some c) (hb : c.phase = .blocked) :
    ∃ m > n, ∃ d, (run m).ctx k = some d ∧ d.phase ≠ .blocked := by
  obtain ⟨m, hm, hop, d, hd, hw⟩ := hf n c hk hb
  exact ⟨m + 1, by omega, exec_sdPoll_woken k d _ _ hd hw (hop ▸ hr m)⟩

/-! ### Every instruction -/

/-- HD.DECODE and the representations. -/
def readsBlock : Instr → Bool
  | .hdDecode _ | .hdIndexed _ | .hdLitinc _ _ | .hdSizeupd _ | .hdLitno _ _ | .hdLitnever _ _ => true
  | _ => false

/-- What HD.DECODE and the representations can do: they end with a list, or with a DecodeError and DEC_FAULT set; the table is as
it was or within its limit (R190, R194, R44). -/
theorem exec_readsBlock (i : Instr) (s t : State) (hi : readsBlock i = true) (h : exec i s = .next t) :
   s.decFault = false ∧ ∃ d, (d = s.dec ∨ d.Bounded) ∧ ((∃ hs, t = (s.setTable .dec d).setResponse (.ok (.headers hs))) ∨ ∃ c k, t = ((s.setTable .dec d).setDecFault true ⟨c, k⟩).setResponse (.raised (.decodeError c k))) := by
  have hs : s.decFault = false := by
    cases h' : s.decFault with
    | false => rfl
    | true => 
      cases i <;> simp only [readsBlock] at hi <;> first | contradiction | (simp only [exec, execHdDecode, execHdIndexed, execHdLitinc, execHdLitno, execHdLitnever, execHdSizeupd, guardTable_stop _ _ h'] at h; contradiction)
  refine ⟨hs, ?_⟩
  by_cases hd : ∃ b, i = .hdDecode b
  · obtain ⟨b, rfl⟩ := hd
    rw [exec_decode _ _ hs, Host.Outcome.next.injEq] at h
    refine ⟨(decodeBlock ⟨s.dec, []⟩ b).state.table, decodeBlock_bounded _ _, ?_⟩
    rw [← h]; unfold decodeEnd; split
    · exact .inl ⟨_, rfl⟩
    · exact .inr ⟨_, _, rfl⟩
  · have hf : i.format = .hr := by cases i <;> simp only [readsBlock] at hi <;> first | rfl | contradiction | (exfalso; exact hd ⟨_, rfl⟩)
    rw [exec_rep i s hf, guardTable_pass .dec s _ (by simp [hs])] at h
    cases hE : effect s.decoding i with
    | error c => rw [hE] at h; refine ⟨s.dec, .inl rfl, .inr ⟨c, 0, ?_⟩⟩; simp [finishSingle, decodeFail] at h; rw [← h]; rfl
    | ok d =>
      rw [hE] at h
      refine ⟨d.table, ?_, .inl ⟨d.out, ?_⟩⟩
      · cases i <;> simp only [readsBlock] at hi <;> try contradiction
        all_goals simp only [effect] at hE
        · unfold Decoding.indexed at hE; split at hE <;> cases hE; exact .inl rfl
        · cases hl : literalHeader s.decoding.table _ _ with
          | error => rw [hl] at hE; cases hE
          | ok x => rw [hl] at hE; cases hE; exact .inr (DynTable.add_bounded _ _)
        · unfold Decoding.sizeUpd at hE; split at hE <;> cases hE; exact .inr (DynTable.setLimit_bounded _ _)
        · cases hl : literalHeader s.decoding.table _ _ with
          | error => rw [hl] at hE; cases hE
          | ok x => rw [hl] at hE; cases hE; exact .inl rfl
        · cases hl : literalHeader s.decoding.table _ _ with
          | error => rw [hl] at hE; cases hE
          | ok x => rw [hl] at hE; cases hE; exact .inl rfl
      · simp [finishSingle, decodeOk] at h; rw [← h]

/-- An answer that carries no byte of a DATA frame. -/
def quietResult : Response → Bool
  | .ok (.send _ fs) => decide ((fs.map DataFrameDesc.len).sum = 0)
  | _ => true

/-- What a next state of an instruction can be. -/
inductive Change (i : Instr) (s : State) : State → Prop
  | respond (r : Response) (hr : quietResult r = true) : Change i s (s.setResponse r)
  | cfg (u : SettingsUpdate) (hi : i = .cfgApply u) : Change i s ((s.setCfg (s.cfg.update u)).setResponse (.ok .done))
  | table (tid : TableId) (d : DynTable) (hi : (∃ n v, i = .dtAdd tid n v) ∨ ∃ n, i = .dtSetsize tid n) (hb : d.Bounded) : Change i s ((s.setTable tid d).setResponse (.ok .done))
  | encode (l : List EncEntry) (hi : i = .heEncode l) :
      Change i s ((s.setTable .enc (encodeEntries s.enc l).2).setResponse (.ok (.bytes (encodeEntries s.enc l).1)))
  | decoded (d : DynTable) (hs : List Header) (hi : readsBlock i = true) (hf : s.decFault = false) (hb : d = s.dec ∨ d.Bounded) :
      Change i s ((s.setTable .dec d).setResponse (.ok (.headers hs)))
  | decodeFailed (d : DynTable) (c : DecodeCause) (k : Nat) (hi : readsBlock i = true) (hf : s.decFault = false) (hb : d = s.dec ∨ d.Bounded) :
      Change i s (((s.setTable .dec d).setDecFault true ⟨c, k⟩).setResponse (.raised (.decodeError c k)))
  | opened (id : StreamId) (hi : i = .wcOpen id) (h0 : id ≠ 0) (hn : s.stream id = none) :
      Change i s ((s.setStream id (freshStream s.effInitialWindowSize)).setResponse (.ok .done))
  | connUpdated (d w : U32) (hi : i = .wcUpdate 0 d) (hw : w.toInt = s.connWindow.toInt + d.toInt) : Change i s ((s.setConnWindow w).setResponse (.ok .done))
  | streamUpdated (id : StreamId) (d w : U32) (e : StreamEntry) (hi : i = .wcUpdate id d) (h0 : id ≠ 0) (he : s.stream id = some e) (hw : w.toInt = e.window.toInt + d.toInt) :
      Change i s ((s.setStream id { e with window := w }).setResponse (.ok .done))
  | markedReset (id : StreamId) (e : StreamEntry) (hi : i = .wcRst id) (he : s.stream id = some e) : Change i s ((s.setStream id e.markReset).setResponse (.ok .done))
  | goaway (hi : i = .wcGoaway) : Change i s ((s.setGoawaySeen true).setResponse (.ok .done))
  | headersSent (id : StreamId) (b : Bool) (e : StreamEntry) (hi : i = .wcHdrs id b) (he : s.stream id = some e) (h1 : e.selfEndHeaders = false) (h2 : e.selfEndStream = false) :
      Change i s ((s.setStream id (e.markHeaders b)).setResponse (.ok .done))
  | emptySend (k : Nat) (sid : StreamId) (e : StreamEntry) (hi : i = .sdStart k sid 0 true) (hb : s.streamBusy sid = false) (he : s.stream sid = some e) (h1 : e.selfEndHeaders = true) (h2 : e.selfEndStream = false) :
      Change i s ((s.setStream sid e.markFinished).setResponse (.ok (.send .done [⟨sid, 0, true⟩])))
  | started (k : Nat) (sid : StreamId) (n : Nat) (w : Bool) (e : StreamEntry) (hi : i = .sdStart k sid n w) (hk : s.ctxBusy k = false) (hb : s.streamBusy sid = false)
      (he : s.stream sid = some e) (h1 : e.selfEndHeaders = true) (h2 : e.selfEndStream = false) (h3 : n ≠ 0) : Change i s ((s.setCtx k ⟨.run, sid, n, w⟩).setResponse (.ok (.send .started [])))
  | stepBlocked (k : Nat) (c : SendCtx) (e : StreamEntry) (hi : i = .sdStep k) (hk : s.ctx k = some c) (hp : c.phase = .run) (he : s.stream c.sid = some e) (hc : s.credit e ≤ 0) :
      Change i s ((s.setCtx k { c with phase := .blocked }).setResponse (.ok (.send .blocked [])))
  | stepFinal (k : Nat) (c : SendCtx) (e : StreamEntry) (hi : i = .sdStep k) (hk : s.ctx k = some c) (hp : c.phase = .run) (he : s.stream c.sid = some e) (hc : 0 < s.credit e)
      (hr : (c.remaining : Int) ≤ s.credit e) :
      Change i s (((s.charge c.sid (e.finishIf c.wantEnd) c.remaining).setCtx k { c with phase := .idle }).setResponse (.ok (.send .done [⟨c.sid, c.remaining, c.wantEnd⟩])))
  | stepPart (k : Nat) (c : SendCtx) (e : StreamEntry) (m : Nat) (ph : Phase) (st : SendStatus) (hi : i = .sdStep k) (hk : s.ctx k = some c) (hp : c.phase = .run) (he : s.stream c.sid = some e)
      (hm : 0 < m) (hc : (m : Int) = s.credit e) (hr : m < c.remaining) :
      Change i s (((s.charge c.sid e m).setCtx k { c with phase := ph, remaining := c.remaining - m }).setResponse (.ok (.send st [⟨c.sid, m, false⟩])))
  | polled (k : Nat) (c : SendCtx) (e : StreamEntry) (ph : Phase) (r : Response) (hi : i = .sdPoll k) (hk : s.ctx k = some c) (hp : c.phase = .blocked) (he : s.stream c.sid = some e)
      (hph : ph = .idle ∨ ph = .run) (hr : quietResult r = true) : Change i s ((s.setCtx k { c with phase := ph }).setResponse r)

/-- An operation that only answers. -/
theorem Change.of_answer {i : Instr} {s t : State} {r : Result} (h : answer s r = .next t) (hr : quietResult (.ok r) = true) : Change i s t := by
  simp only [answer_eq_next] at h; rw [← h]; exact .respond _ hr

/-- An operation that only raises (R301). -/
theorem Change.of_raise {i : Instr} {s t : State} {e : Error} (h : raise s e = .next t) : Change i s t := by
  simp only [raise_eq_next] at h; rw [← h]; exact .respond _ rfl

/-- Every next state is one of the changes. -/
theorem exec_change (i : Instr) (s t : State) (h : exec i s = .next t) : Change i s t := by
  by_cases hd : readsBlock i = true
  · obtain ⟨hs, d, hb, ⟨hs', rfl⟩ | ⟨c, k, rfl⟩⟩ := exec_readsBlock i s t hd h
    · exact .decoded d hs' hd hs hb
    · exact .decodeFailed d c k hd hs hb
  cases i <;> simp only [exec] at h
  case hdDecode | hdIndexed | hdLitinc | hdSizeupd | hdLitno | hdLitnever => simp [readsBlock] at hd
  case fhUnpack | fhPack | fhSplit | ftData | ftHeaders | ftPriority | ftRstStream | ftSettings | ftPushPromise | ftPing | ftGoaway | ftWindowUpdate | ftContinuation | ftUnknown => 
     exact .of_answer h rfl
  case fhParse => unfold execFhParse at h; split at h; exact .of_raise h; exact .of_answer h rfl
  case fhCreate => unfold execFhCreate at h; split at h; cases h; exact .of_answer h rfl
  case dtAdd tid n v =>
    obtain ⟨-, h⟩ := guardTable_next _ _ _ _ h
    simp only [answer_eq_next] at h; rw [← h]
    exact .table _ _ (.inl ⟨n, v, rfl⟩) (DynTable.add_bounded _ _)
  case dtGet tid n =>
    obtain ⟨-, h⟩ := guardTable_next _ _ _ _ h
    split at h
    · cases h
    · exact .of_answer h rfl
  case dtSetsize tid n =>
    obtain ⟨-, h⟩ := guardTable_next _ _ _ _ h
    split at h
    · cases h
    · simp only [answer_eq_next] at h; rw [← h]
      exact .table _ _ (.inr ⟨n, rfl⟩) (DynTable.setLimit_bounded _ _)
  case heEncode l => simp only [execHeEncode, answer_eq_next] at h; rw [← h]; exact .encode l rfl
  case cfgApply u => simp only [execCfgApply, answer_eq_next] at h; rw [← h]; exact .cfg u rfl
  case wcOpen id =>
    unfold execWcOpen at h
    split at h
    · cases h
    · split at h
      · exact .of_answer h rfl
      · split at h
        · cases h
        · split at h
          · cases h
          · simp only [answer_eq_next] at h; rw [← h]
            exact .opened id rfl ‹_› ‹_›
  case wcUpdate id d =>
    unfold execWcUpdate addWindow at h
    split at h
    · rename_i h0; subst h0
      split at h
      · cases h
      · rename_i w hw
        split at hw
        · rename_i hin; cases hw
          simp only [answer_eq_next] at h; rw [← h]
          refine .connUpdated d _ rfl (toInt_toS32 _ ?_ ?_) <;> simp [inS32] at hin <;> omega
        · cases hw
    · split at h
      · exact .of_raise h
      · split at h
        · cases h
        · rename_i e he _ w hw
          split at hw
          · rename_i hin; cases hw
            simp only [answer_eq_next] at h; rw [← h]
            refine .streamUpdated id d _ e rfl ‹_› he (toInt_toS32 _ ?_ ?_) <;> simp [inS32] at hin <;> omega
          · cases hw
  case wcRst id =>
    unfold execWcRst at h; split at h
    · exact .of_raise h
    · simp only [answer_eq_next] at h; rw [← h]
      exact .markedReset id _ rfl ‹_›
  case wcGoaway => 
    simp only [execWcGoaway, answer_eq_next] at h; rw [← h]; exact .goaway rfl
  case wcHdrs id b =>
    unfold execWcHdrs at h; split at h
    · exact .of_raise h
    · split at h
      · exact .of_raise h
      · split at h
        · exact .of_raise h
        · simp only [answer_eq_next] at h; rw [← h]
          exact .headersSent id b _ rfl ‹_› (Bool.eq_false_iff.mpr ‹_›) (Bool.eq_false_iff.mpr ‹_›)
  case wcCredit id =>
    unfold execWcCredit at h; split at h
    · exact .of_raise h
    · exact .of_answer h rfl
  case sdStart k sid n w =>
    unfold execSdStart at h
    split at h
    · cases h
    · split at h
      · cases h
      · split at h
        · exact .of_raise h
        · split at h
          · exact .of_raise h
          · split at h
            · exact .of_raise h
            · split at h
              · rename_i h0; subst h0
                split at h
                · rename_i hw; subst hw
                  simp only [answer_eq_next] at h; rw [← h]
                  exact .emptySend k sid _ rfl (Bool.eq_false_iff.mpr ‹_›) ‹_› ((Bool.not_eq_false _).mp ‹_›) (Bool.eq_false_iff.mpr ‹_›)
                · exact .of_answer h rfl
              · simp only [answer_eq_next] at h; rw [← h]
                exact .started k sid n w _ rfl (Bool.eq_false_iff.mpr ‹_›) (Bool.eq_false_iff.mpr ‹_›) ‹_› ((Bool.not_eq_false _).mp ‹_›) (Bool.eq_false_iff.mpr ‹_›) ‹_›
  case sdStep k =>
    unfold execSdStep at h
    split at h
    · cases h
    · split at h
      · cases h
      · split at h
        · cases h
        · rename_i c hk hph _ e he
          simp only [ne_eq, not_not] at hph
          split at h
          · simp only [Machine.stepBlock, answer_eq_next] at h; rw [← h]
            exact .stepBlocked k c e rfl hk hph he ‹_›
          · split at h
            · simp only [Machine.stepFinal, answer_eq_next] at h; rw [← h]
              exact .stepFinal k c e rfl hk hph he (by omega) ‹_›
            · simp only [Machine.stepPart, answer_eq_next] at h; rw [← h]
              exact .stepPart k c e (s.credit e).toNat _ _ rfl hk hph he (by omega) (by omega) (by omega)
  case sdPoll k =>
    unfold execSdPoll at h
    split at h
    · cases h
    · split at h
      · cases h
      · split at h
        · cases h
        · rename_i c hk hph _ e he
          simp only [ne_eq, not_not] at hph
          repeat' split at h
          · simp only [raise_eq_next] at h; rw [← h]; exact .polled k c e _ _ rfl hk hph he (.inl rfl) rfl
          · simp only [raise_eq_next] at h; rw [← h]; exact .polled k c e _ _ rfl hk hph he (.inl rfl) rfl
          · simp only [answer_eq_next] at h; rw [← h]; exact .polled k c e _ _ rfl hk hph he (.inr rfl) rfl
          · exact .of_answer h rfl

end Sys2Proof.Machine
end

