-- ==== Sys2Proof/Laws/PerInstr.lean ====
section
/-!
SUPPORT. The family LeadingByte: the encoding of a well-formed instruction begins with a byte that matches a row of its mnemonic
in spec/opcode_table.json.
-/

namespace Sys2Proof

/-- The (mask, match) pairs of the rows of an instruction's mnemonic, copied from spec/opcode_table.json. -/
def Laws.LeadingByte.rows : Instr → List (Nat × Nat)
  | .fhUnpack _ => [(0xFF, 0x01)]
  | .fhPack _ _ _ _ _ => [(0xFF, 0x02)]
  | .fhParse _ => [(0xFF, 0x03)]
  | .fhCreate _ _ _ _ _ _ => [(0xFF, 0x04)]
  | .fhSplit _ => [(0xFF, 0x05)]
  | .dtAdd _ _ _ => [(0xFF, 0x10)]
  | .dtGet _ _ => [(0xFF, 0x11)]
  | .dtSetsize _ _ => [(0xFF, 0x12)]
  | .hdDecode _ => [(0xFF, 0x20)]
  | .heEncode _ => [(0xFF, 0x28)]
  | .wcOpen _ => [(0xFF, 0x30)]
  | .wcUpdate _ _ => [(0xFF, 0x31)]
  | .wcRst _ => [(0xFF, 0x32)]
  | .wcGoaway => [(0xFF, 0x33)]
  | .wcHdrs _ _ => [(0xFF, 0x34)]
  | .wcCredit _ => [(0xFF, 0x35)]
  | .sdStart _ _ _ _ => [(0xFF, 0x38)]
  | .sdStep _ => [(0xFF, 0x39)]
  | .sdPoll _ => [(0xFF, 0x3A)]
  | .cfgApply _ => [(0xFF, 0x40)]
  | .hdIndexed _ => [(0x80, 0x80)]
  | .hdLitinc _ _ => [(0xC0, 0x40)]
  | .hdSizeupd _ => [(0xE0, 0x20)]
  | .hdLitno _ _ => [(0xF0, 0x00)]
  | .hdLitnever _ _ => [(0xF0, 0x10)]
  | .ftData => [(0xFF, 0x00)]
  | .ftHeaders => [(0xFF, 0x01)]
  | .ftPriority => [(0xFF, 0x02)]
  | .ftRstStream => [(0xFF, 0x03)]
  | .ftSettings => [(0xFF, 0x04)]
  | .ftPushPromise => [(0xFF, 0x05)]
  | .ftPing => [(0xFF, 0x06)]
  | .ftGoaway => [(0xFF, 0x07)]
  | .ftWindowUpdate => [(0xFF, 0x08)]
  | .ftContinuation => [(0xFF, 0x09)]
  | .ftUnknown _ => [(0xFE, 0x0A), (0xFC, 0x0C), (0xF0, 0x10), (0xE0, 0x20), (0xC0, 0x40), (0x80, 0x80)]

/-- The first byte of the encoding matches a row. -/
def Laws.LeadingByte.Statement (i : Instr) : Prop :=
  i.wf = true → ∃ (b : Byte) (rest : Bytes), encode i = b :: rest ∧ ∃ r ∈ Laws.LeadingByte.rows i, b.toNat &&& r.1 = r.2

/-- A prefix integer begins with its pattern bits and a prefix (R172). -/
theorem intEnc_cons (v n : Nat) (hi : Byte) : ∃ x l, intEnc v n hi = (hi ||| BitVec.ofNat 8 x) :: l ∧ x < 2 ^ n := by
  have := Nat.two_pow_pos n
  unfold intEnc
  split
  · exact ⟨v, [], rfl, by omega⟩
  · exact ⟨_, _, rfl, by omega⟩

/-- The name part of a literal begins with its pattern bits and a prefix (R96). -/
theorem nameRef_cons (n : Nat) (hi : Byte) (name : NameRef) :
    ∃ x l, name.encode n hi = (hi ||| BitVec.ofNat 8 x) :: l ∧ x < 2 ^ n := by
  cases name with
  | indexed i => exact intEnc_cons i n hi
  | inline w =>
    obtain ⟨x, l, e, hx⟩ := intEnc_cons 0 n hi
    exact ⟨x, l ++ w.encode, by simp [NameRef.encode, e], hx⟩

theorem Laws.LeadingByte.fhUnpack (h : HeaderBytes) : Laws.LeadingByte.Statement (.fhUnpack h) :=
  fun _ => ⟨_, _, rfl, _, List.mem_singleton.mpr rfl, rfl⟩

theorem Laws.LeadingByte.fhPack (length : U24) (typeRaw flags : Byte) (rsv : BitVec 1) (streamId : StreamId)
    : Laws.LeadingByte.Statement (.fhPack length typeRaw flags rsv streamId) :=
  fun _ => ⟨_, _, rfl, _, List.mem_singleton.mpr rfl, rfl⟩

theorem Laws.LeadingByte.fhParse (b : Bytes) : Laws.LeadingByte.Statement (.fhParse b) :=
  fun _ => ⟨_, _, rfl, _, List.mem_singleton.mpr rfl, rfl⟩

theorem Laws.LeadingByte.fhCreate (streamId : StreamId) (typeRaw flags : Byte) (priority payload padding : Bytes)
    : Laws.LeadingByte.Statement (.fhCreate streamId typeRaw flags priority payload padding) :=
  fun _ => ⟨_, _, rfl, _, List.mem_singleton.mpr rfl, rfl⟩

theorem Laws.LeadingByte.fhSplit (b : Bytes) : Laws.LeadingByte.Statement (.fhSplit b) :=
  fun _ => ⟨_, _, rfl, _, List.mem_singleton.mpr rfl, rfl⟩

theorem Laws.LeadingByte.dtAdd (t : TableId) (name value : Bytes)
    : Laws.LeadingByte.Statement (.dtAdd t name value) :=
  fun _ => ⟨_, _, rfl, _, List.mem_singleton.mpr rfl, rfl⟩

theorem Laws.LeadingByte.dtGet (t : TableId) (p : Nat) : Laws.LeadingByte.Statement (.dtGet t p) :=
  fun _ => ⟨_, _, rfl, _, List.mem_singleton.mpr rfl, rfl⟩

theorem Laws.LeadingByte.dtSetsize (t : TableId) (limit : Nat) : Laws.LeadingByte.Statement (.dtSetsize t limit) :=
  fun _ => ⟨_, _, rfl, _, List.mem_singleton.mpr rfl, rfl⟩

theorem Laws.LeadingByte.hdDecode (b : Bytes) : Laws.LeadingByte.Statement (.hdDecode b) :=
  fun _ => ⟨_, _, rfl, _, List.mem_singleton.mpr rfl, rfl⟩

theorem Laws.LeadingByte.heEncode (entries : List EncEntry) : Laws.LeadingByte.Statement (.heEncode entries) :=
  fun _ => ⟨_, _, rfl, _, List.mem_singleton.mpr rfl, rfl⟩

theorem Laws.LeadingByte.wcOpen (id : StreamId) : Laws.LeadingByte.Statement (.wcOpen id) :=
  fun _ => ⟨_, _, rfl, _, List.mem_singleton.mpr rfl, rfl⟩

theorem Laws.LeadingByte.wcUpdate (id : StreamId) (delta : U32) : Laws.LeadingByte.Statement (.wcUpdate id delta) :=
  fun _ => ⟨_, _, rfl, _, List.mem_singleton.mpr rfl, rfl⟩

theorem Laws.LeadingByte.wcRst (id : StreamId) : Laws.LeadingByte.Statement (.wcRst id) :=
  fun _ => ⟨_, _, rfl, _, List.mem_singleton.mpr rfl, rfl⟩

theorem Laws.LeadingByte.wcGoaway : Laws.LeadingByte.Statement (.wcGoaway) :=
  fun _ => ⟨_, _, rfl, _, List.mem_singleton.mpr rfl, rfl⟩

theorem Laws.LeadingByte.wcHdrs (id : StreamId) (endStream : Bool)
    : Laws.LeadingByte.Statement (.wcHdrs id endStream) :=
  fun _ => ⟨_, _, rfl, _, List.mem_singleton.mpr rfl, rfl⟩

theorem Laws.LeadingByte.wcCredit (id : StreamId) : Laws.LeadingByte.Statement (.wcCredit id) :=
  fun _ => ⟨_, _, rfl, _, List.mem_singleton.mpr rfl, rfl⟩

theorem Laws.LeadingByte.sdStart (k : Nat) (sid : StreamId) (n : Nat) (wantEnd : Bool)
    : Laws.LeadingByte.Statement (.sdStart k sid n wantEnd) :=
  fun _ => ⟨_, _, rfl, _, List.mem_singleton.mpr rfl, rfl⟩

theorem Laws.LeadingByte.sdStep (k : Nat) : Laws.LeadingByte.Statement (.sdStep k) :=
  fun _ => ⟨_, _, rfl, _, List.mem_singleton.mpr rfl, rfl⟩

theorem Laws.LeadingByte.sdPoll (k : Nat) : Laws.LeadingByte.Statement (.sdPoll k) :=
  fun _ => ⟨_, _, rfl, _, List.mem_singleton.mpr rfl, rfl⟩

theorem Laws.LeadingByte.cfgApply (u : SettingsUpdate) : Laws.LeadingByte.Statement (.cfgApply u) :=
  fun _ => ⟨_, _, rfl, _, List.mem_singleton.mpr rfl, rfl⟩

theorem Laws.LeadingByte.hdIndexed (i : Nat) : Laws.LeadingByte.Statement (.hdIndexed i) := by
  intro _
  obtain ⟨x, l, e, hx⟩ := intEnc_cons i 7 0x80
  refine ⟨0x80 ||| BitVec.ofNat 8 x, l, e, _, List.mem_singleton.mpr rfl, ?_⟩
  clear e; revert hx; revert x; decide +kernel

theorem Laws.LeadingByte.hdLitinc (name : NameRef) (value : WireString)
    : Laws.LeadingByte.Statement (.hdLitinc name value) := by
  intro _
  obtain ⟨x, l, e, hx⟩ := nameRef_cons 6 0x40 name
  refine ⟨0x40 ||| BitVec.ofNat 8 x, l ++ value.encode, by simp only [encode, e, List.cons_append], _, List.mem_singleton.mpr rfl, ?_⟩
  clear e; revert hx; revert x; decide +kernel

theorem Laws.LeadingByte.hdSizeupd (size : Nat) : Laws.LeadingByte.Statement (.hdSizeupd size) := by
  intro _
  obtain ⟨x, l, e, hx⟩ := intEnc_cons size 5 0x20
  refine ⟨0x20 ||| BitVec.ofNat 8 x, l, e, _, List.mem_singleton.mpr rfl, ?_⟩
  clear e; revert hx; revert x; decide +kernel

theorem Laws.LeadingByte.hdLitno (name : NameRef) (value : WireString)
    : Laws.LeadingByte.Statement (.hdLitno name value) := by
  intro _
  obtain ⟨x, l, e, hx⟩ := nameRef_cons 4 0x00 name
  refine ⟨0x00 ||| BitVec.ofNat 8 x, l ++ value.encode, by simp only [encode, e, List.cons_append], _, List.mem_singleton.mpr rfl, ?_⟩
  clear e; revert hx; revert x; decide +kernel

theorem Laws.LeadingByte.hdLitnever (name : NameRef) (value : WireString)
    : Laws.LeadingByte.Statement (.hdLitnever name value) := by
  intro _
  obtain ⟨x, l, e, hx⟩ := nameRef_cons 4 0x10 name
  refine ⟨0x10 ||| BitVec.ofNat 8 x, l ++ value.encode, by simp only [encode, e, List.cons_append], _, List.mem_singleton.mpr rfl, ?_⟩
  clear e; revert hx; revert x; decide +kernel

theorem Laws.LeadingByte.ftData : Laws.LeadingByte.Statement (.ftData) :=
  fun _ => ⟨_, _, rfl, _, List.mem_singleton.mpr rfl, rfl⟩

theorem Laws.LeadingByte.ftHeaders : Laws.LeadingByte.Statement (.ftHeaders) :=
  fun _ => ⟨_, _, rfl, _, List.mem_singleton.mpr rfl, rfl⟩

theorem Laws.LeadingByte.ftPriority : Laws.LeadingByte.Statement (.ftPriority) :=
  fun _ => ⟨_, _, rfl, _, List.mem_singleton.mpr rfl, rfl⟩

theorem Laws.LeadingByte.ftRstStream : Laws.LeadingByte.Statement (.ftRstStream) :=
  fun _ => ⟨_, _, rfl, _, List.mem_singleton.mpr rfl, rfl⟩

theorem Laws.LeadingByte.ftSettings : Laws.LeadingByte.Statement (.ftSettings) :=
  fun _ => ⟨_, _, rfl, _, List.mem_singleton.mpr rfl, rfl⟩

theorem Laws.LeadingByte.ftPushPromise : Laws.LeadingByte.Statement (.ftPushPromise) :=
  fun _ => ⟨_, _, rfl, _, List.mem_singleton.mpr rfl, rfl⟩

theorem Laws.LeadingByte.ftPing : Laws.LeadingByte.Statement (.ftPing) :=
  fun _ => ⟨_, _, rfl, _, List.mem_singleton.mpr rfl, rfl⟩

theorem Laws.LeadingByte.ftGoaway : Laws.LeadingByte.Statement (.ftGoaway) :=
  fun _ => ⟨_, _, rfl, _, List.mem_singleton.mpr rfl, rfl⟩

theorem Laws.LeadingByte.ftWindowUpdate : Laws.LeadingByte.Statement (.ftWindowUpdate) :=
  fun _ => ⟨_, _, rfl, _, List.mem_singleton.mpr rfl, rfl⟩

theorem Laws.LeadingByte.ftContinuation : Laws.LeadingByte.Statement (.ftContinuation) :=
  fun _ => ⟨_, _, rfl, _, List.mem_singleton.mpr rfl, rfl⟩

theorem Laws.LeadingByte.ftUnknown (typeRaw : Byte) : Laws.LeadingByte.Statement (.ftUnknown typeRaw) := by
  intro hw
  refine ⟨typeRaw, [], rfl, ?_⟩
  revert hw; revert typeRaw; decide +kernel

end Sys2Proof
end

