-- ==== Sys2Proof/Tests/Slice0.lean ====
section
/-!
SUPPORT. The model's own tests: ill-formed terms the checks of WellFormed refuse, one word of every instruction written out from
the spec's encodings, one-step vectors of spec/95_test_vectors.md (named by their ids), and a witness for the hypotheses of
every obligation that has some. Expected values are the spec's.
-/

namespace Sys2Proof.Tests

open Sys2Proof.Machine Sys2Proof.Claims

set_option Elab.async false

/-! ### Helpers -/

/-- The state an answer gives, if it gives one. -/
def stateOf : Answer → Option State
  | .next s => some s
  | _ => none

/-- The response of the state an answer gives. -/
def responseOf (a : Answer) : Option Response := (stateOf a).map State.response

/-- The name an answer is refused under. -/
def refusalOf : Answer → Option Refusal
  | .refused r => some r
  | _ => none

/-- The instruction bytes decode to, if any. -/
def decoded (fmt : Format) (b : Bytes) : Option Instr :=
  match decode fmt b with
  | .ok i => some i
  | .error _ => none

/-- What bytes are rejected as. -/
def rejected (fmt : Format) (b : Bytes) : Option Reject :=
  match decode fmt b with
  | .ok _ => none
  | .error r => some r

/-- Reset with one decoder table. -/
def withDec (ent : List Header) (limit : U32) : State := { State.reset with dec := ⟨ent, limit⟩ }

/-- Reset with one encoder table. -/
def withEnc (ent : List Header) : State := { State.reset with enc := ⟨ent, 4096⟩ }

/-- Reset with stream 5 as given, a connection window, context 0 as given, and frames of at most 400 bytes. -/
def sending (conn : U32) (e : StreamEntry) (c : SendCtx) : State :=
  { State.reset with
    cfg := { State.reset.cfg with maxFrameSize := ⟨true, 400⟩ }
    connWindow := conn, streams := [(5, e)], sendCtx := [c, .fresh] }

/-- A stream with its headers sent. -/
def openStream (window : U32) : StreamEntry := ⟨window, false, true, false⟩

/-- A decoder that has failed. -/
def faulted : State := { State.reset with decFault := true }

/-- Reset with one issue. -/
def issued (fmt : Format) (b : Bytes) : State := { State.reset with inbox := [⟨fmt, b⟩] }

/-- `("custom-key", "custom-header")` of V-DT1. -/
def custom : Header := ⟨ascii "custom-key", ascii "custom-header"⟩

/-- A raw encoder entry. -/
def raw (name value : String) (idx : IdxMode) : EncEntry := ⟨ascii name, ascii value, idx, .raw⟩

/-- A raw wire string. -/
def rawString (t : String) : WireString := ⟨false, ascii t⟩

/-! ### WellFormed refuses -/

theorem test_wf_byteString (b : Bytes) (h : b.length = 2 ^ 32) : (Instr.fhParse b).wf = false := by
  simp [Instr.wf, Bytes.fits, h]

theorem test_wf_entries (l : List EncEntry) (h : l.length = 2 ^ 32) : (Instr.heEncode l).wf = false := by
  simp [Instr.wf, h]

theorem test_wf_encEntry (b : Bytes) (h : b.length = 2 ^ 32) : (Instr.heEncode [⟨[], b, .index, .raw⟩]).wf = false := by
  simp [Instr.wf, EncEntry.fits, Bytes.fits, h]

theorem test_wf_inlineName (b : Bytes) (h : b.length = 2 ^ 32) : (Instr.hdLitno (.inline ⟨false, b⟩) ⟨false, []⟩).wf = false := by
  simp [Instr.wf, NameRef.fits, WireString.fits, intFits, Config.intMax, Config.intBits, h]

theorem test_wf_natural : (Instr.sdStep (2 ^ 64)).wf = false := by decide

theorem test_wf_prefixInteger : (Instr.hdSizeupd (2 ^ 32)).wf = false := by decide

theorem test_wf_nameIndexZero : (Instr.hdLitno (.indexed 0) ⟨false, []⟩).wf = false := by decide

theorem test_wf_wireString (b : Bytes) (h : b.length = 2 ^ 32) : (Instr.hdLitno (.indexed 1) ⟨false, b⟩).wf = false := by
  simp [Instr.wf, NameRef.fits, WireString.fits, intFits, Config.intMax, Config.intBits, h]

theorem test_wf_knownFrameType : (Instr.ftUnknown 9).wf = false := by decide

/-! ### Decoding: words written out from R91, R92, R95, R102 (operand layout: log 2) -/

theorem test_decode_fhUnpack : decoded .cmd [0x01, 0x00, 0x40, 0x00, 0x01, 0x05, 0x80, 0x00, 0x00, 0x2A]
    = some (.fhUnpack ⟨0x00, 0x40, 0x00, 0x01, 0x05, 0x80, 0x00, 0x00, 0x2A⟩) := by decide +kernel

theorem test_decode_fhPack : decoded .cmd [0x02, 0x01, 0x02, 0x03, 0x09, 0x04, 0x01, 0x00, 0x00, 0x00, 0x03]
    = some (.fhPack 0x010203 9 4 1 3) := by decide +kernel

theorem test_decode_fhParse : decoded .cmd [0x03, 0, 0, 0, 2, 0xAA, 0xBB] = some (.fhParse [0xAA, 0xBB]) := by decide +kernel

theorem test_decode_fhCreate :
    decoded .cmd [0x04, 0, 0, 0, 3, 1, 0x08, 0, 0, 0, 0, 0, 0, 0, 1, 0xAA, 0, 0, 0, 2, 0, 1]
      = some (.fhCreate 3 1 0x08 [] [0xAA] [0, 1]) := by decide +kernel

theorem test_decode_fhSplit : decoded .cmd [0x05, 0, 0, 0, 1, 0xAA] = some (.fhSplit [0xAA]) := by decide +kernel

theorem test_decode_dtAdd : decoded .cmd [0x10, 1, 0, 0, 0, 1, 0x65, 0, 0, 0, 1, 0x66]
    = some (.dtAdd .dec [0x65] [0x66]) := by decide +kernel

theorem test_decode_dtGet : decoded .cmd [0x11, 0, 0, 0, 0, 0, 0, 0, 1, 2] = some (.dtGet .enc 258) := by decide +kernel

theorem test_decode_dtSetsize : decoded .cmd [0x12, 1, 0, 0, 0, 0, 0, 0, 0, 100] = some (.dtSetsize .dec 100) := by
  decide +kernel

theorem test_decode_hdDecode : decoded .cmd [0x20, 0, 0, 0, 2, 0x82, 0x85] = some (.hdDecode [0x82, 0x85]) := by
  decide +kernel

theorem test_decode_heEncode :
    decoded .cmd [0x28, 0, 0, 0, 1, 0, 0, 0, 1, 0x78, 0, 0, 0, 1, 0x79, 1, 2]
      = some (.heEncode [⟨[0x78], [0x79], .noIndex, .huff⟩]) := by decide +kernel

theorem test_decode_wcOpen : decoded .cmd [0x30, 0x7F, 0xFF, 0xFF, 0xFF] = some (.wcOpen 2147483647) := by decide +kernel

theorem test_decode_wcUpdate : decoded .cmd [0x31, 0, 0, 0, 0, 0xFF, 0xFF, 0xFF, 0xFF] = some (.wcUpdate 0 (-1)) := by
  decide +kernel

theorem test_decode_wcRst : decoded .cmd [0x32, 0, 0, 0, 9] = some (.wcRst 9) := by decide +kernel

theorem test_decode_wcGoaway : decoded .cmd [0x33] = some .wcGoaway := by decide +kernel

theorem test_decode_wcHdrs : decoded .cmd [0x34, 0, 0, 0, 1, 1] = some (.wcHdrs 1 true) := by decide +kernel

theorem test_decode_wcCredit : decoded .cmd [0x35, 0, 0, 1, 0] = some (.wcCredit 256) := by decide +kernel

theorem test_decode_sdStart :
    decoded .cmd [0x38, 0, 0, 0, 0, 0, 0, 0, 1, 0, 0, 0, 3, 0, 0, 0, 0, 0, 0, 3, 0x84, 0]
      = some (.sdStart 1 3 900 false) := by decide +kernel

theorem test_decode_sdStep : decoded .cmd [0x39, 0, 0, 0, 0, 0, 0, 0, 1] = some (.sdStep 1) := by decide +kernel

theorem test_decode_sdPoll : decoded .cmd [0x3A, 0, 0, 0, 0, 0, 0, 0, 0] = some (.sdPoll 0) := by decide +kernel

theorem test_decode_cfgApply : decoded .cmd [0x40, 0, 0, 0, 1, 0, 0, 0x03, 0xE8, 1, 0, 0, 0x01, 0x90, 0]
    = some (.cfgApply ⟨none, none, none, some 1000, some 400, none⟩) := by decide +kernel

/-- R95, R112: the index 0 is decoded; its meaning fails. -/
theorem test_decode_hdIndexed : decoded .hr [0xFF, 0x01] = some (.hdIndexed 128) ∧ decoded .hr [0x80] = some (.hdIndexed 0) := by
  decide +kernel

theorem test_decode_hdLitinc : decoded .hr [0x7F, 0x00, 0x01, 0x61]
    = some (.hdLitinc (.indexed 63) ⟨false, [0x61]⟩) := by decide +kernel

theorem test_decode_hdSizeupd : decoded .hr [0x3F, 0x00] = some (.hdSizeupd 31) := by decide +kernel

theorem test_decode_hdLitno : decoded .hr [0x00, 0x85, 1, 2, 3, 4, 5, 0x01, 0x79]
    = some (.hdLitno (.inline ⟨true, [1, 2, 3, 4, 5]⟩) ⟨false, [0x79]⟩) := by decide +kernel

theorem test_decode_hdLitnever : decoded .hr [0x1F, 0x30, 0x05, 0x6F, 0x74, 0x68, 0x65, 0x72]
    = some (.hdLitnever (.indexed 63) (rawString "other")) := by decide +kernel

/-- R92: the eleven frame types. -/
theorem test_decode_frameTypes :
    [0, 1, 2, 3, 4, 5, 6, 7, 8, 9, 10, 255].map (fun t => decoded .fh [t])
      = [some .ftData, some .ftHeaders, some .ftPriority, some .ftRstStream, some .ftSettings, some .ftPushPromise,
        some .ftPing, some .ftGoaway, some .ftWindowUpdate, some .ftContinuation, some (.ftUnknown 10),
        some (.ftUnknown 255)] := by decide +kernel

/-- R113: unlisted opcodes; log 16: the port's own rejections. -/
theorem test_decode_rejects :
    [0x00, 0x06, 0x13, 0x21, 0x36, 0x3B, 0x41, 0xFF].all (fun o => decide (rejected .cmd [o] = some (.unknownCommand o))) = true
      ∧ rejected .cmd [0x30, 0, 0, 0] = some .incomplete
      ∧ rejected .cmd [0x30, 0x80, 0, 0, 1] = some .malformedOperand
      ∧ rejected .cmd [0x33, 0] = some .excessBytes := by decide +kernel

/-- Log 4: a bare table word, and the step that runs it first after reset. -/
theorem test_tableWord : decodeTableWord 8 0x82 = some (.hdIndexed 2) ∧ decodeTableWord 8 0x30 = some (.wcOpen 0)
    ∧ responseOf (step (State.reset.withFetchWord 8 0x33)) = some (.ok .done)
    ∧ responseOf (step (State.reset.withFetchWord 8 0x00)) = some (.ok (.frameClass .data)) := by decide +kernel

/-! ### One-step vectors of spec/95_test_vectors.md -/

/-- V-FH5. -/
theorem test_fhUnpack_reserved :
    responseOf (exec (.fhUnpack ⟨0x00, 0x40, 0x00, 0x01, 0x05, 0x80, 0x00, 0x00, 0x2A⟩) .reset)
      = some (.ok (.frameHeader ⟨16384, 1, .headers, 5, 1, 42⟩)) := by decide +kernel

/-- V-FH7. -/
theorem test_fhPack : responseOf (exec (.fhPack 0 9 4 0 3) .reset) = some (.ok (.bytes [0, 0, 0, 9, 4, 0, 0, 0, 3])) := by
  decide +kernel

/-- V-FH9. -/
theorem test_fhParse_regions :
    responseOf (exec (.fhParse [0, 0, 0x0B, 0x01, 0x2C, 0, 0, 0, 3, 2, 0x80, 0, 0, 0, 0x0F, 0xAA, 0xBB, 0xCC, 0, 0]) .reset)
      = some (.ok (.frame ⟨⟨11, 1, .headers, 0x2C, 0, 3⟩, 2, ⟨1, 5⟩, ⟨6, 3⟩, ⟨9, 2⟩⟩)) := by decide +kernel

/-- V-FH11. -/
theorem test_fhParse_padding : responseOf (exec (.fhParse [0, 0, 3, 0, 8, 0, 0, 0, 1, 3, 0xAA, 0xBB]) .reset)
    = some (.raised (.malformedFrame .paddingExceedsLength)) := by decide +kernel

/-- V-FH22. -/
theorem test_fhCreate : responseOf (exec (.fhCreate 1 0 0x09 [] [0x68, 0x69] [0, 0, 0]) .reset)
    = some (.ok (.bytes [0, 0, 6, 0, 9, 0, 0, 0, 1, 3, 0x68, 0x69, 0, 0, 0])) := by decide +kernel

/-- V-FH27. -/
theorem test_fhCreate_refuses : refusalOf (exec (.fhCreate 1 0 0x08 [] [] (List.replicate 256 0)) .reset) = some .badOperand := by
  decide +kernel

/-- V-FH28. -/
theorem test_fhSplit :
    responseOf (exec (.fhSplit [0, 0, 0, 4, 1, 0, 0, 0, 0, 0, 0, 4, 8, 0, 0, 0, 0, 0, 0, 0, 0xFF, 0xFF]) .reset)
      = some (.ok (.slices [⟨0, 9⟩, ⟨9, 13⟩] 0)) := by decide +kernel

/-- V-DT2, the second DT.ADD: 40 + 62 exceeds 100, the oldest goes. -/
theorem test_dtAdd_evicts :
    (stateOf (exec (.dtAdd .dec (ascii "cccccccccc") (ascii "dddddddddddddddddddd"))
      (withDec [⟨ascii "aaaa", ascii "bbbb"⟩] 100))).map (fun s => s.dec.ent)
      = some [⟨ascii "cccccccccc", ascii "dddddddddddddddddddd"⟩] := by decide +kernel

/-- V-DT2, DT.GET past the end. -/
theorem test_dtGet_refuses : refusalOf (exec (.dtGet .dec 1) (withDec [custom] 100)) = some .badOperand := by decide +kernel

/-- V-DT3: a limit equal to the size keeps the entry, one below it does not. -/
theorem test_dtSetsize :
    (stateOf (exec (.dtSetsize .dec 55) (withDec [custom] 4096))).map (fun s => s.dec) = some ⟨[custom], 55⟩
      ∧ (stateOf (exec (.dtSetsize .dec 54) (withDec [custom] 4096))).map (fun s => s.dec) = some ⟨[], 54⟩ := by
  decide +kernel

/-- V-HD15: what completed before the failure stays. -/
theorem test_hdDecode_fails : stateOf (exec (.hdDecode [0x40, 1, 0x61, 1, 0x62, 0x80]) .reset) = some { State.reset with
    dec := ⟨[⟨[0x61], [0x62]⟩], 4096⟩, decFault := true, decFaultCause := ⟨.indexOutOfRange, 5⟩,
    response := .raised (.decodeError .indexOutOfRange 5) } := by decide +kernel

/-- V-HD11. -/
theorem test_hdDecode_sequence :
    responseOf (exec (.hdDecode [0x3F, 0xE1, 0x1F, 0x41, 0x0F, 0x77, 0x77, 0x77, 0x2E, 0x65, 0x78, 0x61, 0x6D, 0x70, 0x6C, 0x65,
      0x2E, 0x63, 0x6F, 0x6D, 0xBE]) (withDec [] 0))
      = some (.ok (.headers [⟨ascii ":authority", ascii "www.example.com"⟩, ⟨ascii ":authority", ascii "www.example.com"⟩])) := by
  decide +kernel

/-- V-HD3, V-HD12. -/
theorem test_hdIndexed : responseOf (exec (.hdIndexed 62) (withDec [custom] 4096)) = some (.ok (.headers [custom]))
    ∧ responseOf (exec (.hdIndexed 0) .reset) = some (.raised (.decodeError .indexOutOfRange 0)) := by decide +kernel

/-- V-HD6. -/
theorem test_hdLitinc :
    (stateOf (exec (.hdLitinc (.indexed 62) (rawString "a")) (withDec [custom] 4096))).map (fun s => s.dec.ent)
      = some [⟨ascii "custom-key", ascii "a"⟩, custom] := by decide +kernel

/-- V-HD9. -/
theorem test_hdSizeupd : (stateOf (exec (.hdSizeupd 0) (withDec [custom] 4096))).map (fun s => s.dec) = some ⟨[], 0⟩ := by
  decide +kernel

/-- V-HD4. -/
theorem test_hdLitno : responseOf (exec (.hdLitno (.indexed 4) (rawString "/sample/path")) .reset)
    = some (.ok (.headers [⟨ascii ":path", ascii "/sample/path"⟩])) := by decide +kernel

/-- V-HD5. -/
theorem test_hdLitnever : responseOf (exec (.hdLitnever (.inline (rawString "password")) (rawString "secret")) .reset)
    = some (.ok (.headers [⟨ascii "password", ascii "secret"⟩])) := by decide +kernel

/-- V-HE10 on an empty table. -/
theorem test_heEncode_indexing :
    responseOf (exec (.heEncode [raw "a" "b" .index, raw "a" "b" .index, raw "a" "c" .index]) .reset)
      = some (.ok (.bytes [0x40, 1, 0x61, 1, 0x62, 0xBE, 0x7E, 1, 0x63])) := by decide +kernel

/-- V-HE7: name index 63 in a 4-bit prefix; nothing is added. -/
theorem test_heEncode_never :
    stateOf (exec (.heEncode [raw "custom-key" "other" .never]) (withEnc [⟨ascii ":authority", ascii "www.example.com"⟩, custom]))
      = some { withEnc [⟨ascii ":authority", ascii "www.example.com"⟩, custom] with
        response := .ok (.bytes [0x1F, 0x30, 5, 0x6F, 0x74, 0x68, 0x65, 0x72]) } := by decide +kernel

/-- V-WC1, V-WC6. -/
theorem test_wcOpen : (stateOf (exec (.wcOpen 1) .reset)).map (fun s => s.streams) = some [(1, ⟨65535, false, false, false⟩)]
    ∧ refusalOf (exec (.wcOpen 1)
        { State.reset with cfg := { State.reset.cfg with initialWindowSize := ⟨true, 2147483648⟩ } }) = some .badOperand := by
  decide +kernel

/-- V-WC2: the ends of the signed range. -/
theorem test_wcUpdate_range :
    (stateOf (exec (.wcUpdate 0 2147418112) .reset)).map (fun s => s.connWindow.toInt) = some 2147483647
      ∧ refusalOf (exec (.wcUpdate 0 2147418113) .reset) = some .windowOverflow := by decide +kernel

/-- V-WC2: the lower end. -/
theorem test_wcUpdate_negative :
    (stateOf (exec (.wcUpdate 0 (-1)) { State.reset with connWindow := -2147483647 })).map (fun s => s.connWindow.toInt)
        = some (-2147483648)
      ∧ refusalOf (exec (.wcUpdate 0 (-2)) { State.reset with connWindow := -2147483647 }) = some .windowOverflow := by
  decide +kernel

/-- V-WC1, V-WC4. -/
theorem test_wcRst : responseOf (exec (.wcRst 9) .reset) = some (.raised (.protocolError 9))
    ∧ (stateOf (exec (.wcRst 5) (sending 0 (openStream 0) .fresh))).map (fun s => s.streams)
        = some [(5, ⟨0, true, true, false⟩)] := by decide +kernel

/-- R237. -/
theorem test_wcGoaway : (stateOf (exec .wcGoaway .reset)).map (fun s => s.goawaySeen) = some true := by decide +kernel

/-- V-WC1: StreamClosed is tested before HeadersSent. -/
theorem test_wcHdrs_order : responseOf (exec (.wcHdrs 5 false) (sending 0 ⟨0, false, true, true⟩ .fresh))
    = some (.raised (.streamClosed 5)) := by decide +kernel

/-- V-WC1: both marks at once. -/
theorem test_wcHdrs : (stateOf (exec (.wcHdrs 5 true) (sending 0 ⟨0, false, false, false⟩ .fresh))).map (fun s => s.streams)
    = some [(5, ⟨0, false, true, true⟩)] := by decide +kernel

/-- V-WC1: 16384 is the least of the three; R232: a negative window is the credit. -/
theorem test_wcCredit :
    responseOf (exec (.wcCredit 1) { State.reset with streams := [(1, ⟨65535, false, false, false⟩)] })
        = some (.ok (.credit 16384))
      ∧ responseOf (exec (.wcCredit 5) (sending (-1) (openStream 7) .fresh)) = some (.ok (.credit (-1))) := by decide +kernel

/-- V-WC1. -/
theorem test_sdStart_empty : responseOf (exec (.sdStart 0 5 0 true) (sending 0 (openStream 0) .fresh))
    = some (.ok (.send .done [⟨5, 0, true⟩])) := by decide +kernel

/-- V-WC3. -/
theorem test_sdStart_busy :
    refusalOf (exec (.sdStart 1 5 10 false) (sending 0 (openStream 0) ⟨.run, 5, 10, false⟩)) = some .busy := by decide +kernel

/-- P3, the sixth line of steps: credit min(400, 300, 600) goes out and the connection window is exhausted. -/
theorem test_sdStep_blocks : responseOf (exec (.sdStep 0) (sending 300 (openStream 600) ⟨.run, 5, 500, false⟩))
    = some (.ok (.send .blocked [⟨5, 300, false⟩])) := by decide +kernel

/-- P3, the last step: the final frame. -/
theorem test_sdStep_final : responseOf (exec (.sdStep 0) (sending 500 (openStream 300) ⟨.run, 5, 200, true⟩))
    = some (.ok (.send .done [⟨5, 200, true⟩])) := by decide +kernel

/-- V-WC4: reset is tested before credit, and the context goes idle. -/
theorem test_sdPoll_reset :
    (stateOf (exec (.sdPoll 0) (sending 10 ⟨1000, true, true, false⟩ ⟨.blocked, 5, 90, true⟩))).map
        (fun s => (s.response, s.sendCtx))
      = some (.raised (.streamClosed 5), [⟨.idle, 5, 90, true⟩, .fresh]) := by decide +kernel

/-- P3. -/
theorem test_sdPoll_resumes : responseOf (exec (.sdPoll 0) (sending 500 (openStream 300) ⟨.blocked, 5, 200, false⟩))
    = some (.ok (.send .resumed [])) := by decide +kernel

/-- The CFG family: only the fields present are overwritten, the tables keep their limits. -/
theorem test_cfgApply :
    (stateOf (exec (.cfgApply ⟨some 0, none, none, some 1000, none, none⟩) (sending 0 (openStream 0) .fresh))).map
        (fun s => (s.cfg.headerTableSize, s.cfg.maxFrameSize, s.dec.tableSize))
      = some (⟨true, 0⟩, ⟨true, 400⟩, 4096) := by decide +kernel

/-! ### Witnesses: what meets the hypotheses of the obligations, clause by clause -/

/-- DecodeOfEncode, at the ends of the port's and the prefix integers' ranges. -/
theorem witness_DecodeOfEncode :
    [Instr.dtGet .enc (2 ^ 64 - 1), .hdIndexed 0, .hdSizeupd (2 ^ 32 - 1), .hdLitinc (.indexed (2 ^ 32 - 1)) ⟨true, []⟩,
      .ftUnknown 10, .wcGoaway].all Instr.wf = true := by decide

theorem witness_UnlistedOpcodeRefused :
    (0xFF : Byte).toNat ∉ [0x01, 0x02, 0x03, 0x04, 0x05, 0x10, 0x11, 0x12, 0x20, 0x28, 0x30, 0x31, 0x32, 0x33, 0x34, 0x35, 0x38,
      0x39, 0x3A, 0x40] ∧ (issued .cmd [0xFF]).inbox = ⟨.cmd, 0xFF :: []⟩ :: [] := by decide

/-- LeadingBitsSelectRepresentation: the two ends of each range of first bytes. -/
theorem witness_LeadingBitsSelectRepresentation :
    [0x80, 0xFF, 0x40, 0x7F, 0x20, 0x3F, 0x10, 0x1F, 0x00, 0x0F].all (fun f : Byte =>
      match decodeRepresentation (f :: [0, 0, 0]) with
      | .ok _ => true
      | .error _ => false) = true := by decide +kernel

theorem witness_PrefixIntegerRoundTrip : (1 ≤ 1 ∧ 1 ≤ 8 ∧ (0x80 : Byte).toNat % 2 ^ 1 = 0 ∧ 0 ≤ Config.intMax)
    ∧ (1 ≤ 8 ∧ 8 ≤ 8 ∧ (0x00 : Byte).toNat % 2 ^ 8 = 0 ∧ 2 ^ 32 - 1 ≤ Config.intMax) := by decide

theorem witness_PrefixIntegerOverflow : (1 ≤ 8 ∧ 8 ≤ 8 ∧ (0x00 : Byte).toNat % 2 ^ 8 = 0 ∧ 2 ^ 32 - 1 < 2 ^ 32)
    ∧ (1 ≤ 1 ∧ 1 ≤ 8 ∧ (0xFE : Byte).toNat % 2 ^ 1 = 0 ∧ 2 ^ 32 - 1 < 2 ^ 40) := by decide

/-- StringEncodingChoice: the overrides, and AUTO's tie on the empty string; one of AUTO's two cases holds of every string. -/
theorem witness_StringEncodingChoice (t : Bytes) : (HuffMode.huff = .huff ∨ HuffMode.huff = .auto ∧ (Config.huffEnc t).length < t.length)
    ∧ (HuffMode.raw = .raw ∨ HuffMode.raw = .auto ∧ t.length ≤ (Config.huffEnc t).length)
    ∧ ([] : Bytes).length ≤ (Config.huffEnc []).length
    ∧ ((Config.huffEnc t).length < t.length ∨ t.length ≤ (Config.huffEnc t).length) :=
  ⟨.inl rfl, .inl rfl, Nat.zero_le _, Nat.lt_or_ge _ _⟩

/-- StringRoundTrip, CodecRoundTrip: some coder has the named property (R177 calls it one external fact), and a raw string fits. -/
theorem witness_HuffRoundTrip : ∃ (e : Bytes → Bytes) (d : Bytes → Option Bytes), ∀ t, d (e t) = some t :=
  ⟨id, some, fun _ => rfl⟩

theorem witness_StringRoundTrip : (wireForm (ascii "custom-key") .raw).octets.length ≤ 2 ^ 32 - 1 := by decide +kernel

theorem witness_StepRunsIssuedInstruction :
    (issued .cmd [0x33]).inbox = ⟨.cmd, [0x33]⟩ :: [] ∧ decode .cmd [0x33] = .ok .wcGoaway := ⟨rfl, rfl⟩

theorem witness_StepWaitsWithoutIssue : State.reset.inbox = [] := rfl

theorem witness_IssuedBlockIsDecoded : (issued .hr [0x82]).inbox = ⟨.hr, [0x82]⟩ :: []
    ∧ (issued .hr [0x82, 0x80]).inbox = ⟨.hr, [0x82, 0x80]⟩ :: [] := ⟨rfl, rfl⟩

theorem witness_UnpackExtractsFields : (0x80 : Byte).toNat % 128 = (0x00 : Byte).toNat % 128 := by decide

theorem witness_FrameTypesClassified : 10 ≤ (0x0A : Byte).toNat ∧ 10 ≤ (0xFF : Byte).toNat := by decide

/-- ParseFindsRegions: V-FH18, V-FH17, V-FH10, V-FH11, V-FH12, each at the edge of its clause. -/
theorem witness_ParseFindsRegions :
    (let b : Bytes := [0, 0, 0, 0, 0, 0, 0, 0]; b.length < 9)
    ∧ (let b : Bytes := [0, 0, 1, 0, 0, 0, 0, 0, 1]; 9 ≤ b.length ∧ b.length - 9 < length24 b 0)
    ∧ (let b : Bytes := [0, 0, 0, 0, 8, 0, 0, 0, 1]; 9 ≤ b.length ∧ length24 b 0 ≤ b.length - 9
        ∧ length24 b 0 < padOne (b.getD 4 0) + prioFive (b.getD 4 0))
    ∧ (let b : Bytes := [0, 0, 3, 0, 8, 0, 0, 0, 1, 3, 0xAA, 0xBB]; 9 ≤ b.length ∧ length24 b 0 ≤ b.length - 9
        ∧ padOne (b.getD 4 0) + prioFive (b.getD 4 0) ≤ length24 b 0
        ∧ length24 b 0 < padOne (b.getD 4 0) + prioFive (b.getD 4 0) + padLenOf b)
    ∧ (let b : Bytes := [0, 0, 3, 0, 8, 0, 0, 0, 1, 2, 0xAA, 0xBB]; 9 ≤ b.length ∧ length24 b 0 ≤ b.length - 9
        ∧ padOne (b.getD 4 0) + prioFive (b.getD 4 0) + padLenOf b ≤ length24 b 0) := by decide +kernel

/-- ParsedRegionsAddUp, CreateOfParse: V-FH12. -/
theorem witness_CreateOfParse :
    exec (.fhParse [0, 0, 3, 0, 8, 0, 0, 0, 1, 2, 0xAA, 0xBB]) .reset = .next { State.reset with
      response := .ok (.frame ⟨⟨3, 0, .data, 8, 0, 1⟩, 2, ⟨1, 0⟩, ⟨1, 0⟩, ⟨1, 2⟩⟩) }
    ∧ ([0, 0, 3, 0, 8, 0, 0, 0, 1, 2, 0xAA, 0xBB] : Bytes).length = 9 + (3 : U24).toNat ∧ (0 : BitVec 1) = 0 := by
  refine ⟨rfl, by decide, rfl⟩

/-- CreateEmitsFrame: operands of each refusal (V-FH25, V-FH24, V-FH26, V-FH27), and V-FH22, where none applies. -/
theorem witness_CreateEmitsFrame :
    (prioFive 0x20 = 5 ∧ ([1, 2, 3, 4] : Bytes).length ≠ 5) ∧ (prioFive 0x00 = 0 ∧ ([1] : Bytes).length ≠ 0)
    ∧ (padOne 0x00 = 0 ∧ ([0] : Bytes).length ≠ 0) ∧ (padOne 0x08 = 1 ∧ 255 < (List.replicate 256 (0 : Byte)).length)
    ∧ ¬ ((prioFive 0x09 = 5 ∧ ([] : Bytes).length ≠ 5) ∨ (prioFive 0x09 = 0 ∧ ([] : Bytes).length ≠ 0)
      ∨ (padOne 0x09 = 0 ∧ ([0, 0, 0] : Bytes).length ≠ 0) ∨ (padOne 0x09 = 1 ∧ 255 < ([0, 0, 0] : Bytes).length)
      ∨ 16777215 < padOne 0x09 + prioFive 0x09 + ([0x68, 0x69] : Bytes).length + ([0, 0, 0] : Bytes).length) := by
  decide +kernel

/-- CreateEmitsFrame: a payload one byte too long is refused for its length alone. -/
theorem witness_CreateEmitsFrame_length (b : Bytes) (h : b.length = 16777216) :
    16777215 < padOne 0x00 + prioFive 0x00 + b.length + ([] : Bytes).length := by
  simp [padOne, prioFive, h]

/-- SplitCarvesFrames: V-FH28 has two slices to speak of. -/
theorem witness_SplitCarvesFrames : (⟨9, 13⟩ : Region) ∈ [(⟨0, 9⟩ : Region), ⟨9, 13⟩] ∧ 1 < [(⟨0, 9⟩ : Region), ⟨9, 13⟩].length := by
  decide

/-- DtAddKeepsNewest, DtGetReadsPosition, DtSetsizeEvicts: a faulted decoder, and tables that answer. -/
theorem witness_DtTables :
    (TableId.dec = .dec ∧ faulted.decFault = true) ∧ ¬ (TableId.dec = .dec ∧ State.reset.decFault = true)
    ∧ ¬ (TableId.enc = .dec ∧ faulted.decFault = true)
    ∧ 0 < ((withDec [custom] 100).table .dec).ent.length ∧ ((withDec [custom] 100).table .dec).ent.length ≤ 1
    ∧ 2 ^ 32 - 1 ≤ Config.dtCapMax ∧ Config.dtCapMax < 2 ^ 32
    ∧ totalSize ((withDec [custom] 100).table .dec).ent ≤ 55 := by decide +kernel

/-- EvictionKeepsNewestPrefix: an empty table, and a table with a head. -/
theorem witness_EvictionKeepsNewestPrefix : ¬ (TableId.dec = .dec ∧ State.reset.decFault = true)
    ∧ (State.reset.table .dec).ent = [] ∧ ((withDec [custom] 100).table .dec).ent.head? = some custom := by decide +kernel

theorem witness_OnlyFaultedDecoderRefuses : faulted.decFault = true ∧ unitOf (.hdIndexed 2) = .dec := by decide

/-- IndexedAnswersEntry: the ends of both tables, and the indexes on either side. -/
theorem witness_IndexedAnswersEntry : (withDec [custom] 4096).decFault = false
    ∧ entryAt (withDec [custom] 4096).dec 1 = some ⟨ascii ":authority", []⟩
    ∧ entryAt (withDec [custom] 4096).dec 61 = some ⟨ascii "www-authenticate", []⟩
    ∧ entryAt (withDec [custom] 4096).dec 62 = some custom
    ∧ 61 + (withDec [custom] 4096).dec.ent.length < 63 ∧ 62 ≤ 61 + (withDec [custom] 4096).dec.ent.length := by decide +kernel

/-- LitincAddsHeader, UnindexedLiteralsAnswerHeader: an indexed name and an inline one. -/
theorem witness_Literals : (withDec [custom] 4096).decFault = false
    ∧ NameIs (withDec [custom] 4096).dec (.indexed 62) (ascii "custom-key")
    ∧ NameIs (withDec [custom] 4096).dec (.inline (rawString "x")) (ascii "x")
    ∧ TextIs (rawString "a") (ascii "a") :=
  ⟨rfl, ⟨custom, rfl, rfl⟩, rfl, rfl⟩

theorem witness_SizeupdSetsLimit : State.reset.decFault = false ∧ 2 ^ 32 - 1 ≤ 2 ^ 32 - 1 := by decide

/-- LiteralFailuresInOrder: each form is in the list and an index past the end names nothing. -/
theorem witness_LiteralFailuresInOrder (value : WireString) : State.reset.decFault = false
    ∧ (∀ name, Instr.hdLitinc name value ∈ [Instr.hdLitinc name value, Instr.hdLitno name value, Instr.hdLitnever name value]
      ∧ Instr.hdLitno name value ∈ [Instr.hdLitinc name value, Instr.hdLitno name value, Instr.hdLitnever name value]
      ∧ Instr.hdLitnever name value ∈ [Instr.hdLitinc name value, Instr.hdLitno name value, Instr.hdLitnever name value])
    ∧ entryAt State.reset.dec 62 = none ∧ entryAt State.reset.dec 0 = none :=
  ⟨rfl, fun name => by simp, rfl, rfl⟩

/-- LiteralFailuresInOrder: a string HuffDec rejects is one for which HuffDec answers none; some decoder rejects one (V-ST7). -/
theorem witness_TextInvalid (h : Config.huffDec [0xFF] = none) : TextInvalid ⟨true, [0xFF]⟩ := ⟨rfl, h⟩

theorem witness_DecodeOfIndexedBlock : State.reset.decFault = false ∧ (∀ i ∈ [2, 5], i ≤ 2 ^ 32 - 1)
    ∧ [2, 5].map (entryAt State.reset.dec)
      = [(⟨ascii ":method", ascii "GET"⟩ : Header), ⟨ascii ":path", ascii "/index.html"⟩].map some := by decide +kernel

/-- DecodeOutcomes: a state without a fault whose table is within its limit. -/
theorem witness_DecodeOutcomes : (withDec [custom] 55).decFault = false
    ∧ totalSize (withDec [custom] 55).dec.ent ≤ (withDec [custom] 55).dec.tableSize.toNat := by decide +kernel

/-- DecodeIsSequential: a first part that decodes, a second that does and a second that fails. -/
theorem witness_DecodeIsSequential : ∃ t u v,
    exec (.hdDecode [0x82]) .reset = .next t ∧ t.response = .ok (.headers [⟨ascii ":method", ascii "GET"⟩])
    ∧ exec (.hdDecode [0x82]) t = .next u ∧ u.response = .ok (.headers [⟨ascii ":method", ascii "GET"⟩])
    ∧ exec (.hdDecode [0xBE]) t = .next v ∧ v.response = .raised (.decodeError .indexOutOfRange 0) :=
  ⟨_, _, _, rfl, rfl, rfl, rfl, rfl, rfl⟩

/-- TruncatedRepresentationFails: a literal of four bytes cut after the first and before the last. -/
theorem witness_TruncatedRepresentationFails :
    (Instr.hdLitno (.indexed 4) (rawString "/a")).wf = true ∧ (Instr.hdLitno (.indexed 4) (rawString "/a")).format = .hr
    ∧ responseOf (exec (.hdLitno (.indexed 4) (rawString "/a")) .reset) = some (.ok (.headers [⟨ascii ":path", ascii "/a"⟩]))
    ∧ 0 < 1 ∧ 3 < (encode (.hdLitno (.indexed 4) (rawString "/a"))).length := by decide +kernel

/-- EncodeExactMatch: an entry of the dynamic table. -/
theorem witness_EncodeExactMatch :
    LeastIndex (withEnc [custom]).enc (fun h => h.name = custom.name ∧ h.value = custom.value) 62 :=
  ⟨⟨custom, rfl, rfl, rfl⟩, by decide +kernel⟩

/-- EncodeLiteral: a pair that is nowhere, with a name that is (index 4) and one that is not. -/
theorem witness_EncodeLiteral :
    NoIndex State.reset.enc (fun h => h.name = ascii ":path" ∧ h.value = ascii "/sample/path")
    ∧ LeastIndex State.reset.enc (fun h => h.name = ascii ":path") 4
    ∧ NoIndex State.reset.enc (fun h => h.name = ascii "x") := by
  have all : ∀ j h, entryAt State.reset.enc j = some h → h ∈ Config.staticTable := by
    intro j h e
    unfold entryAt at e
    split at e
    · cases e
    · split at e
      · exact List.mem_of_getElem? e
      · cases e
  refine ⟨fun j h e => ?_, ⟨⟨⟨ascii ":path", ascii "/"⟩, rfl, rfl⟩, by decide +kernel⟩, fun j h e => ?_⟩
  · exact (by decide +kernel : ∀ h ∈ Config.staticTable, ¬ (h.name = ascii ":path" ∧ h.value = ascii "/sample/path")) h (all j h e)
  · exact (by decide +kernel : ∀ h ∈ Config.staticTable, ¬ h.name = ascii "x") h (all j h e)

theorem witness_CodecRoundTrip : State.reset.decFault = false ∧ State.reset.enc = State.reset.dec
    ∧ totalSize State.reset.enc.ent ≤ State.reset.enc.tableSize.toNat
    ∧ ∀ e ∈ [raw "a" "b" .index, raw "x" "y" .never], (wireForm e.name e.huff).octets.length ≤ 2 ^ 32 - 1
      ∧ (wireForm e.value e.huff).octets.length ≤ 2 ^ 32 - 1 := by decide +kernel

/-- SecondSendIsIndexed: an entry that fits the table exactly. -/
theorem witness_SecondSendIsIndexed : ∃ t, (raw "a" "b" .index).idx = .index
    ∧ (raw "a" "b" .index).name.length + (raw "a" "b" .index).value.length + 32
      ≤ ({ State.reset with enc := ⟨[], 34⟩ } : State).enc.tableSize.toNat
    ∧ exec (.heEncode [raw "a" "b" .index]) { State.reset with enc := ⟨[], 34⟩ } = .next t :=
  ⟨_, rfl, by decide +kernel, rfl⟩

/-- CodecHalvesIndependent: two states that differ in the other half. -/
theorem witness_CodecHalvesIndependent : (withDec [custom] 100).enc = State.reset.enc
    ∧ (withEnc [custom]).dec = State.reset.dec ∧ (withEnc [custom]).decFault = State.reset.decFault
    ∧ (withEnc [custom]).decFaultCause = State.reset.decFaultCause
    ∧ (stateOf (exec (.hdDecode [0x82]) (withEnc [custom]))).isSome = true := by decide +kernel

/-- WcOpenCreatesStream: no id 0, an open stream, an initial window one too large, and the largest. -/
theorem witness_WcOpenCreatesStream : (0 : StreamId) = 0 ∧ (5 : StreamId) ≠ 0
    ∧ (sending 0 (openStream 0) .fresh).stream 5 = some (openStream 0) ∧ State.reset.stream 5 = none
    ∧ 2147483647 < effective ⟨true, 2147483648⟩ 65535 ∧ effective ⟨true, 2147483647⟩ 65535 ≤ 2147483647 := by decide +kernel

/-- WcUpdateAddsCredit: the sums on both sides of both ends of the range, and a stream that is not there. -/
theorem witness_WcUpdateAddsCredit : (2147483647 < (1 : U32).toInt + (2147483647 : U32).toInt)
    ∧ (2147483647 : U32).toInt + (0 : U32).toInt ≤ 2147483647
    ∧ (-1 : U32).toInt + (-2147483648 : U32).toInt < -2147483648
    ∧ -2147483648 ≤ (0 : U32).toInt + (-2147483648 : U32).toInt
    ∧ State.reset.stream 9 = none ∧ (sending 0 (openStream 7) .fresh).stream 5 = some (openStream 7) := by decide +kernel

/-- ResetAndGoawayMark, WcCreditReadsMinimum: a stream that is not there, id 0 in a well-formed table, one that is there. -/
theorem witness_ResetAndGoawayMark : State.reset.stream 9 = none
    ∧ StreamsWf (sending 0 (openStream 7) .fresh).streams
    ∧ (sending 0 (openStream 7) .fresh).stream 5 = some (openStream 7) := by decide +kernel

/-- WcHdrsMarksHeaders: the three flag cases of an open stream. -/
theorem witness_WcHdrsMarksHeaders : State.reset.stream 9 = none
    ∧ (sending 0 ⟨0, false, true, true⟩ .fresh).stream 5 = some ⟨0, false, true, true⟩
    ∧ (sending 0 ⟨0, false, true, false⟩ .fresh).stream 5 = some ⟨0, false, true, false⟩
    ∧ (sending 0 ⟨0, false, false, false⟩ .fresh).stream 5 = some ⟨0, false, false, false⟩ := by decide +kernel

/-- SdStartValidates: a context that is not IDLE, a stream another context drives, and a free context. -/
theorem witness_SdStartValidates :
    (∀ c, (sending 0 (openStream 0) ⟨.run, 5, 10, false⟩).sendCtx[0]? = some c → c.phase ≠ .idle)
    ∧ (∀ c, State.reset.sendCtx[2]? = some c → c.phase ≠ .idle)
    ∧ (∃ c ∈ (sending 0 (openStream 0) ⟨.run, 5, 10, false⟩).sendCtx, c.phase ≠ .idle ∧ c.sid = 5)
    ∧ ¬ ((∀ c, (sending 0 (openStream 0) .fresh).sendCtx[1]? = some c → c.phase ≠ .idle)
      ∨ ∃ c ∈ (sending 0 (openStream 0) .fresh).sendCtx, c.phase ≠ .idle ∧ c.sid = 5)
    ∧ (sending 0 (openStream 0) .fresh).stream 5 = some (openStream 0) ∧ State.reset.stream 5 = none := by
  refine ⟨?_, ?_, ⟨⟨.run, 5, 10, false⟩, by decide +kernel, by decide, rfl⟩, ?_, rfl, rfl⟩
  · intro c h
    cases h
    decide
  · intro c h
    cases h
  · rintro (h | ⟨c, hc, h, -⟩)
    · exact h .fresh rfl rfl
    · exact h ((by decide +kernel : ∀ c ∈ (sending 0 (openStream 0) .fresh).sendCtx, c.phase = .idle) c hc)

/-- SdStepSendsCredit: a context not in RUN; no credit; a payload of exactly the credit; one byte more, on a connection window
that it exhausts and on windows that it does not. -/
theorem witness_SdStepSendsCredit :
    (sending 0 (openStream 0) .fresh).sendCtx[0]? = some .fresh ∧ SendCtx.fresh.phase ≠ .run
    ∧ (sending 0 (openStream 9) ⟨.run, 5, 10, false⟩).sendCtx[0]? = some ⟨.run, 5, 10, false⟩
    ∧ (sending 0 (openStream 9) ⟨.run, 5, 10, false⟩).stream 5 = some (openStream 9)
    ∧ creditOf (sending 0 (openStream 9) ⟨.run, 5, 10, false⟩) (openStream 9) ≤ 0
    ∧ 0 < creditOf (sending 9 (openStream 10) ⟨.run, 5, 9, false⟩) (openStream 10)
    ∧ 9 ≤ creditOf (sending 9 (openStream 10) ⟨.run, 5, 9, false⟩) (openStream 10)
    ∧ creditOf (sending 9 (openStream 10) ⟨.run, 5, 10, false⟩) (openStream 10) = 9
    ∧ creditOf (sending 401 (openStream 401) ⟨.run, 5, 401, false⟩) (openStream 401) = 400 := by decide +kernel

/-- SdPollRechecks: a context not BLOCKED, and a BLOCKED one on each kind of stream. -/
theorem witness_SdPollRechecks :
    (sending 0 (openStream 0) .fresh).sendCtx[0]? = some .fresh ∧ SendCtx.fresh.phase ≠ .blocked
    ∧ (sending 1 (openStream 1) ⟨.blocked, 5, 10, false⟩).sendCtx[0]? = some ⟨.blocked, 5, 10, false⟩
    ∧ (sending 1 ⟨1, true, true, false⟩ ⟨.blocked, 5, 10, false⟩).stream 5 = some ⟨1, true, true, false⟩
    ∧ (openStream 1).reset = false ∧ (exec .wcGoaway State.reset = .next { State.reset with goawaySeen := true, response := .ok .done })
    ∧ (sending 1 (openStream 1) ⟨.blocked, 5, 10, false⟩).goawaySeen = false
    ∧ 0 < creditOf (sending 1 (openStream 1) ⟨.blocked, 5, 10, false⟩) (openStream 1)
    ∧ creditOf (sending 0 (openStream 1) ⟨.blocked, 5, 10, false⟩) (openStream 1) ≤ 0 := by
  refine ⟨rfl, by decide, rfl, rfl, rfl, rfl, rfl, by decide +kernel, by decide +kernel⟩

/-- FramesWithinWindows: a step that sends. -/
theorem witness_FramesWithinWindows : ∃ t, exec (.sdStep 0) (sending 300 (openStream 600) ⟨.run, 5, 500, false⟩) = .next t
    ∧ t.response = .ok (.send .blocked [⟨5, 300, false⟩]) ∧ (⟨5, 300, false⟩ : DataFrameDesc) ∈ [(⟨5, 300, false⟩ : DataFrameDesc)]
    ∧ 0 < 300 := ⟨_, rfl, rfl, by decide, by decide⟩

/-- ConnectionWindowBalance: an update and a send (R253). -/
theorem witness_ConnectionWindowBalance :
    (connBalance [.wcUpdate 0 7, .sdStep 0] (sending 300 (openStream 600) ⟨.run, 5, 500, false⟩)).map (fun r => r.2)
      = some (7, 307) := by decide +kernel

/-- StreamWindowBalance: an update, a setting that does not move the window (R254 (b)), and a send. -/
theorem witness_StreamWindowBalance : (5 : StreamId) ≠ 0
    ∧ (sending 300 (openStream 600) ⟨.run, 5, 500, false⟩).stream 5 = some (openStream 600)
    ∧ (streamBalance 5 [.wcUpdate 5 7, .cfgApply ⟨none, none, none, some 1, none, none⟩, .sdStep 0]
        (sending 300 (openStream 600) ⟨.run, 5, 500, false⟩)).map (fun r => r.2) = some (7, 300) := by decide +kernel

/-- SendLeavesRun: one byte left, and a long send. -/
theorem witness_SendLeavesRun :
    (sending 9 (openStream 9) ⟨.run, 5, 1, false⟩).sendCtx[0]? = some ⟨.run, 5, 1, false⟩ ∧ 0 < 1
    ∧ (sending 9 (openStream 9) ⟨.run, 5, 1, false⟩).stream 5 ≠ none := by decide +kernel

/-- FairHost (R342, log 26) is met by an endless run in which a wait occurs: a blocked context with credit is polled, and then
nothing but GOAWAY happens. -/
theorem witness_FairHost :
    let s := sending 500 (openStream 300) ⟨.blocked, 5, 200, false⟩
    let t := { sending 500 (openStream 300) ⟨.run, 5, 200, false⟩ with response := .ok (.send .resumed []) }
    let ops : Nat → Instr := fun n => if n = 0 then .sdPoll 0 else .wcGoaway
    let run : Nat → State := fun n => if n = 0 then s else if n = 1 then t else { t with goawaySeen := true, response := .ok .done }
    HostRun ops run ∧ FairHost 0 ops run ∧ (run 0).ctx 0 = some ⟨.blocked, 5, 200, false⟩ := by
  refine ⟨fun n => ?_, fun n c hk hb => ?_, rfl⟩
  · match n with
    | 0 => rfl
    | 1 => rfl
    | _ + 2 => rfl
  · match n with
    | 0 => exact ⟨0, Nat.le_refl _, rfl, _, rfl, by decide +kernel⟩
    | 1 => cases hk; cases hb
    | _ + 2 => cases hk; cases hb

/-- StepKeepsInvariants, LegalStateNeverFaults: a legal state with a send under way takes a step. -/
theorem witness_StepKeepsInvariants :
    State.Inv { sending 300 (openStream 600) ⟨.run, 5, 500, false⟩ with inbox := [⟨.cmd, [0x39, 0, 0, 0, 0, 0, 0, 0, 0]⟩] }
    ∧ ∃ t, step { sending 300 (openStream 600) ⟨.run, 5, 500, false⟩ with inbox := [⟨.cmd, [0x39, 0, 0, 0, 0, 0, 0, 0, 0]⟩] }
      = .next t := ⟨by decide +kernel, _, rfl⟩

/-- StickyStateStays: a step from a state in which everything sticky is set. -/
theorem witness_StickyStateStays :
    let s := { sending 300 ⟨0, true, true, true⟩ .fresh with decFault := true, goawaySeen := true }
    (∃ t, exec (.cfgApply ⟨some 0, some 0, some 0, some 0, some 0, some 0⟩) s = .next t)
      ∧ s.stream 5 = some ⟨0, true, true, true⟩ ∧ s.goawaySeen = true ∧ s.decFault = true ∧ s.cfg.maxFrameSize.present = true :=
  ⟨⟨_, rfl⟩, rfl, rfl, rfl, rfl⟩

/-- RaiseLeavesStateUnchanged: one raise of each of its three kinds. -/
theorem witness_RaiseLeavesStateUnchanged :
    (∃ t, exec (.wcRst 9) .reset = .next t ∧ t.response = .raised (.protocolError 9))
    ∧ (∃ t, exec (.hdIndexed 0) .reset = .next t ∧ t.response = .raised (.decodeError .indexOutOfRange 0))
    ∧ ∃ t, exec (.sdPoll 0) (sending 10 ⟨1000, true, true, false⟩ ⟨.blocked, 5, 90, true⟩) = .next t
        ∧ t.response = .raised (.streamClosed 5) :=
  ⟨⟨_, rfl, rfl⟩, ⟨_, rfl, rfl⟩, ⟨_, rfl, rfl⟩⟩

/-- UnitsKeepApart: an instruction of each unit. -/
theorem witness_UnitsKeepApart : [Instr.fhSplit [], .heEncode [], .hdDecode [], .wcGoaway, .cfgApply ⟨none, none, none, none, none, none⟩].map unitOf
    = [.fhp, .enc, .dec, .wct, .cfg] ∧ (stateOf (exec (.fhSplit []) .reset)).isSome = true := by decide +kernel

end Sys2Proof.Tests
end

section
/-!
The invariants between operations (R44, R45, R48) in the form the proofs use: `State.SendInv` is the part of `State.Inv` about
STREAMS and SENDCTX, by context number. Then one rule per kind of write to the two.
-/

namespace Sys2Proof.Machine

/-! ### The send invariant by context number -/

/-- The part of `State.Inv` about STREAMS and SENDCTX (R45, R48), by context number. -/
structure State.SendInv (s : State) : Prop where
  wf : StreamsWf s.streams
  legal : ∀ k c, s.ctx k = some c → s.CtxLegal c
  distinct : ∀ j k c d, s.ctx j = some c → s.ctx k = some d → c.active = true → d.active = true →
    c.sid = d.sid → j = k

/-- Contexts that differ pairwise are those of which two active ones on one stream have one number. -/
theorem pairwise_ctxDistinct_iff (cs : List SendCtx) : cs.Pairwise CtxDistinct ↔
    ∀ (j k : Nat) (c d : SendCtx), cs[j]? = some c → cs[k]? = some d → c.active = true → d.active = true →
      c.sid = d.sid → j = k := by
  simp only [List.pairwise_iff_getElem, List.getElem?_eq_some_iff]
  constructor
  · rintro h j k _ _ ⟨hj, rfl⟩ ⟨hk, rfl⟩ hc hd hs
    rcases Nat.lt_trichotomy j k with hlt | heq | hgt
    · exact absurd hs (h j k hj hk hlt hc hd)
    · exact heq
    · exact absurd hs.symm (h k j hk hj hgt hd hc)
  · intro h j k hj hk hlt hc hd hs
    exact absurd (h j k _ _ ⟨hj, rfl⟩ ⟨hk, rfl⟩ hc hd hs) (Nat.ne_of_lt hlt)

/-- The invariants are the two table bounds and the send invariant. -/
theorem State.inv_iff (s : State) : s.Inv ↔ s.enc.Bounded ∧ s.dec.Bounded ∧ s.SendInv := by
  have legal_iff : (∀ c ∈ s.sendCtx, s.CtxLegal c) ↔ ∀ k c, s.ctx k = some c → s.CtxLegal c :=
    ⟨fun h k c hk => h c (List.mem_of_getElem? hk), fun h c hc => (List.mem_iff_getElem?.mp hc).elim fun k hk => h k c hk⟩
  constructor
  · rintro ⟨he, hd, hw, hl, hp⟩
    exact ⟨he, hd, hw, legal_iff.mp hl, (pairwise_ctxDistinct_iff _).mp hp⟩
  · rintro ⟨he, hd, hw, hl, hp⟩
    exact ⟨he, hd, hw, legal_iff.mpr hl, (pairwise_ctxDistinct_iff _).mpr hp⟩

/-- The send invariant reads STREAMS and SENDCTX only. -/
theorem State.SendInv.congr {s t : State} (h : s.SendInv) (hs : t.streams = s.streams) (hc : t.sendCtx = s.sendCtx) : t.SendInv := by
  obtain ⟨hw, hl, hd⟩ := h
  constructor <;> simp only [State.CtxLegal, State.ctxBacked, State.ctx, State.stream, hs, hc]
  · exact hw
  · exact hl
  · exact hd

/-! ### Active contexts and their streams -/

/-- An IDLE context is not active. -/
theorem SendCtx.not_active_of_idle {c : SendCtx} (h : c.phase = .idle) : c.active ≠ true := by simp [SendCtx.active, h]

/-- A context in RUN is active. -/
theorem SendCtx.active_of_run {c : SendCtx} (h : c.phase = .run) : c.active = true := by simp [SendCtx.active, h]

/-- A BLOCKED context is active. -/
theorem SendCtx.active_of_blocked {c : SendCtx} (h : c.phase = .blocked) : c.active = true := by simp [SendCtx.active, h]

/-- A backed context has an open stream with its headers sent and not fully sent (R48). -/
theorem State.ctxBacked_iff (s : State) (c : SendCtx) : s.ctxBacked c = true ↔
    ∃ e, s.stream c.sid = some e ∧ e.selfEndHeaders = true ∧ e.selfEndStream = false := by
  unfold State.ctxBacked
  cases s.stream c.sid <;> simp

/-- No context drives a send on the stream (R245). -/
theorem State.streamBusy_eq_false_iff (s : State) (sid : StreamId) : s.streamBusy sid = false ↔
    ∀ k c, s.ctx k = some c → c.active = true → c.sid ≠ sid := by
  simp only [State.streamBusy, List.any_eq_false, Bool.and_eq_true, decide_eq_true_eq, not_and]
  exact ⟨fun h k c hk => h c (List.mem_of_getElem? hk), fun h c hc => (List.mem_iff_getElem?.mp hc).elim fun k hk => h k c hk⟩

/-- The stream of an active context, in a legal state (R48). -/
theorem State.SendInv.stream_of_active {s : State} (h : s.SendInv) {k : Nat} {c : SendCtx} (hk : s.ctx k = some c) (hc : c.active = true) :
    ∃ e, s.stream c.sid = some e ∧ e.selfEndHeaders = true ∧ e.selfEndStream = false :=
  (s.ctxBacked_iff c).mp (h.legal k c hk hc).1

/-- A stream that is not open, or whose headers are not sent, drives no context (R48). -/
theorem State.SendInv.streamBusy_false {s : State} (h : s.SendInv) (id : StreamId)
    (hn : ∀ e, s.stream id = some e → e.selfEndHeaders = false) : s.streamBusy id = false := by
  refine (s.streamBusy_eq_false_iff id).mpr fun k c hk hc hid => ?_
  obtain ⟨e, he, hh, -⟩ := h.stream_of_active hk hc
  rw [hn e (hid ▸ he)] at hh
  cases hh

/-! ### Writing one stream -/

/-- Writing a stream keeps the send invariant when the new entry still backs the contexts that drive the stream. -/
theorem State.SendInv.setStream {s : State} (h : s.SendInv) {id : StreamId} (e : StreamEntry) (h0 : id ≠ 0)
    (hb : ∀ k c, s.ctx k = some c → c.active = true → c.sid = id → e.selfEndHeaders = true ∧ e.selfEndStream = false) :
    (s.setStream id e).SendInv where
  wf := streamInsert_wf _ _ _ h0 h.wf
  legal k c hk hc := by
    refine ⟨(State.ctxBacked_iff _ c).mpr ?_, (h.legal k c hk hc).2⟩
    by_cases hid : c.sid = id
    · exact ⟨e, by rw [hid, State.stream_setStream_self], hb k c hk hc hid⟩
    · rw [State.stream_setStream_of_ne _ _ _ _ hid]
      exact h.stream_of_active hk hc
  distinct := h.distinct

/-- Writing a stream that no context drives keeps the send invariant. -/
theorem State.SendInv.setStream_of_not_busy {s : State} (h : s.SendInv) {id : StreamId} (e : StreamEntry) (h0 : id ≠ 0)
    (hb : s.streamBusy id = false) : (s.setStream id e).SendInv :=
  h.setStream e h0 fun k c hk hc hid => absurd hid ((s.streamBusy_eq_false_iff id).mp hb k c hk hc)

/-- Writing an open stream with the same progress flags keeps the send invariant. -/
theorem State.SendInv.setStream_of_flags {s : State} (h : s.SendInv) {id : StreamId} {old : StreamEntry} (e : StreamEntry)
    (ho : s.stream id = some old) (hh : e.selfEndHeaders = old.selfEndHeaders) (he : e.selfEndStream = old.selfEndStream) :
    (s.setStream id e).SendInv := by
  refine h.setStream e (streamFind_ne_zero _ _ _ h.wf ho) fun k c hk hc hid => ?_
  obtain ⟨x, hx, hf⟩ := h.stream_of_active hk hc
  rw [hid, ho, Option.some.injEq] at hx
  subst hx
  rwa [hh, he]

/-! ### Writing one context -/

/-- What a context is after one is written. -/
theorem State.ctx_setCtx_cases {s : State} {k j : Nat} {x c : SendCtx} (h : (s.setCtx k x).ctx j = some c) :
    (j = k ∧ c = x) ∨ (j ≠ k ∧ s.ctx j = some c) := by
  simp only [State.ctx, State.setCtx_sendCtx, List.getElem?_set] at h
  split at h
  · split at h
    · cases h; exact .inl ⟨‹k = j›.symm, rfl⟩
    · cases h
  · exact .inr ⟨fun hj => ‹¬ k = j› hj.symm, h⟩

/-- Writing a context keeps the send invariant when it is legal and no other context drives its stream. -/
theorem State.SendInv.setCtx {s : State} (h : s.SendInv) (k : Nat) (x : SendCtx) (hx : s.CtxLegal x)
    (hd : x.active = true → ∀ j d, j ≠ k → s.ctx j = some d → d.active = true → d.sid ≠ x.sid) : (s.setCtx k x).SendInv where
  wf := h.wf
  legal j c hj := by
    rcases State.ctx_setCtx_cases hj with ⟨-, rfl⟩ | ⟨-, hj⟩
    · exact hx
    · exact h.legal j c hj
  distinct i j c d hi hj hc hd' hs := by
    rcases State.ctx_setCtx_cases hi with ⟨rfl, rfl⟩ | ⟨hik, hi'⟩ <;>
      rcases State.ctx_setCtx_cases hj with ⟨rfl, rfl⟩ | ⟨hjk, hj'⟩
    · rfl
    · exact absurd hs.symm (hd hc j d hjk hj' hd')
    · exact absurd hs (hd hd' i c hik hi' hc)
    · exact h.distinct i j c d hi' hj' hc hd' hs

/-- A context may return to IDLE at any time. -/
theorem State.SendInv.setCtx_idle {s : State} (h : s.SendInv) (k : Nat) (c : SendCtx) : (s.setCtx k { c with phase := .idle }).SendInv :=
  h.setCtx k _ (fun ha => absurd ha (SendCtx.not_active_of_idle rfl)) (fun ha => absurd ha (SendCtx.not_active_of_idle rfl))

/-- An active context may change its phase and count down, while it has bytes left. -/
theorem State.SendInv.setCtx_active {s : State} (h : s.SendInv) {k : Nat} {c : SendCtx} (hk : s.ctx k = some c) (hc : c.active = true)
    (ph : Phase) {m : Nat} (hm : 0 < m) : (s.setCtx k { c with phase := ph, remaining := m }).SendInv :=
  h.setCtx k _ (fun _ => ⟨(h.legal k c hk hc).1, hm⟩)
    (fun _ j d hj hd ha hs => hj (h.distinct j k d c hd hk ha hc hs))

/-- A context may take a send on an open stream that no other context drives (R245). -/
theorem State.SendInv.setCtx_start {s : State} (h : s.SendInv) (k : Nat) (x : SendCtx) (hb : s.streamBusy x.sid = false)
    {e : StreamEntry} (he : s.stream x.sid = some e) (hh : e.selfEndHeaders = true) (hs : e.selfEndStream = false)
    (hr : 0 < x.remaining) : (s.setCtx k x).SendInv :=
  h.setCtx k x (fun _ => ⟨(s.ctxBacked_iff x).mpr ⟨e, he, hh, hs⟩, hr⟩)
    (fun _ j d _ => (s.streamBusy_eq_false_iff x.sid).mp hb j d)

/-- When a context returns to IDLE, no context drives its stream any more (R48). -/
theorem State.SendInv.streamBusy_setCtx_idle {s : State} (h : s.SendInv) {k : Nat} {c : SendCtx} (hk : s.ctx k = some c)
    (hc : c.active = true) : (s.setCtx k { c with phase := .idle }).streamBusy c.sid = false := by
  refine (State.streamBusy_eq_false_iff _ _).mpr fun j d hj hd hs => ?_
  rcases State.ctx_setCtx_cases hj with ⟨-, rfl⟩ | ⟨hjk, hj⟩
  · exact absurd hd (SendCtx.not_active_of_idle rfl)
  · exact hjk (h.distinct j k d c hj hk hd hc hs)

end Sys2Proof.Machine
end

section
/-!
The invariants over every instruction: the table bounds and the send invariant, each by the cases of `Change`, and then over a step.
-/

namespace Sys2Proof.Machine

/-! ### The tables -/

/-- An encoded entry leaves the table within its limit (R44). -/
theorem encodeEntry_bounded (t : DynTable) (e : EncEntry) (h : t.Bounded) : (encodeEntry t e).2.Bounded := by
  unfold encodeEntry
  split
  · exact h
  · split <;> exact tableAfterLiteral_bounded t e h

/-- HE.ENCODE leaves the table within its limit (R44). -/
theorem encodeEntries_bounded (t : DynTable) (l : List EncEntry) (h : t.Bounded) : (encodeEntries t l).2.Bounded := by
  induction l generalizing t with
  | nil => exact h
  | cons e l ih => exact ih _ (encodeEntry_bounded t e h)

/-- Writing a bounded table keeps both tables bounded. -/
theorem State.setTable_bounded (s : State) (tid : TableId) (d : DynTable) (he : s.enc.Bounded) (hd : s.dec.Bounded) (hb : d.Bounded) :
    (s.setTable tid d).enc.Bounded ∧ (s.setTable tid d).dec.Bounded := by
  cases tid
  · exact ⟨hb, hd⟩
  · exact ⟨he, hb⟩

/-- No instruction takes a table over its limit (R44). -/
theorem Change.bounded {i : Instr} {s t : State} (h : Change i s t) (he : s.enc.Bounded) (hd : s.dec.Bounded) :
    t.enc.Bounded ∧ t.dec.Bounded := by
  cases h with
  | table tid d _ hb => exact s.setTable_bounded tid d he hd hb
  | encode l => exact s.setTable_bounded .enc _ he hd (encodeEntries_bounded _ l he)
  | decoded d _ _ _ hb => exact s.setTable_bounded .dec d he hd (hb.elim (fun heq => heq ▸ hd) id)
  | decodeFailed d _ _ _ _ hb => exact s.setTable_bounded .dec d he hd (hb.elim (fun heq => heq ▸ hd) id)
  | _ => exact ⟨he, hd⟩

/-! ### STREAMS and SENDCTX -/

/-- SD.STEP's final frame: the context becomes IDLE first, so that its stream may then be marked fully sent (R247, R48). -/
theorem State.SendInv.stepFinal {s : State} (h : s.SendInv) {k : Nat} {c : SendCtx} {e : StreamEntry} (hk : s.ctx k = some c)
    (hp : c.phase = .run) (he : s.stream c.sid = some e) (e' : StreamEntry) (m : Nat) :
    ((s.charge c.sid e' m).setCtx k { c with phase := .idle }).SendInv :=
  ((h.setCtx_idle k c).setStream_of_not_busy { e' with window := toS32 (e'.window.toInt - m) } (streamFind_ne_zero _ _ _ h.wf he)
    (h.streamBusy_setCtx_idle hk (SendCtx.active_of_run hp))).congr rfl rfl

/-- SD.STEP's non-final frame: the stream keeps its flags and the context has bytes left (R247, R48). -/
theorem State.SendInv.stepPart {s : State} (h : s.SendInv) {k : Nat} {c : SendCtx} {e : StreamEntry} (hk : s.ctx k = some c)
    (hp : c.phase = .run) (he : s.stream c.sid = some e) {m : Nat} (hr : m < c.remaining) (ph : Phase) :
    ((s.charge c.sid e m).setCtx k { c with phase := ph, remaining := c.remaining - m }).SendInv := by
  have charged : (s.charge c.sid e m).SendInv :=
    (h.setStream_of_flags { e with window := toS32 (e.window.toInt - m) } he rfl rfl).congr rfl rfl
  exact charged.setCtx_active hk (SendCtx.active_of_run hp) ph (by omega)

/-- No instruction breaks the form of STREAMS or the legality of the send contexts (R45, R48). -/
theorem Change.sendInv {i : Instr} {s t : State} (h : Change i s t) (hs : s.SendInv) : t.SendInv := by
  cases h with
  | opened id _ h0 hn =>
    have hb := hs.streamBusy_false id fun e he => by rw [hn] at he; cases he
    exact (hs.setStream_of_not_busy _ h0 hb).congr rfl rfl
  | streamUpdated id _ w e _ _ he => exact (hs.setStream_of_flags { e with window := w } he rfl rfl).congr rfl rfl
  | markedReset id e _ he => exact (hs.setStream_of_flags e.markReset he rfl rfl).congr rfl rfl
  | headersSent id b e _ he h1 =>
    have hb := hs.streamBusy_false id fun x hx => by rw [he] at hx; cases hx; exact h1
    exact (hs.setStream_of_not_busy _ (streamFind_ne_zero _ _ _ hs.wf he) hb).congr rfl rfl
  | emptySend k sid e _ hb he => exact (hs.setStream_of_not_busy _ (streamFind_ne_zero _ _ _ hs.wf he) hb).congr rfl rfl
  | started k sid n w e _ _ hb he h1 h2 h3 =>
    exact (hs.setCtx_start k ⟨.run, sid, n, w⟩ hb he h1 h2 (Nat.pos_of_ne_zero h3)).congr rfl rfl
  | stepBlocked k c e _ hk hp he =>
    have hc := SendCtx.active_of_run hp
    exact (hs.setCtx_active hk hc .blocked (hs.legal k c hk hc).2).congr rfl rfl
  | stepFinal k c e _ hk hp he => exact (hs.stepFinal hk hp he _ _).congr rfl rfl
  | stepPart k c e m ph _ _ hk hp he _ _ hr => exact (hs.stepPart hk hp he hr ph).congr rfl rfl
  | polled k c e ph _ _ hk hp he =>
    have hc := SendCtx.active_of_blocked hp
    exact (hs.setCtx_active hk hc ph (hs.legal k c hk hc).2).congr rfl rfl
  | table tid => exact hs.congr (by simp) (by simp)
  | _ => exact hs.congr rfl rfl

/-! ### A step -/

/-- What a step that answers does: nothing, or the instruction of the oldest issue, on the state without that issue. -/
theorem step_next_cases {s t : State} (h : step s = .next t) :
    t = s ∨ ∃ i rest, exec i (s.setInbox rest) = .next t := by
  unfold step at h
  split at h
  · cases h; exact .inl rfl
  · split at h
    · exact absurd h (refuseReject_ne_next _ _)
    · exact .inr ⟨_, _, h⟩

/-- An instruction keeps the invariants (R44, R45, R48). -/
theorem exec_keeps_inv {i : Instr} {s t : State} (h : exec i s = .next t) (hs : s.Inv) : t.Inv := by
  obtain ⟨he, hd, hsend⟩ := s.inv_iff.mp hs
  have hc := exec_change i s t h
  obtain ⟨he', hd'⟩ := hc.bounded he hd
  exact t.inv_iff.mpr ⟨he', hd', hc.sendInv hsend⟩

end Sys2Proof.Machine

open Sys2Proof.Machine

/-- Settles O56: the operation of a step is one instruction, and each change an instruction can make keeps the invariants. -/
theorem stepKeepsInvariants : Obligations.StepKeepsInvariants := by
  intro s t hs h
  rcases step_next_cases h with rfl | ⟨i, rest, h⟩
  · exact hs
  · exact exec_keeps_inv h hs
end

section
/-!
How an instruction stops: the guard of R29 on the DEC unit, the refusals, and the one fault (log 15).
-/

namespace Sys2Proof.Machine

open Sys2Proof.Claims

/-- What an instruction can answer when the guard of R29 does not stop it: a next state, a refusal under another name than
DecoderFaulted, or the fault of an active context whose stream has no entry. -/
def ClearOutcome (s : State) : Answer → Prop
  | .next _ => True
  | .refused r => r ≠ .decoderFaulted
  | .fault _ => ∃ k c, s.ctx k = some c ∧ c.active = true ∧ s.stream c.sid = none

@[simp] theorem clearOutcome_next (s t : State) : ClearOutcome s (.next t) := trivial
@[simp] theorem clearOutcome_answer (s t : State) (r : Result) : ClearOutcome s (answer t r) := trivial
@[simp] theorem clearOutcome_raise (s t : State) (e : Error) : ClearOutcome s (raise t e) := trivial
@[simp] theorem clearOutcome_refused (s : State) (r : Refusal) : ClearOutcome s (.refused r) ↔ r ≠ .decoderFaulted := Iff.rfl

/-- A table operation stands under the guard of its table. -/
theorem tableUnit_eq_dec (t : TableId) : tableUnit t = .dec ↔ t = .dec := by cases t <;> simp [tableUnit]

/-- HD.DECODE and the representations are guarded, and answer once the guard lets them through (R29, R190). -/
theorem exec_readsBlock_eq (i : Instr) (s : State) (hi : readsBlock i = true) : ∃ t, exec i s = guardTable .dec s (.next t) := by
  have single (r : Except DecodeCause Decoding) : ∃ t, finishSingle s r = .next t := by cases r <;> exact ⟨_, rfl⟩
  cases i <;> simp only [readsBlock, Bool.false_eq_true] at hi
  case hdDecode b =>
    by_cases hf : s.decFault = true
    · exact ⟨s, (exec_decode_stop b s hf).trans (guardTable_stop s _ hf).symm⟩
    · exact ⟨_, (exec_decode b s (Bool.eq_false_iff.mpr hf)).trans (guardTable_pass .dec s _ fun h => hf h.2).symm⟩
  all_goals
    rw [exec_rep _ s rfl]
    obtain ⟨t, ht⟩ := single (effect s.decoding _)
    exact ⟨t, by rw [ht]⟩

/-- While DEC_FAULT is set the DEC unit refuses every instruction (R29, R304). -/
theorem exec_decUnit_faulted (i : Instr) (s : State) (hf : s.decFault = true) (hi : unitOf i = .dec) :
    exec i s = .refused .decoderFaulted := by
  cases i with
  | dtAdd t | dtGet t | dtSetsize t =>
    obtain rfl := (tableUnit_eq_dec t).mp hi
    exact guardTable_stop s _ hf
  | hdDecode | hdIndexed | hdLitinc | hdSizeupd | hdLitno | hdLitnever => exact guardTable_stop s _ hf
  | _ => cases hi

/-- An instruction the guard does not stop has a clear outcome: the cases of every meaning. -/
theorem exec_clearOutcome (i : Instr) (s : State) (h : ¬ (s.decFault = true ∧ unitOf i = .dec)) : ClearOutcome s (exec i s) := by
  have pass (t : TableId) (hi : unitOf i = tableUnit t) : ¬ (t = .dec ∧ s.decFault = true) :=
    fun ⟨ht, hf⟩ => h ⟨hf, hi.trans ((tableUnit_eq_dec t).mpr ht)⟩
  by_cases hr : readsBlock i = true
  · obtain ⟨t, ht⟩ := exec_readsBlock_eq i s hr
    have hi : unitOf i = .dec := by cases i <;> simp only [readsBlock, Bool.false_eq_true] at hr <;> rfl
    rw [ht, guardTable_pass .dec s _ (pass .dec hi)]
    exact clearOutcome_next s t
  cases i <;> simp only [exec]
  case hdDecode | hdIndexed | hdLitinc | hdSizeupd | hdLitno | hdLitnever => exact absurd rfl hr
  case fhUnpack | fhPack | fhSplit | heEncode | wcGoaway | cfgApply => exact clearOutcome_answer _ _ _
  case ftData | ftHeaders | ftPriority | ftRstStream | ftSettings | ftPushPromise | ftPing | ftGoaway | ftWindowUpdate | ftContinuation
    | ftUnknown => exact clearOutcome_answer _ _ _
  case dtAdd t name value => rw [execDtAdd, guardTable_pass t s _ (pass t rfl)]; exact clearOutcome_answer _ _ _
  case dtGet t p => rw [execDtGet, guardTable_pass t s _ (pass t rfl)]; split <;> simp
  case dtSetsize t limit => rw [execDtSetsize, guardTable_pass t s _ (pass t rfl)]; split <;> simp
  case fhParse | fhCreate | wcOpen | wcUpdate | wcRst | wcHdrs | wcCredit | sdStart =>
    simp only [execFhParse, execFhCreate, execWcOpen, execWcUpdate, execWcRst, execWcHdrs, execWcCredit, execSdStart]
    repeat' split
    all_goals simp
  case sdStep k =>
    unfold execSdStep
    split
    · simp
    · rename_i c hk
      split
      · simp
      · rename_i hp
        split
        · exact ⟨k, c, hk, SendCtx.active_of_run (not_not.mp hp), ‹_›⟩
        · repeat' split
          all_goals exact clearOutcome_answer _ _ _
  case sdPoll k =>
    unfold execSdPoll
    split
    · simp
    · rename_i c hk
      split
      · simp
      · rename_i hp
        split
        · exact ⟨k, c, hk, SendCtx.active_of_blocked (not_not.mp hp), ‹_›⟩
        · repeat' split
          all_goals simp

/-- An instruction faults only on an active context whose stream has no entry (log 15). -/
theorem exec_fault {i : Instr} {s : State} {f : Fault} (h : exec i s = .fault f) :
    ∃ k c, s.ctx k = some c ∧ c.active = true ∧ s.stream c.sid = none := by
  by_cases hg : s.decFault = true ∧ unitOf i = .dec
  · rw [exec_decUnit_faulted i s hg.1 hg.2] at h
    cases h
  · have hc := exec_clearOutcome i s hg
    rwa [h] at hc

/-- A step that faults does so in the instruction of the oldest issue: a rejected issue is refused. -/
theorem step_fault {s : State} {f : Fault} (h : step s = .fault f) : ∃ i rest, exec i (s.setInbox rest) = .fault f := by
  unfold step at h
  split at h
  · cases h
  · split at h
    · exact absurd h (refuseReject_ne_fault _ _)
    · exact ⟨_, _, h⟩

/-- A legal state has no active context without its stream, so no instruction faults there (R48). -/
theorem State.SendInv.exec_ne_fault {s : State} (hs : s.SendInv) (i : Instr) (f : Fault) : exec i s ≠ .fault f := by
  intro h
  obtain ⟨k, c, hk, hc, hn⟩ := exec_fault h
  obtain ⟨e, he, -⟩ := hs.stream_of_active hk hc
  rw [hn] at he
  cases he

end Sys2Proof.Machine

open Sys2Proof.Machine

/-- Settles O25: the guard refuses DecoderFaulted, and nothing else does. -/
theorem onlyFaultedDecoderRefuses : Obligations.OnlyFaultedDecoderRefuses := by
  intro i s
  constructor
  · intro h
    by_contra hg
    have hc := exec_clearOutcome i s hg
    rw [h] at hc
    exact hc rfl
  · rintro ⟨hf, hi⟩
    exact exec_decUnit_faulted i s hf hi

/-- Settles O57: the one fault needs an active context without its stream, which the invariants rule out. -/
theorem legalStateNeverFaults : Obligations.LegalStateNeverFaults := by
  intro s f hs h
  obtain ⟨-, -, hsend⟩ := s.inv_iff.mp hs
  obtain ⟨i, rest, h⟩ := step_fault h
  exact (hsend.congr rfl rfl : (s.setInbox rest).SendInv).exec_ne_fault i f h

end

section
/-!
What an instruction never clears (R27 to R30, R45, R272), by the cases of `Change`, one part of the state at a time.
-/

namespace Sys2Proof.Machine

/-- The flags set in an entry are set in the other (R27). -/
def StreamEntry.FlagsStay (e e' : StreamEntry) : Prop :=
  (e.reset = true → e'.reset = true) ∧ (e.selfEndHeaders = true → e'.selfEndHeaders = true)
    ∧ (e.selfEndStream = true → e'.selfEndStream = true)

theorem StreamEntry.FlagsStay.refl (e : StreamEntry) : e.FlagsStay e := ⟨id, id, id⟩

/-- A new window leaves the flags alone. -/
theorem StreamEntry.FlagsStay.window {e e' : StreamEntry} (h : e.FlagsStay e') (w : U32) : e.FlagsStay { e' with window := w } := h

theorem StreamEntry.flagsStay_markReset (e : StreamEntry) : e.FlagsStay e.markReset := ⟨fun _ => rfl, id, id⟩

theorem StreamEntry.flagsStay_markFinished (e : StreamEntry) : e.FlagsStay e.markFinished := ⟨id, id, fun _ => rfl⟩

theorem StreamEntry.flagsStay_finishIf (e : StreamEntry) (b : Bool) : e.FlagsStay (e.finishIf b) := by
  cases b
  · exact .refl e
  · exact e.flagsStay_markFinished

theorem StreamEntry.flagsStay_markHeaders (e : StreamEntry) (b : Bool) : e.FlagsStay (e.markHeaders b) := by
  cases b
  · exact ⟨id, fun _ => rfl, id⟩
  · exact ⟨id, fun _ => rfl, fun _ => rfl⟩

/-- Every open stream is still open with the flags it had (R27, R45). -/
def State.StreamsStay (s t : State) : Prop := ∀ id e, s.stream id = some e → ∃ e', t.stream id = some e' ∧ e.FlagsStay e'

/-- A write outside STREAMS. -/
theorem State.StreamsStay.of_eq {s t : State} (h : t.streams = s.streams) : s.StreamsStay t :=
  fun id e he => ⟨e, by rw [State.stream, h]; exact he, .refl e⟩

/-- A write to one stream that keeps the flags it had, if it was open. -/
theorem State.StreamsStay.of_insert {s t : State} {id : StreamId} {e : StreamEntry} (h : t.streams = streamInsert s.streams id e)
    (hf : ∀ old, s.stream id = some old → old.FlagsStay e) : s.StreamsStay t := by
  intro j x hx
  simp only [State.stream, h]
  by_cases hj : j = id
  · subst hj
    exact ⟨e, streamFind_insert_self _ _ _, hf x hx⟩
  · exact ⟨x, (streamFind_insert_of_ne _ _ _ _ hj).trans hx, .refl x⟩

/-- A write to one open stream that keeps the flags it had. -/
theorem State.StreamsStay.of_update {s t : State} {id : StreamId} {old e : StreamEntry} (ho : s.stream id = some old)
    (hf : old.FlagsStay e) (h : t.streams = streamInsert s.streams id e) : s.StreamsStay t :=
  .of_insert h fun x hx => by rw [ho] at hx; cases hx; exact hf

/-- No instruction removes a stream or clears one of its flags (R27, R45). -/
theorem Change.streamsStay {i : Instr} {s t : State} (h : Change i s t) : s.StreamsStay t := by
  cases h with
  | opened id _ _ hn => exact .of_insert rfl fun old ho => by rw [hn] at ho; cases ho
  | streamUpdated id _ w e _ _ he => exact .of_update he ((StreamEntry.FlagsStay.refl e).window w) rfl
  | markedReset id e _ he => exact .of_update he e.flagsStay_markReset rfl
  | headersSent id b e _ he => exact .of_update he (e.flagsStay_markHeaders b) rfl
  | emptySend k sid e _ _ he => exact .of_update he e.flagsStay_markFinished rfl
  | stepFinal k c e _ _ _ he => exact .of_update he ((e.flagsStay_finishIf c.wantEnd).window _) rfl
  | stepPart k c e m _ _ _ _ _ he => exact .of_update he ((StreamEntry.FlagsStay.refl e).window _) rfl
  | table tid => exact .of_eq (by simp)
  | _ => exact .of_eq rfl

/-- GOAWAY_SEEN stays once set (R28). -/
theorem Change.goawaySeen_stays {i : Instr} {s t : State} (h : Change i s t) (hg : s.goawaySeen = true) : t.goawaySeen = true := by
  cases h with
  | goaway => rfl
  | table tid => simpa using hg
  | _ => exact hg

/-- DEC_FAULT and its cause stay once set: what sets them is let through only while DEC_FAULT is false (R29, R30). -/
theorem Change.decFault_stays {i : Instr} {s t : State} (h : Change i s t) (hf : s.decFault = true) :
    t.decFault = true ∧ t.decFaultCause = s.decFaultCause := by
  cases h with
  | decodeFailed d c k _ hn => rw [hn] at hf; cases hf
  | table tid => exact ⟨by simpa using hf, by simp⟩
  | _ => exact ⟨hf, rfl⟩

/-- The number of send contexts stays (R7, R47). -/
theorem Change.sendCtx_length {i : Instr} {s t : State} (h : Change i s t) : t.sendCtx.length = s.sendCtx.length := by
  cases h <;> simp

/-- The bank is as it was or updated. -/
theorem Change.cfg_cases {i : Instr} {s t : State} (h : Change i s t) : t.cfg = s.cfg ∨ ∃ u, t.cfg = s.cfg.update u := by
  cases h with
  | cfg u => exact .inr ⟨u, rfl⟩
  | table tid => exact .inl (by simp)
  | _ => exact .inl rfl

/-- An update leaves a present setting present (R270, R272). -/
theorem Setting.update_present (r : Setting) (u : Option U32) (h : r.present = true) : (r.update u).present = true := by
  cases u
  · exact h
  · rfl

/-- Every setting read from the bank stays present once it is, if the update works on it as on one setting (R272). -/
theorem Change.setting_stays {i : Instr} {s t : State} (h : Change i s t) (f : CfgBank → Setting) (g : SettingsUpdate → Option U32)
    (hf : ∀ c u, f (c.update u) = (f c).update (g u)) (hp : (f s.cfg).present = true) : (f t.cfg).present = true := by
  rcases h.cfg_cases with hc | ⟨u, hc⟩
  · rwa [hc]
  · rw [hc, hf]
    exact Setting.update_present _ _ hp

end Sys2Proof.Machine

open Sys2Proof Sys2Proof.Machine

/-- Settles O58: each part of the state stays under each change an instruction can make. -/
theorem stickyStateStays : Obligations.StickyStateStays := by
  intro i s t h
  have hc := exec_change i s t h
  exact ⟨hc.streamsStay, hc.goawaySeen_stays, hc.decFault_stays,
    hc.setting_stays CfgBank.maxFrameSize SettingsUpdate.maxFrameSize fun _ _ => rfl,
    hc.setting_stays CfgBank.initialWindowSize SettingsUpdate.initialWindowSize fun _ _ => rfl,
    hc.setting_stays CfgBank.headerTableSize SettingsUpdate.headerTableSize fun _ _ => rfl,
    hc.setting_stays CfgBank.enablePush SettingsUpdate.enablePush fun _ _ => rfl,
    hc.setting_stays CfgBank.maxConcurrentStreams SettingsUpdate.maxConcurrentStreams fun _ _ => rfl,
    hc.setting_stays CfgBank.maxHeaderListSize SettingsUpdate.maxHeaderListSize fun _ _ => rfl,
    hc.sendCtx_length⟩

end

section
/-!
FH.PARSE through the frame it finds (R134), and what follows of the regions (R23, R135).
-/

namespace Sys2Proof.Machine

open Sys2Proof.Claims

/-- The frame R134 finds under a header whose body begins `body`, once the checks pass. -/
def frameOf (hdr : FrameHeader) (body : Bytes) : Frame :=
  let p := padBytes hdr.flags
  let q := priorityBytes hdr.flags
  let padLen : Byte := if p = 1 then body.headD 0 else 0
  { header := hdr
    padLen := padLen
    priority := ⟨p, q⟩
    payload := ⟨p + q, hdr.length.toNat - p - q - padLen.toNat⟩
    padding := ⟨hdr.length.toNat - padLen.toNat, padLen.toNat⟩ }

@[simp] theorem frameOf_header (hdr : FrameHeader) (body : Bytes) : (frameOf hdr body).header = hdr := rfl

/-- FH.PARSE on a buffer of nine bytes or more: the three checks on the frame, in order (R134). -/
theorem parseFrame_of_split {b body : Bytes} {h : HeaderBytes} (hs : splitHeader b = some (h, body)) :
    parseFrame b =
      if body.length < (unpackHeader h).length.toNat then .error .bodyTruncated
      else if (unpackHeader h).length.toNat < padBytes (unpackHeader h).flags + priorityBytes (unpackHeader h).flags then
        .error .regionsExceedLength
      else if (unpackHeader h).length.toNat < padBytes (unpackHeader h).flags + priorityBytes (unpackHeader h).flags
          + (frameOf (unpackHeader h) body).padLen.toNat then .error .paddingExceedsLength
      else .ok (frameOf (unpackHeader h) body) := by
  simp only [parseFrame, hs]
  rfl

/-- FH.PARSE answers exactly the frames whose body is whole and whose regions fit (R134). -/
theorem parseFrame_eq_ok_iff (b : Bytes) (f : Frame) : parseFrame b = .ok f ↔
    ∃ h body, splitHeader b = some (h, body) ∧ f = frameOf (unpackHeader h) body ∧ f.header.length.toNat ≤ body.length
      ∧ padBytes f.header.flags + priorityBytes f.header.flags + f.padLen.toNat ≤ f.header.length.toNat := by
  constructor
  · intro hp
    cases hs : splitHeader b with
    | none => simp [parseFrame, hs] at hp
    | some x =>
      obtain ⟨h, body⟩ := x
      rw [parseFrame_of_split hs] at hp
      split at hp
      · cases hp
      · split at hp
        · cases hp
        · split at hp
          · cases hp
          · cases hp
            exact ⟨h, body, rfl, rfl, Nat.le_of_not_lt ‹_›, Nat.le_of_not_lt ‹_›⟩
  · rintro ⟨h, body, hs, rfl, hb, hr⟩
    rw [frameOf_header] at hb hr
    rw [parseFrame_of_split hs, if_neg (Nat.not_lt.mpr hb), if_neg (by omega), if_neg (Nat.not_lt.mpr hr)]

/-- FH.PARSE of the machine is the parse of the buffer. -/
theorem exec_fhParse_frame_iff (b : Bytes) (s : State) (f : Frame) :
    exec (.fhParse b) s = .next { s with response := .ok (.frame f) } ↔ parseFrame b = .ok f := by
  simp only [exec, execFhParse]
  cases parseFrame b <;> simp [State.setResponse]

/-- A buffer's header does not depend on the bytes after it. -/
theorem splitHeader_append {b body : Bytes} {h : HeaderBytes} (extra : Bytes) (hs : splitHeader b = some (h, body)) :
    splitHeader (b ++ extra) = some (h, body ++ extra) := by
  unfold splitHeader at hs
  split at hs
  · cases hs; rfl
  · cases hs

/-- A frame whose pad length lies in its body does not depend on the bytes after it. -/
theorem frameOf_append (hdr : FrameHeader) (body extra : Bytes) (h : padBytes hdr.flags ≤ body.length) :
    frameOf hdr (body ++ extra) = frameOf hdr body := by
  have padLen_eq : (if padBytes hdr.flags = 1 then (body ++ extra).headD 0 else 0)
      = if padBytes hdr.flags = 1 then body.headD 0 else 0 := by
    split
    · cases body with
      | nil => rw [List.length_nil] at h; omega
      | cons x body => rfl
    · rfl
  simp only [frameOf, padLen_eq]

/-- Bytes after a parsed frame are ignored (R135 (a)). -/
theorem parseFrame_append {b : Bytes} {f : Frame} (extra : Bytes) (h : parseFrame b = .ok f) : parseFrame (b ++ extra) = .ok f := by
  obtain ⟨hd, body, hs, rfl, hb, hr⟩ := (parseFrame_eq_ok_iff b f).mp h
  refine (parseFrame_eq_ok_iff _ _).mpr ⟨hd, body ++ extra, splitHeader_append extra hs, ?_, ?_, hr⟩
  · exact (frameOf_append _ _ _ (by rw [frameOf_header] at hb hr; omega)).symm
  · rw [List.length_append]
    omega

/-- The statements' `P` is the model's (R94). -/
theorem padOne_eq (flags : Byte) : padOne flags = padBytes flags := by
  simp only [padOne, padBytes, padded_eq, decide_eq_true_eq]

end Sys2Proof.Machine

open Sys2Proof.Machine

/-- Settles O17: the regions of R134 leave no gap, since the two length checks make every subtraction exact. -/
theorem parsedRegionsAddUp : Obligations.ParsedRegionsAddUp := by
  intro b extra s f h
  rw [exec_fhParse_frame_iff] at h ⊢
  obtain ⟨hd, body, -, rfl, -, hr⟩ := (parseFrame_eq_ok_iff b f).mp h
  refine ⟨?_, ?_, ?_, ?_, ?_, parseFrame_append extra h⟩ <;> simp only [frameOf, padOne_eq] at hr ⊢ <;> omega

end

section
/-!
The reset state (R53, R320).
-/

namespace Sys2Proof.Machine

/-- Every context is IDLE at reset (R53). -/
theorem reset_ctx_idle {c : SendCtx} (h : c ∈ State.reset.sendCtx) : c.phase = .idle := by
  rw [List.eq_of_mem_replicate h]
  rfl

end Sys2Proof.Machine

open Sys2Proof.Machine

/-- Settles O54: the reset state, field by field. -/
theorem resetValues : Obligations.ResetValues :=
  ⟨⟨rfl, rfl, rfl, rfl, rfl, rfl⟩, rfl, rfl, rfl, by decide, rfl, fun _ => rfl, by decide, fun _ => reset_ctx_idle⟩

/-- Settles O55: the tables are empty, no stream is open and no context is active. -/
theorem resetIsLegal : Obligations.ResetIsLegal := by
  refine ⟨by decide, by decide, reset_streams_wf, fun c hc ha => ?_, ?_⟩
  · exact absurd ha (SendCtx.not_active_of_idle (reset_ctx_idle hc))
  · exact List.pairwise_replicate.mpr (.inr fun ha => absurd ha (SendCtx.not_active_of_idle rfl))

end

section
/-!
The frame of an instruction by unit (R60, R73): which unit each kind of `Change` belongs to, then one part of the state at a time.
-/

namespace Sys2Proof.Machine

open Sys2Proof.Claims

/-! ### The unit of an instruction that writes a table -/

/-- The statements' block readers are the model laws'. -/
theorem interpretsBlock_eq_readsBlock (i : Instr) : interpretsBlock i = readsBlock i := by cases i <;> rfl

/-- HD.DECODE and the representations run on the DEC unit (R73). -/
theorem unitOf_of_readsBlock {i : Instr} (hi : readsBlock i = true) : unitOf i = .dec := by
  cases i <;> simp only [readsBlock, Bool.false_eq_true] at hi <;> rfl

/-- DT.ADD and DT.SETSIZE run on the unit of the table they write (R73). -/
theorem unitOf_of_writesTable {i : Instr} {tid : TableId} (hi : (∃ n v, i = .dtAdd tid n v) ∨ ∃ n, i = .dtSetsize tid n) :
    unitOf i = tableUnit tid := by
  obtain ⟨n, v, rfl⟩ | ⟨n, rfl⟩ := hi <;> rfl

/-! ### What a change leaves alone -/

/-- Only the CFG unit writes the CFG bank (R271). -/
theorem Change.cfg_eq {i : Instr} {s t : State} (h : Change i s t) (hu : unitOf i ≠ .cfg) : t.cfg = s.cfg := by
  cases h with
  | cfg u hi => exact absurd (congrArg unitOf hi) hu
  | table tid => exact s.setTable_cfg tid _
  | _ => rfl

/-- Only the ENC unit writes the encoder's table (R60, R73). -/
theorem Change.enc_eq {i : Instr} {s t : State} (h : Change i s t) (hu : unitOf i ≠ .enc) : t.enc = s.enc := by
  cases h with
  | table tid d hi =>
    cases tid
    · exact absurd (unitOf_of_writesTable hi) hu
    · rfl
  | encode l hi => exact absurd (congrArg unitOf hi) hu
  | _ => rfl

/-- Only the DEC unit writes the decoder's table (R60, R73). -/
theorem Change.dec_eq {i : Instr} {s t : State} (h : Change i s t) (hu : unitOf i ≠ .dec) : t.dec = s.dec := by
  cases h with
  | table tid d hi =>
    cases tid
    · rfl
    · exact absurd (unitOf_of_writesTable hi) hu
  | decoded d hs hi => exact absurd (unitOf_of_readsBlock hi) hu
  | decodeFailed d c k hi => exact absurd (unitOf_of_readsBlock hi) hu
  | _ => rfl

/-- Only the interpretation of a block writes DEC_FAULT and its cause (R30). -/
theorem Change.decFault_eq {i : Instr} {s t : State} (h : Change i s t) (hr : readsBlock i = false) :
    t.decFault = s.decFault ∧ t.decFaultCause = s.decFaultCause := by
  cases h with
  | decodeFailed d c k hi => rw [hr] at hi; cases hi
  | table tid => exact ⟨s.setTable_decFault tid _, s.setTable_decFaultCause tid _⟩
  | _ => exact ⟨rfl, rfl⟩

/-- Only the WCT unit writes the windows, GOAWAY_SEEN, the streams and the contexts (R60, R73). -/
theorem Change.wct_eq {i : Instr} {s t : State} (h : Change i s t) (hu : unitOf i ≠ .wct) :
    t.connWindow = s.connWindow ∧ t.goawaySeen = s.goawaySeen ∧ t.streams = s.streams ∧ t.sendCtx = s.sendCtx := by
  cases h with
  | table tid d => cases tid <;> exact ⟨rfl, rfl, rfl, rfl⟩
  | respond | cfg | encode | decoded | decodeFailed => exact ⟨rfl, rfl, rfl, rfl⟩
  | _ => subst i; exact absurd rfl hu

/-- No instruction touches the queue of issues (log 1). -/
theorem Change.inbox_eq {i : Instr} {s t : State} (h : Change i s t) : t.inbox = s.inbox := by
  cases h with
  | table tid => exact s.setTable_inbox tid _
  | _ => rfl

/-- The step of an issue that decodes (R69, R101). -/
theorem step_of_decode {s : State} {q : Issue} {rest : List Issue} {i : Instr} (hq : s.inbox = q :: rest)
    (hd : decode q.format q.bytes = .ok i) : step s = exec i (s.setInbox rest) := by
  simp only [step, hq, hd]

end Sys2Proof.Machine

open Sys2Proof Sys2Proof.Machine Sys2Proof.Claims

/-- Settles O60: each part of the state is left alone by every change that belongs to another unit. -/
theorem unitsKeepApart : Obligations.UnitsKeepApart := by
  intro i s t h
  have hc := exec_change i s t h
  exact ⟨hc.cfg_eq, hc.enc_eq, hc.dec_eq, fun hr => hc.decFault_eq ((interpretsBlock_eq_readsBlock i).symm.trans hr),
    hc.wct_eq, hc.inbox_eq⟩

/-- Settles O9: a decoded issue leaves the queue, and its instruction runs on what remains. -/
theorem stepRunsIssuedInstruction : Obligations.StepRunsIssuedInstruction :=
  fun _ _ _ _ => step_of_decode

end

section
/-!
The encoder read back, format by format (R90 to R102, R172; the operand layout of commands: log 2). One lemma per reader says that it
takes what its writer wrote and no more; a format's law is their sequence.
-/

namespace Sys2Proof

open Machine

/-- A bind whose first part answers is its second part. -/
@[simp] theorem except_ok_bind {ε α β : Type} (a : α) (f : α → Except ε β) : (Except.ok a >>= f) = f a := rfl

/-! ### Fields of the command port (R11, log 2) -/

@[simp] theorem bytesBE_length (v n : Nat) : (bytesBE v n).length = n := by
  induction n with
  | zero => rfl
  | succ n ih => simp [bytesBE, ih]

/-- The big-endian sum of R11 from any start: the written bytes add the number modulo their range. -/
theorem foldl_bytesBE (v n acc : Nat) :
    (bytesBE v n).foldl (fun acc x => acc * 256 + x.toNat) acc = acc * 256 ^ n + v % 256 ^ n := by
  induction n generalizing acc with
  | zero => simp [bytesBE, Nat.mod_one]
  | succ n ih =>
    rw [bytesBE, List.foldl_cons, ih, BitVec.toNat_ofNat, Nat.pow_succ 256, Nat.mod_mul]
    ring

/-- A number in range is read back from its big-endian bytes (R11). -/
theorem beNat_bytesBE {v n : Nat} (h : v < 256 ^ n) : beNat (bytesBE v n) = v := by
  rw [beNat, foldl_bytesBE, Nat.mod_eq_of_lt h, Nat.zero_mul, Nat.zero_add]

@[simp] theorem memRead_append (s rest : Bytes) : memRead s.length (s ++ rest) = some (s, rest) := by simp [memRead]

theorem readField_bytesBE {v n : Nat} (h : v < 256 ^ n) (rest : Bytes) : readField n (bytesBE v n ++ rest) = .ok (v, rest) := by
  have hm := memRead_append (bytesBE v n) rest
  rw [bytesBE_length] at hm
  rw [readField, hm]
  simp only [beNat_bytesBE h]

/-- A word is read back from a field at least as wide. -/
theorem readField_word {w n : Nat} (h : w ≤ 8 * n) (x : BitVec w) (rest : Bytes) :
    readField n (bytesBE x.toNat n ++ rest) = .ok (x.toNat, rest) := by
  refine readField_bytesBE (Nat.lt_of_lt_of_le x.isLt ?_) rest
  rw [show 256 = 2 ^ 8 from rfl, ← Nat.pow_mul]
  exact Nat.pow_le_pow_right (by decide) h

/-- A field of one byte. -/
theorem readField_one (x : Byte) (rest : Bytes) : readField 1 (x :: rest) = .ok (x.toNat, rest) := by
  simpa [bytesBE] using readField_word (n := 1) (by decide) x rest

/-- A word is read back from a bounded field when the bound is its range. -/
theorem readBounded_word {w n : Nat} (h : w ≤ 8 * n) (x : BitVec w) (rest : Bytes) :
    readBounded n (2 ^ w) (bytesBE x.toNat n ++ rest) = .ok (x.toNat, rest) := by
  simp [readBounded, readField_word h, x.isLt]

@[simp] theorem readU8_bytesBE (x : Byte) (rest : Bytes) : readU8 (bytesBE x.toNat 1 ++ rest) = .ok (x, rest) := by
  simp [readU8, readField_word]

@[simp] theorem readU24_bytesBE (x : U24) (rest : Bytes) : readU24 (bytesBE x.toNat 3 ++ rest) = .ok (x, rest) := by
  simp [readU24, readField_word]

@[simp] theorem readU32_bytesBE (x : U32) (rest : Bytes) : readU32 (bytesBE x.toNat 4 ++ rest) = .ok (x, rest) := by
  simp [readU32, readField_word]

@[simp] theorem readU1_bytesBE (x : BitVec 1) (rest : Bytes) : readU1 (bytesBE x.toNat 1 ++ rest) = .ok (x, rest) := by
  rw [readU1, show readBounded 1 2 (bytesBE x.toNat 1 ++ rest) = _ from readBounded_word (by decide) x rest]
  simp

@[simp] theorem readStreamId_writeStreamId (id : StreamId) (rest : Bytes) : readStreamId (writeStreamId id ++ rest) = .ok (id, rest) := by
  rw [readStreamId, writeStreamId, readBounded_word (by decide)]
  simp

/-- A natural operand fits the port's 64 bits (log 2). -/
theorem lt_of_natFits {n : Nat} (h : natFits n = true) : n < 256 ^ 8 := of_decide_eq_true h

/-- The length of a byte string fits the port's 32 bits (log 2). -/
theorem Bytes.length_lt_of_fits {s : Bytes} (h : s.fits = true) : s.length < 256 ^ 4 := of_decide_eq_true h

theorem readNat_bytesBE {n : Nat} (h : natFits n = true) (rest : Bytes) : readNat (bytesBE n 8 ++ rest) = .ok (n, rest) :=
  readField_bytesBE (lt_of_natFits h) rest

@[simp] theorem readBool_writeBool (b : Bool) (rest : Bytes) : readBool (writeBool b ++ rest) = .ok (b, rest) := by
  cases b <;> simp [readBool, writeBool, readBounded, readField_one]

@[simp] theorem readTable_writeTable (t : TableId) (rest : Bytes) : readTable (writeTable t ++ rest) = .ok (t, rest) := by
  cases t <;> simp [readTable, writeTable, readBounded, readField_one]

@[simp] theorem readIdxMode_writeIdxMode (m : IdxMode) (rest : Bytes) : readIdxMode (writeIdxMode m ++ rest) = .ok (m, rest) := by
  cases m <;> simp [readIdxMode, writeIdxMode, readBounded, readField_one]

@[simp] theorem readHuffMode_writeHuffMode (m : HuffMode) (rest : Bytes) : readHuffMode (writeHuffMode m ++ rest) = .ok (m, rest) := by
  cases m <;> simp [readHuffMode, writeHuffMode, readBounded, readField_one]

theorem readBytes_writeBytes {s : Bytes} (h : s.fits = true) (rest : Bytes) : readBytes (writeBytes s ++ rest) = .ok (s, rest) := by
  rw [readBytes, writeBytes, List.append_assoc, readField_bytesBE (Bytes.length_lt_of_fits h)]
  simp

theorem readEncEntry_writeEncEntry {e : EncEntry} (h : e.fits = true) (rest : Bytes) :
    readEncEntry (writeEncEntry e ++ rest) = .ok (e, rest) := by
  obtain ⟨hn, hv⟩ := Bool.and_eq_true_iff.mp h
  simp [readEncEntry, writeEncEntry, readBytes_writeBytes hn, readBytes_writeBytes hv]

theorem readEncEntries_writeEncEntries (es : List EncEntry) (h : ∀ e ∈ es, e.fits = true) (rest : Bytes) :
    readEncEntries es.length (writeEncEntries es ++ rest) = .ok (es, rest) := by
  induction es with
  | nil => rfl
  | cons e es ih =>
    obtain ⟨he, hes⟩ := List.forall_mem_cons.mp h
    simp [readEncEntries, writeEncEntries, readEncEntry_writeEncEntry he, ih hes]

@[simp] theorem readOptU32_writeOptU32 (v : Option U32) (rest : Bytes) : readOptU32 (writeOptU32 v ++ rest) = .ok (v, rest) := by
  cases v <;> simp [readOptU32, writeOptU32, readBool, readBounded, readField_one]

@[simp] theorem readHeaderBytes_toList (h : HeaderBytes) (rest : Bytes) : readHeaderBytes (h.toList ++ rest) = .ok (h, rest) := rfl

/-! ### Commands (R102) -/

/-- A command is read back from its encoding, whatever follows. -/
theorem decodeCommand_encode {i : Instr} (hf : i.format = .cmd) (hw : i.wf = true) (rest : Bytes) :
    decodeCommand (encode i ++ rest) = .ok (i, rest) := by
  cases i <;> simp only [Instr.format, reduceCtorEq] at hf <;> simp only [Instr.wf, Bool.and_eq_true] at hw <;>
    simp only [encode, List.cons_append, List.append_assoc, decodeCommand, decodeOperands, BitVec.reduceToNat]
  case fhUnpack | fhPack | wcOpen | wcUpdate | wcRst | wcGoaway | wcHdrs | wcCredit => simp
  case cfgApply => simp [writeSettings]
  case fhParse | fhSplit | hdDecode => simp [readBytes_writeBytes hw]
  case fhCreate =>
    obtain ⟨⟨h1, h2⟩, h3⟩ := hw
    simp [readBytes_writeBytes h1, readBytes_writeBytes h2, readBytes_writeBytes h3]
  case dtAdd => simp [readBytes_writeBytes hw.1, readBytes_writeBytes hw.2]
  case dtGet | dtSetsize | sdStep | sdPoll => simp [readNat_bytesBE hw]
  case sdStart => simp [readNat_bytesBE hw.1, readNat_bytesBE hw.2]
  case heEncode es =>
    obtain ⟨hlen, hfit⟩ := hw
    rw [readField_bytesBE (of_decide_eq_true hlen)]
    simp [readEncEntries_writeEncEntries es (List.all_eq_true.mp hfit)]

/-- A byte outside R102's table is rejected by name, whatever follows it (R113). -/
theorem decodeOperands_unlisted {opcode : Byte} (b : Bytes)
    (h : opcode.toNat ∉ [0x01, 0x02, 0x03, 0x04, 0x05, 0x10, 0x11, 0x12, 0x20, 0x28, 0x30, 0x31, 0x32, 0x33, 0x34, 0x35,
      0x38, 0x39, 0x3A, 0x40]) : decodeOperands opcode b = .error (.unknownCommand opcode) := by
  unfold decodeOperands
  split
  case h_21 => rfl
  all_goals exact absurd (by simp [*]) h

/-! ### The integers of R170 and R172 -/

/-- The last continuation byte, its top bit 0 (R170). -/
theorem intDecMore_last (rest : Bytes) {r acc m : Nat} (hr : r < 128) (hmax : acc + r * 2 ^ m ≤ Config.intMax) :
    intDecMore acc m (BitVec.ofNat 8 r :: rest) = .ok (acc + r * 2 ^ m, rest) := by
  have hc : (BitVec.ofNat 8 r).toNat = r := Nat.mod_eq_of_lt (by omega)
  simp only [intDecMore, hc, Nat.mod_eq_of_lt hr, if_neg (Nat.not_lt.mpr hmax), if_pos hr]

/-- The continuation bytes are read back onto what the loop has, while the sum is in range (R170, R172). -/
theorem intDecMore_intEncMore (rest : Bytes) {fuel r acc m : Nat} (hr : r ≤ fuel) (hmax : acc + r * 2 ^ m ≤ Config.intMax) :
    intDecMore acc m (intEncMore fuel r ++ rest) = .ok (acc + r * 2 ^ m, rest) := by
  induction fuel generalizing r acc m with
  | zero => exact intDecMore_last rest (by omega) hmax
  | succ fuel ih =>
    rw [intEncMore]
    split
    · have hc : (BitVec.ofNat 8 (128 + r % 128)).toNat = 128 + r % 128 := Nat.mod_eq_of_lt (by omega)
      have hsum : acc + r % 128 * 2 ^ m + r / 128 * 2 ^ (m + 7) = acc + r * 2 ^ m := by
        conv_rhs => rw [← Nat.mod_add_div r 128]
        ring
      have hlow : acc + r % 128 * 2 ^ m ≤ Config.intMax := by omega
      simp only [List.cons_append, intDecMore, hc, Nat.add_mod_left, Nat.mod_mod, if_neg (Nat.not_lt.mpr hlow),
        if_neg (show ¬ 128 + r % 128 < 128 by omega)]
      rw [ih (by omega) (by omega), hsum]
    · exact intDecMore_last rest (by omega) hmax

/-- The first byte of an integer: the pattern bits, and the integer's low part below them (R172). -/
theorem toNat_pattern_or {n x : Nat} {hi : Byte} (hn : n ≤ 8) (hhi : hi.toNat % 2 ^ n = 0) (hx : x < 2 ^ n) :
    (hi ||| BitVec.ofNat 8 x).toNat = hi.toNat + x := by
  have hx8 : x < 2 ^ 8 := Nat.lt_of_lt_of_le hx (Nat.pow_le_pow_right (by decide) hn)
  obtain ⟨a, ha⟩ := Nat.dvd_of_mod_eq_zero hhi
  rw [BitVec.toNat_or, BitVec.toNat_ofNat, Nat.mod_eq_of_lt hx8, ha, Nat.two_pow_add_eq_or_of_lt hx]

/-- An integer in range is read back, and the cursor stands after the bytes written (R173). -/
theorem intDec_intEnc {v n : Nat} {hi : Byte} (rest : Bytes) (hn : n ≤ 8) (hhi : hi.toNat % 2 ^ n = 0) (hv : v ≤ Config.intMax) :
    intDec n (intEnc v n hi ++ rest) = .ok (v, rest) := by
  have low {x : Nat} (hx : x < 2 ^ n) : (hi ||| BitVec.ofNat 8 x).toNat % 2 ^ n = x := by
    rw [toNat_pattern_or hn hhi hx, Nat.add_mod, hhi, Nat.zero_add, Nat.mod_mod, Nat.mod_eq_of_lt hx]
  have hpos := Nat.two_pow_pos n
  rw [intEnc]
  split
  · simp only [List.cons_append, List.nil_append, intDec, low (show v < 2 ^ n by omega), if_pos ‹v < 2 ^ n - 1›]
  · simp only [List.cons_append, intDec, low (show 2 ^ n - 1 < 2 ^ n by omega), Nat.lt_irrefl, if_false]
    rw [intDecMore_intEncMore rest (Nat.le_refl _) (by omega)]
    congr 2
    omega

/-! ### Strings and literals (R96, R98) -/

theorem readString_encode {w : WireString} (h : w.fits = true) (rest : Bytes) : readString (w.encode ++ rest) = .ok (w, rest) := by
  obtain ⟨huff, octets⟩ := w
  have hhi : (if huff then (0x80 : Byte) else 0x00).toNat % 2 ^ 7 = 0 := by cases huff <;> rfl
  have hlen := intDec_intEnc (octets ++ rest) (by decide) hhi (of_decide_eq_true h)
  obtain ⟨x, l, he, hx⟩ := intEnc_cons octets.length 7 (if huff then 0x80 else 0x00)
  have hflag : decide (128 ≤ ((if huff then (0x80 : Byte) else 0x00) ||| BitVec.ofNat 8 x).toNat) = huff := by
    rw [toNat_pattern_or (by decide) hhi hx]
    cases huff
    · simpa using hx
    · simp
  simp only [WireString.encode, List.append_assoc, he, List.cons_append] at hlen ⊢
  simp only [readString, hlen, except_ok_bind, memRead_append, hflag]

theorem readNameRef_encode {n : Nat} {hi : Byte} {name : NameRef} (hn : n ≤ 8) (hhi : hi.toNat % 2 ^ n = 0)
    (h : name.fits = true) (rest : Bytes) : readNameRef n (name.encode n hi ++ rest) = .ok (name, rest) := by
  cases name with
  | indexed i =>
    obtain ⟨h1, hi'⟩ := Bool.and_eq_true_iff.mp h
    have h0 : i ≠ 0 := Nat.pos_iff_ne_zero.mp (of_decide_eq_true h1)
    rw [readNameRef, NameRef.encode, intDec_intEnc rest hn hhi (of_decide_eq_true hi')]
    simp [h0]
  | inline w =>
    rw [readNameRef, NameRef.encode, List.append_assoc, intDec_intEnc _ hn hhi (Nat.zero_le _)]
    simp [readString_encode (w := w) h]

theorem readLiteral_encode {n : Nat} {hi : Byte} {name : NameRef} {value : WireString} (hn : n ≤ 8) (hhi : hi.toNat % 2 ^ n = 0)
    (hw : (name.fits && value.fits) = true) (rest : Bytes) :
    readLiteral n (name.encode n hi ++ (value.encode ++ rest)) = .ok ((name, value), rest) := by
  obtain ⟨h1, h2⟩ := Bool.and_eq_true_iff.mp hw
  rw [readLiteral, readNameRef_encode hn hhi h1]
  simp [readString_encode h2]

/-! ### Header representations (R95) -/

/-- The pattern bits of a representation above zeros (R95). -/
def RepKind.pattern : RepKind → Byte
  | .indexed => 0x80
  | .litInc => 0x40
  | .sizeUpd => 0x20
  | .litNever => 0x10
  | .litNo => 0x00

/-- The width of the integer below the pattern (R95). -/
def RepKind.intWidth : RepKind → Nat
  | .indexed => 7
  | .litInc => 6
  | .sizeUpd => 5
  | .litNever => 4
  | .litNo => 4

/-- Leading bits `0…01` say between which powers of two the byte is. -/
theorem leadingBits_eq_one_iff (f : Byte) {n w : Nat} (hw : 0 < w) (h : n + w = 8) :
    f.extractLsb' n w = 1#w ↔ 2 ^ n ≤ f.toNat ∧ f.toNat < 2 * 2 ^ n := by
  have hpos := Nat.two_pow_pos n
  have hlt : f.toNat / 2 ^ n < 2 ^ w := by
    rw [Nat.div_lt_iff_lt_mul hpos, ← Nat.pow_add, Nat.add_comm, h]
    exact f.isLt
  rw [← BitVec.toNat_inj, BitVec.extractLsb'_toNat, Nat.shiftRight_eq_div_pow, Nat.mod_eq_of_lt hlt, BitVec.toNat_ofNat,
    Nat.mod_eq_of_lt (Nat.one_lt_two_pow hw.ne'), Nat.div_eq_iff hpos]
  omega

/-- The first bytes of each representation are one range: the pattern with anything below it (R95, R191). -/
theorem repKind_eq_iff (f : Byte) (k : RepKind) :
    repKind f = k ↔ k.pattern.toNat ≤ f.toNat ∧ f.toNat < k.pattern.toNat + 2 ^ k.intWidth := by
  have hf := f.isLt
  simp (disch := decide) only [repKind, leadingBits_eq_one_iff]
  cases k <;> simp only [RepKind.pattern, RepKind.intWidth, BitVec.reduceToNat] <;> split_ifs <;>
    simp only [true_iff, false_iff] <;> omega

/-- The integer below a pattern is within the byte, and the pattern is 0 there (R95). -/
theorem RepKind.pattern_mod (k : RepKind) : k.intWidth ≤ 8 ∧ k.pattern.toNat % 2 ^ k.intWidth = 0 := by cases k <;> decide

/-- A pattern with anything below it selects its representation (R95). -/
theorem repKind_pattern_or (k : RepKind) {x : Nat} (hx : x < 2 ^ k.intWidth) : repKind (k.pattern ||| BitVec.ofNat 8 x) = k := by
  have hsum := toNat_pattern_or k.pattern_mod.1 k.pattern_mod.2 hx
  exact (repKind_eq_iff _ k).mpr (by omega)

/-- The representation of a kind, read from bytes whose first byte selected it (R95). -/
def RepKind.read (b : Bytes) : RepKind → Except DecodeCause (Instr × Bytes)
  | .indexed => intDec 7 b >>= fun (i, rest) => .ok (.hdIndexed i, rest)
  | .litInc => readLiteral 6 b >>= fun ((name, value), rest) => .ok (.hdLitinc name value, rest)
  | .sizeUpd => intDec 5 b >>= fun (size, rest) => .ok (.hdSizeupd size, rest)
  | .litNever => readLiteral 4 b >>= fun ((name, value), rest) => .ok (.hdLitnever name value, rest)
  | .litNo => readLiteral 4 b >>= fun ((name, value), rest) => .ok (.hdLitno name value, rest)

/-- Bytes that begin with a pattern and anything below it are read as the pattern's representation (R95). -/
theorem decodeRepresentation_underPattern (k : RepKind) {b : Bytes} (rest : Bytes)
    (hb : ∃ x l, b = (k.pattern ||| BitVec.ofNat 8 x) :: l ∧ x < 2 ^ k.intWidth) :
    decodeRepresentation (b ++ rest) = k.read (b ++ rest) := by
  obtain ⟨x, l, rfl, hx⟩ := hb
  simp only [List.cons_append, decodeRepresentation, repKind_pattern_or k hx]
  cases k <;> rfl

/-- A representation is read back from its encoding, whatever follows (R95, R97). -/
theorem decodeRepresentation_encode {i : Instr} (hf : i.format = .hr) (hw : i.wf = true) (rest : Bytes) :
    decodeRepresentation (encode i ++ rest) = .ok (i, rest) := by
  cases i <;> simp only [Instr.format, reduceCtorEq] at hf <;> simp only [encode, List.append_assoc]
  case hdIndexed n =>
    exact (decodeRepresentation_underPattern .indexed rest (intEnc_cons n 7 0x80)).trans
      (congrArg (· >>= _) (intDec_intEnc rest (by decide) rfl (of_decide_eq_true hw)))
  case hdSizeupd n =>
    exact (decodeRepresentation_underPattern .sizeUpd rest (intEnc_cons n 5 0x20)).trans
      (congrArg (· >>= _) (intDec_intEnc rest (by decide) rfl (of_decide_eq_true hw)))
  case hdLitinc name value =>
    exact (decodeRepresentation_underPattern .litInc _ (nameRef_cons 6 0x40 name)).trans
      (congrArg (· >>= _) (readLiteral_encode (by decide) rfl hw rest))
  case hdLitno name value =>
    exact (decodeRepresentation_underPattern .litNo _ (nameRef_cons 4 0x00 name)).trans
      (congrArg (· >>= _) (readLiteral_encode (by decide) rfl hw rest))
  case hdLitnever name value =>
    exact (decodeRepresentation_underPattern .litNever _ (nameRef_cons 4 0x10 name)).trans
      (congrArg (· >>= _) (readLiteral_encode (by decide) rfl hw rest))

/-- The instructions a representation kind stands for (R95). -/
def RepKind.Selects : RepKind → Instr → Prop
  | .indexed, i => ∃ n, i = .hdIndexed n
  | .litInc, i => ∃ n v, i = .hdLitinc n v
  | .sizeUpd, i => ∃ n, i = .hdSizeupd n
  | .litNever, i => ∃ n v, i = .hdLitnever n v
  | .litNo, i => ∃ n v, i = .hdLitno n v

/-- What is read is of the kind its first byte selects (R191). -/
theorem repKind_selects {f : Byte} {l rest : Bytes} {i : Instr} (h : decodeRepresentation (f :: l) = .ok (i, rest)) :
    (repKind f).Selects i := by
  rcases decodeRep_cases f l rest i h with
    ⟨n, hk, -, rfl⟩ | ⟨n, v, hk, -, rfl⟩ | ⟨n, hk, -, rfl⟩ | ⟨n, v, hk, -, rfl⟩ | ⟨n, v, hk, -, rfl⟩ <;> rw [hk]
  exacts [⟨n, rfl⟩, ⟨n, v, rfl⟩, ⟨n, rfl⟩, ⟨n, v, rfl⟩, ⟨n, v, rfl⟩]

/-! ### The frame type byte (R92, R131) -/

/-- A property of every type byte: of the ten named ones and of those from 10 on (R92). -/
theorem typeByte_cases {P : Byte → Prop} (named : ∀ k : Fin 10, P (BitVec.ofNat 8 k)) (unknown : ∀ t : Byte, 10 ≤ t.toNat → P t)
    (t : Byte) : P t := by
  by_cases h : t.toNat < 10
  · simpa using named ⟨t.toNat, h⟩
  · exact unknown t (Nat.le_of_not_lt h)

theorem decodeFrameType_unknown {t : Byte} (h : 10 ≤ t.toNat) : decodeFrameType t = .ftUnknown t := by
  unfold decodeFrameType
  split
  case h_11 => rfl
  all_goals omega

theorem classify_unknown {t : Byte} (h : 10 ≤ t.toNat) : classify t = .unknown := by
  unfold classify
  split
  case h_11 => rfl
  all_goals omega

theorem frameTypeOf_unknown {t : Byte} (h : 10 ≤ t.toNat) : Claims.frameTypeOf t = .unknown :=
  List.getD_eq_default _ _ h

/-- The model's class of a type byte is the statements' (R92, R131). -/
theorem classify_eq_frameTypeOf (t : Byte) : classify t = Claims.frameTypeOf t :=
  typeByte_cases (P := fun t => classify t = Claims.frameTypeOf t) (by decide)
    (fun _ h => (classify_unknown h).trans (frameTypeOf_unknown h).symm) t

/-- The instruction of a type byte answers the byte's class (R131; log 19). -/
theorem exec_decodeFrameType (t : Byte) (s : State) : exec (decodeFrameType t) s = classifyByte t s := by
  refine typeByte_cases (P := fun t => exec (decodeFrameType t) s = classifyByte t s) (fun k => ?_) (fun t h => ?_) t
  · fin_cases k <;> rfl
  · rw [decodeFrameType_unknown h]
    rfl

/-- A frame type is read back from its type byte (R92). -/
theorem decode_fh_encode {i : Instr} (hf : i.format = .fh) (hw : i.wf = true) : decode .fh (encode i) = .ok i := by
  cases i <;> simp only [Instr.format, reduceCtorEq] at hf
  case ftUnknown t => exact congrArg Except.ok (decodeFrameType_unknown (of_decide_eq_true hw))
  all_goals rfl

/-! ### An issue (R101, R113) -/

/-- A well-formed instruction is read back from its encoding in its format. -/
theorem decode_encode {i : Instr} (hw : i.wf = true) : decode i.format (encode i) = .ok i := by
  cases hf : i.format with
  | cmd =>
    have h := decodeCommand_encode hf hw []
    rw [List.append_nil] at h
    simp only [decode, h]
  | hr =>
    have h := decodeRepresentation_encode hf hw []
    rw [List.append_nil] at h
    simp only [decode, h]
  | fh => exact decode_fh_encode hf hw

/-- The step of an issue that does not decode refuses it by name (R113). -/
theorem step_of_reject {s : State} {q : Issue} {rest : List Issue} {r : Reject} (hq : s.inbox = q :: rest)
    (hd : decode q.format q.bytes = .error r) : step s = refuseReject r := by
  simp only [step, hq, hd]

end Sys2Proof

open Sys2Proof Sys2Proof.Machine Sys2Proof.Claims

/-- Settles O1: commands, representations and type bytes are each read back by their own law. -/
theorem decodeOfEncode : Obligations.DecodeOfEncode := fun _ => decode_encode

/-- Settles O4: the range of the first byte is the range of one kind, and that kind selects the instruction. -/
theorem leadingBitsSelectRepresentation : Obligations.LeadingBitsSelectRepresentation := by
  intro f rest after i h
  have ofRange (k : RepKind) (lo : k.pattern.toNat ≤ f.toNat) (hi : f.toNat < k.pattern.toNat + 2 ^ k.intWidth) : k.Selects i :=
    (repKind_eq_iff f k).mpr ⟨lo, hi⟩ ▸ repKind_selects h
  exact ⟨fun lo => ofRange .indexed lo f.isLt, ofRange .litInc, ofRange .sizeUpd, ofRange .litNever, ofRange .litNo (Nat.zero_le _)⟩

/-- Settles O2: each word is the encoding of its instruction. -/
theorem specWordsDecode : Obligations.SpecWordsDecode :=
  ⟨decode_encode (i := .wcGoaway) rfl,
    decode_encode (i := .fhUnpack ⟨0x00, 0x00, 0x0E, 0x00, 0x00, 0x00, 0x00, 0x00, 0x01⟩) rfl,
    decode_encode (i := .hdIndexed 2) rfl,
    decode_encode (i := .hdSizeupd 4096) rfl,
    decode_encode (i := .hdLitinc (.inline ⟨false, [0x61]⟩) ⟨false, [0x62]⟩) rfl,
    decode_encode (i := .hdLitno (.indexed 4) ⟨false, [0x2F]⟩) rfl,
    decode_encode (i := .hdLitnever (.indexed 63) ⟨false, [0x6F]⟩) rfl,
    decode_encode (i := .ftGoaway) rfl,
    decode_encode (i := .ftUnknown 0x0A) rfl⟩

/-- Settles O3: the opcode alone rejects the issue. -/
theorem unlistedOpcodeRefused : Obligations.UnlistedOpcodeRefused := by
  intro s opcode operands rest h hq
  have hd : decode .cmd (opcode :: operands) = .error (.unknownCommand opcode) := by
    simp only [decode, decodeCommand, decodeOperands_unlisted operands h]
  exact step_of_reject hq hd

/-- Settles O15: every instruction FT.* answers the model's class of its byte, which is R92's. -/
theorem frameTypesClassified : Obligations.FrameTypesClassified := by
  refine ⟨fun s => ⟨rfl, rfl, rfl, rfl, rfl, rfl, rfl, rfl, rfl, rfl, fun t h => ?_⟩, fun t s => ⟨decodeFrameType t, rfl, ?_⟩⟩
  · rw [← classify_unknown h]
    rfl
  · rw [exec_decodeFrameType, ← classify_eq_frameTypeOf]
    rfl

end

section
/-!
FH.UNPACK and FH.PACK on the nine bytes of a header (R130, R132), and that they are inverse (R133).
-/

namespace Sys2Proof.Machine

open Sys2Proof.Claims

/-! ### The operations as functions of their operands (R21: no state read or written) -/

theorem exec_fhUnpack (h : HeaderBytes) (s : State) :
    exec (.fhUnpack h) s = .next { s with response := .ok (.frameHeader (unpackHeader h)) } := rfl

theorem exec_fhPack (length : U24) (typeRaw flags : Byte) (rsv : BitVec 1) (streamId : StreamId) (s : State) :
    exec (.fhPack length typeRaw flags rsv streamId) s
      = .next { s with response := .ok (.bytes (packHeader length typeRaw flags rsv streamId).toList) } := rfl

/-! ### Unpacking and packing -/

/-- The model's unpacking is the statements' (R91, R130, R131). -/
theorem isUnpacked_unpackHeader (h : HeaderBytes) : IsUnpacked h (unpackHeader h) :=
  ⟨unpackHeader_length_toNat h, rfl, classify_eq_frameTypeOf h.b3, rfl, unpackHeader_rsv_toNat h, unpackHeader_streamId_toNat h⟩

/-- The reserved bit is no part of the stream id (R130). -/
theorem unpackHeader_streamId_congr (h : HeaderBytes) {x : Byte} (hx : x.toNat % 128 = h.b5.toNat % 128) :
    (unpackHeader { h with b5 := x }).streamId = (unpackHeader h).streamId := by
  apply BitVec.eq_of_toNat_eq
  simp only [unpackHeader_streamId_toNat, hx]

/-- The packed bytes as big-endian fields (R132). -/
theorem packHeader_toList (length : U24) (typeRaw flags : Byte) (rsv : BitVec 1) (streamId : StreamId) :
    (packHeader length typeRaw flags rsv streamId).toList
      = bytesBE length.toNat 3 ++ [typeRaw] ++ [flags] ++ bytesBE (rsv.toNat * 2 ^ 31 + streamId.toNat) 4 := by
  simp only [packHeader, HeaderBytes.toList, slice_eq_ofNat, streamWord_toNat]
  rfl

/-- The word at offsets 5 to 8 is put together again from what was taken out of it (R130, R132). -/
theorem streamWord_unpackHeader_toNat (h : HeaderBytes) :
    (streamWord (unpackHeader h).rsv (unpackHeader h).streamId).toNat
      = h.b5.toNat * 16777216 + h.b6.toNat * 65536 + h.b7.toNat * 256 + h.b8.toNat := by
  rw [streamWord_toNat, unpackHeader_rsv_toNat, unpackHeader_streamId_toNat]
  omega

/-- A byte slice is the byte that stands at its place in the number. -/
theorem slice_eq_of_toNat {w : Nat} {x : BitVec w} {b : Byte} (lo : Nat) (h : x.toNat / 2 ^ lo % 2 ^ 8 = b.toNat) :
    x.extractLsb' lo 8 = b :=
  BitVec.eq_of_toNat_eq ((toNat_slice x lo 8).trans h)

/-- FH.PACK after FH.UNPACK (R133). -/
theorem packHeader_unpackHeader (h : HeaderBytes) :
    packHeader (unpackHeader h).length (unpackHeader h).typeRaw (unpackHeader h).flags (unpackHeader h).rsv (unpackHeader h).streamId
      = h := by
  have hl := unpackHeader_length_toNat h
  have hw := streamWord_unpackHeader_toNat h
  exact (HeaderBytes.mk.injEq ..).mpr ⟨slice_eq_of_toNat 16 (by omega), slice_eq_of_toNat 8 (by omega), slice_eq_of_toNat 0 (by omega),
    rfl, rfl, slice_eq_of_toNat 24 (by omega), slice_eq_of_toNat 16 (by omega), slice_eq_of_toNat 8 (by omega),
    slice_eq_of_toNat 0 (by omega)⟩

/-- FH.UNPACK after FH.PACK (R133). -/
theorem unpackHeader_packHeader (length : U24) (typeRaw flags : Byte) (rsv : BitVec 1) (streamId : StreamId) :
    unpackHeader (packHeader length typeRaw flags rsv streamId) = ⟨length, typeRaw, classify typeRaw, flags, rsv, streamId⟩ := by
  have hw := streamWord_toNat rsv streamId
  have hlength : (unpackHeader (packHeader length typeRaw flags rsv streamId)).length = length := by
    apply BitVec.eq_of_toNat_eq
    simp only [unpackHeader_length_toNat, packHeader, toNat_slice]
    omega
  have hrsv : (unpackHeader (packHeader length typeRaw flags rsv streamId)).rsv = rsv := by
    apply BitVec.eq_of_toNat_eq
    simp only [unpackHeader_rsv_toNat, packHeader, toNat_slice]
    omega
  have hid : (unpackHeader (packHeader length typeRaw flags rsv streamId)).streamId = streamId := by
    apply BitVec.eq_of_toNat_eq
    simp only [unpackHeader_streamId_toNat, packHeader, toNat_slice]
    omega
  exact (FrameHeader.mk.injEq ..).mpr ⟨hlength, rfl, rfl, rfl, hrsv, hid⟩

end Sys2Proof.Machine

open Sys2Proof Sys2Proof.Machine Sys2Proof.Claims

/-- Settles O12: the fields are those of `unpackHeader`, and its stream id is a function of the low seven bits of byte 5. -/
theorem unpackExtractsFields : Obligations.UnpackExtractsFields := fun h s =>
  ⟨unpackHeader h, isUnpacked_unpackHeader h, exec_fhUnpack h s, fun x hx =>
    ⟨unpackHeader { h with b5 := x }, exec_fhUnpack _ s, unpackHeader_streamId_congr h hx⟩⟩

/-- Settles O13: the packed slices are the big-endian bytes of the fields. -/
theorem packEmitsFields : Obligations.PackEmitsFields := by
  intro length typeRaw flags rsv streamId s
  rw [exec_fhPack, packHeader_toList]

/-- Settles O14: `packHeader` and `unpackHeader` undo each other. -/
theorem packUnpackInverse : Obligations.PackUnpackInverse := by
  refine ⟨fun h s => ⟨unpackHeader h, exec_fhUnpack h s, ?_⟩,
    fun length typeRaw flags rsv streamId s => ⟨packHeader length typeRaw flags rsv streamId, exec_fhPack .., ?_⟩⟩
  · rw [exec_fhPack, packHeader_unpackHeader]
  · rw [exec_fhUnpack, unpackHeader_packHeader, classify_eq_frameTypeOf]

end

section
/-!
FH.PARSE on the bytes of a buffer (R134): the model's header, body and pad length are those the statements read from the buffer.
-/

namespace Sys2Proof.Machine

open Sys2Proof.Claims

/-- FH.PARSE of the machine fails as the parse of the buffer does. -/
theorem exec_fhParse_error_iff (b : Bytes) (s : State) (c : MalformedCause) :
    exec (.fhParse b) s = .next { s with response := .raised (.malformedFrame c) } ↔ parseFrame b = .error c := by
  simp only [exec, execFhParse]
  cases parseFrame b <;> simp [answer, raise, State.setResponse]

/-! ### The header and the body of a buffer -/

theorem splitHeader_of_short {b : Bytes} (h : b.length < 9) : splitHeader b = none := by
  unfold splitHeader
  split
  · simp only [List.length_cons] at h
    omega
  · rfl

/-- A buffer of nine bytes or more is its header and the bytes after it (R134). -/
theorem splitHeader_of_length {b : Bytes} (h : 9 ≤ b.length) : splitHeader b = some (headOf b, b.drop 9) := by
  match b, h with
  | _ :: _ :: _ :: _ :: _ :: _ :: _ :: _ :: _ :: _, _ => rfl

/-- The header and the body put together again. -/
theorem eq_append_of_splitHeader {b body : Bytes} {h : HeaderBytes} (hs : splitHeader b = some (h, body)) : b = h.toList ++ body := by
  unfold splitHeader at hs
  split at hs
  · cases hs
    rfl
  · cases hs

theorem unpackHeader_headOf_length (b : Bytes) : (unpackHeader (headOf b)).length.toNat = length24 b 0 := unpackHeader_length_toNat _

/-- The statements' `Q` is the model's (R94). -/
theorem prioFive_eq (flags : Byte) : prioFive flags = priorityBytes flags := by
  simp only [prioFive, priorityBytes, hasPriority_eq, decide_eq_true_eq]

/-- The pad length of the frame in a buffer (R134). -/
theorem frameOf_headOf_padLen (b : Bytes) : (frameOf (unpackHeader (headOf b)) (b.drop 9)).padLen.toNat = padLenOf b := by
  have hhead : (b.drop 9).headD 0 = b.getD 9 0 := by rw [List.headD_eq_head?_getD, List.head?_drop, List.getD_eq_getElem?_getD]
  simp only [frameOf, padLenOf, padOne_eq, hhead]
  exact apply_ite BitVec.toNat ..

/-- The frame the model finds in a buffer is the statements' (R134). -/
theorem isParsed_frameOf (b : Bytes) : IsParsed b (frameOf (unpackHeader (headOf b)) (b.drop 9)) := by
  simp only [IsParsed, padOne_eq, prioFive_eq]
  rw [← frameOf_headOf_padLen, ← unpackHeader_headOf_length]
  exact ⟨isUnpacked_unpackHeader _, rfl, rfl, rfl, rfl⟩

/-- FH.PARSE on a buffer of nine bytes or more, in the words of the statements: the checks in order (R134, D7). -/
theorem parseFrame_of_length {b : Bytes} (h : 9 ≤ b.length) :
    parseFrame b =
      if b.length - 9 < length24 b 0 then .error .bodyTruncated
      else if length24 b 0 < padOne (b.getD 4 0) + prioFive (b.getD 4 0) then .error .regionsExceedLength
      else if length24 b 0 < padOne (b.getD 4 0) + prioFive (b.getD 4 0) + padLenOf b then .error .paddingExceedsLength
      else .ok (frameOf (unpackHeader (headOf b)) (b.drop 9)) := by
  rw [parseFrame_of_split (splitHeader_of_length h), unpackHeader_headOf_length, frameOf_headOf_padLen, padOne_eq, prioFive_eq,
    List.length_drop]
  rfl

theorem parseFrame_of_short {b : Bytes} (h : b.length < 9) : parseFrame b = .error .headerTruncated := by
  simp only [parseFrame, splitHeader_of_short h]

end Sys2Proof.Machine

open Sys2Proof.Machine Sys2Proof.Claims

/-- Settles O16: a buffer of nine bytes has a header, and each clause is one branch of the checks that follow. -/
theorem parseFindsRegions : Obligations.ParseFindsRegions := by
  intro b s p q n
  refine ⟨fun h => ?_, fun h hn => ?_, fun h hn hr => ?_, fun h hn hr hp => ?_, fun h hn hp =>
    ⟨_, isParsed_frameOf b, (exec_fhParse_frame_iff b s _).mpr ?_⟩⟩
  · exact (exec_fhParse_error_iff b s _).mpr (parseFrame_of_short h)
  · rw [exec_fhParse_error_iff, parseFrame_of_length h, if_pos hn]
  · rw [exec_fhParse_error_iff, parseFrame_of_length h, if_neg (Nat.not_lt.mpr hn), if_pos hr]
  · rw [exec_fhParse_error_iff, parseFrame_of_length h, if_neg (Nat.not_lt.mpr hn), if_neg (Nat.not_lt.mpr hr), if_pos hp]
  · rw [parseFrame_of_length h, if_neg (Nat.not_lt.mpr hn), if_neg (Nat.not_lt.mpr (Nat.le_of_add_right_le hp)),
      if_neg (Nat.not_lt.mpr hp)]

end

section
/-!
FH.CREATE: when it refuses, the bytes it emits (R137), and that it undoes FH.PARSE on a whole frame (R139).
-/

namespace Sys2Proof.Machine

open Sys2Proof.Claims

theorem exec_fhCreate (streamId : StreamId) (typeRaw flags : Byte) (priority payload padding : Bytes) (s : State) :
    exec (.fhCreate streamId typeRaw flags priority payload padding) s =
      if createRefused flags priority payload padding then .refused .badOperand
      else .next { s with response := .ok (.bytes (createBytes streamId typeRaw flags priority payload padding)) } := rfl

/-! ### The sizes of the optional parts (R94) -/

theorem padBytes_cases (flags : Byte) : padded flags = true ∧ padBytes flags = 1 ∨ padded flags = false ∧ padBytes flags = 0 := by
  cases h : padded flags <;> simp [padBytes, h]

theorem priorityBytes_cases (flags : Byte) :
    hasPriority flags = true ∧ priorityBytes flags = 5 ∨ hasPriority flags = false ∧ priorityBytes flags = 0 := by
  cases h : hasPriority flags <;> simp [priorityBytes, h]

/-- FH.CREATE takes exactly the operands whose priority block is the one the flags announce, whose padding has a pad length, and
whose sum fits the length field (R137, D10). -/
theorem createRefused_eq_false_iff (flags : Byte) (priority payload padding : Bytes) :
    createRefused flags priority payload padding = false ↔
      priority.length = priorityBytes flags ∧ padding.length ≤ 255 * padBytes flags
        ∧ padBytes flags + priorityBytes flags + payload.length + padding.length ≤ 16777215 := by
  simp only [createRefused, Bool.or_eq_false_iff, Bool.and_eq_false_imp, decide_eq_false_iff_not, Bool.not_eq_true']
  rcases padBytes_cases flags with ⟨hp, hpn⟩ | ⟨hp, hpn⟩ <;> rcases priorityBytes_cases flags with ⟨hq, hqn⟩ | ⟨hq, hqn⟩ <;>
    simp only [hp, hpn, hq, hqn, reduceCtorEq, true_imp_iff, false_imp_iff, true_and, and_true] <;> omega

/-- FH.CREATE on operands it takes (R137). -/
theorem exec_fhCreate_of_taken {flags : Byte} {priority payload padding : Bytes}
    (h : createRefused flags priority payload padding = false) (streamId : StreamId) (typeRaw : Byte) (s : State) :
    exec (.fhCreate streamId typeRaw flags priority payload padding) s
      = .next { s with response := .ok (.bytes (createBytes streamId typeRaw flags priority payload padding)) } :=
  (exec_fhCreate ..).trans (if_neg (Bool.eq_false_iff.mp h))

/-- The pad-length byte, when there is one. -/
def padLengthByte (flags : Byte) (padding : Bytes) : Bytes := if padded flags then [BitVec.ofNat 8 padding.length] else []

theorem padLengthByte_eq (flags : Byte) (padding : Bytes) :
    padLengthByte flags padding = if padBytes flags = 1 then bytesBE padding.length 1 else [] := by
  rcases padBytes_cases flags with ⟨hp, hpn⟩ | ⟨hp, hpn⟩ <;> simp [padLengthByte, hp, hpn, bytesBE]

/-- The emitted bytes: with a priority block of the size the flags announce it stands in the frame as it was given (R137). -/
theorem createBytes_eq {flags : Byte} {priority : Bytes} (h : priority.length = priorityBytes flags) (streamId : StreamId)
    (typeRaw : Byte) (payload padding : Bytes) :
    createBytes streamId typeRaw flags priority payload padding
      = (packHeader (BitVec.ofNat 24 (padBytes flags + priorityBytes flags + payload.length + padding.length)) typeRaw flags 0 streamId).toList
        ++ padLengthByte flags padding ++ priority ++ payload ++ padding := by
  have hprio : (if hasPriority flags then priority else []) = priority := by
    rcases priorityBytes_cases flags with ⟨hq, -⟩ | ⟨hq, hqn⟩
    · rw [if_pos hq]
    · rw [if_neg (by simp [hq]), List.eq_nil_of_length_eq_zero (h.trans hqn)]
  simp only [createBytes, padLengthByte, hprio]

/-- FH.CREATE from the fields of a header with reserved bit 0 whose length is the sum of the parts writes that header (R137). -/
theorem exec_fhCreate_unpackHeader {h : HeaderBytes} {priority payload padding : Bytes} (hrsv : (unpackHeader h).rsv = 0)
    (hpriority : priority.length = priorityBytes (unpackHeader h).flags)
    (hpadding : padding.length ≤ 255 * padBytes (unpackHeader h).flags)
    (hsum : padBytes (unpackHeader h).flags + priorityBytes (unpackHeader h).flags + payload.length + padding.length
      = (unpackHeader h).length.toNat) (s : State) :
    exec (.fhCreate (unpackHeader h).streamId (unpackHeader h).typeRaw (unpackHeader h).flags priority payload padding) s
      = .next { s with response := .ok (.bytes
          (h.toList ++ (padLengthByte (unpackHeader h).flags padding ++ priority ++ payload ++ padding))) } := by
  have htaken := (createRefused_eq_false_iff (unpackHeader h).flags priority payload padding).mpr
    ⟨hpriority, hpadding, hsum ▸ Nat.le_of_lt_succ (unpackHeader h).length.isLt⟩
  rw [exec_fhCreate_of_taken htaken, createBytes_eq hpriority, hsum, BitVec.ofNat_toNat, BitVec.setWidth_eq, ← hrsv,
    packHeader_unpackHeader]
  simp only [List.append_assoc]

/-! ### The regions of a whole frame -/

/-- Four neighbouring parts of a list that reach its end are the list. -/
theorem take_drop_parts {α : Type} (l : List α) {p q m k : Nat} (h : l.length = p + q + m + k) :
    l.take p ++ (l.drop p).take q ++ (l.drop (p + q)).take m ++ (l.drop (p + q + m)).take k = l := by
  rw [← List.take_add, ← List.take_add, ← List.take_add, ← h, List.take_length]

/-- The bytes of a region are those of the body. -/
theorem regionBytes_toList_append (h : HeaderBytes) (body : Bytes) (r : Region) :
    regionBytes (h.toList ++ body) r = (body.drop r.offset).take r.length := by
  rw [regionBytes, ← List.drop_drop]
  rfl

/-- The pad length FH.PARSE finds fits a byte, and is 0 without one (R134). -/
theorem frameOf_padLen_le (hdr : FrameHeader) (body : Bytes) : (frameOf hdr body).padLen.toNat ≤ 255 * padBytes hdr.flags := by
  rcases padBytes_cases hdr.flags with ⟨-, hp⟩ | ⟨-, hp⟩
  · have := (frameOf hdr body).padLen.isLt
    omega
  · simp [frameOf, hp]

/-- The bytes of the three regions FH.PARSE finds, `m` those of the payload: they follow one another in the body (R134, R135). -/
theorem regionBytes_frameOf (h : HeaderBytes) {hdr : FrameHeader} {body : Bytes} {m : Nat}
    (hm : hdr.length.toNat = padBytes hdr.flags + priorityBytes hdr.flags + (frameOf hdr body).padLen.toNat + m) :
    regionBytes (h.toList ++ body) (frameOf hdr body).priority = (body.drop (padBytes hdr.flags)).take (priorityBytes hdr.flags)
    ∧ regionBytes (h.toList ++ body) (frameOf hdr body).payload = (body.drop (padBytes hdr.flags + priorityBytes hdr.flags)).take m
    ∧ regionBytes (h.toList ++ body) (frameOf hdr body).padding
        = (body.drop (padBytes hdr.flags + priorityBytes hdr.flags + m)).take (frameOf hdr body).padLen.toNat := by
  have hpayload : (frameOf hdr body).payload = ⟨padBytes hdr.flags + priorityBytes hdr.flags, m⟩ := by
    simp only [frameOf, Region.mk.injEq, true_and] at hm ⊢
    omega
  have hpadding : (frameOf hdr body).padding
      = ⟨padBytes hdr.flags + priorityBytes hdr.flags + m, (frameOf hdr body).padLen.toNat⟩ := by
    simp only [frameOf, Region.mk.injEq, and_true] at hm ⊢
    omega
  refine ⟨regionBytes_toList_append h body _, ?_, ?_⟩
  · rw [regionBytes_toList_append, hpayload]
  · rw [regionBytes_toList_append, hpadding]

/-- The pad-length byte FH.PARSE read is the one FH.CREATE writes for a padding of its length. -/
theorem padLengthByte_of_frameOf {hdr : FrameHeader} {body padding : Bytes} (hbody : padBytes hdr.flags ≤ body.length)
    (hpad : padding.length = (frameOf hdr body).padLen.toNat) :
    padLengthByte hdr.flags padding = body.take (padBytes hdr.flags) := by
  rcases padBytes_cases hdr.flags with ⟨hp, hpn⟩ | ⟨hp, hpn⟩
  · match body, hbody with
    | [], hbody => simp [hpn] at hbody
    | x :: body, _ => simp [padLengthByte, hp, hpn, hpad, frameOf]
  · simp [padLengthByte, hp, hpn]

end Sys2Proof.Machine

open Sys2Proof Sys2Proof.Machine Sys2Proof.Claims

/-- Settles O18: the five refusals are the negation of what FH.CREATE takes, case by case of the two flags. -/
theorem createEmitsFrame : Obligations.CreateEmitsFrame := by
  intro streamId typeRaw flags priority payload padding s p q n bad
  have taken_iff : createRefused flags priority payload padding = false ↔ ¬ bad := by
    simp only [createRefused_eq_false_iff, bad, n, p, q, padOne_eq, prioFive_eq]
    rcases padBytes_cases flags with ⟨-, hp⟩ | ⟨-, hp⟩ <;> rcases priorityBytes_cases flags with ⟨-, hq⟩ | ⟨-, hq⟩ <;>
      rw [hp, hq] <;> omega
  refine ⟨fun hbad => ?_, fun hok => ?_⟩
  · have hrefused : createRefused flags priority payload padding = true := by simpa [hbad] using taken_iff
    rw [exec_fhCreate, if_pos hrefused]
  · have htaken := taken_iff.mpr hok
    obtain ⟨hprio, -, hn⟩ := (createRefused_eq_false_iff ..).mp htaken
    have hword : (0 : BitVec 1).toNat * 2 ^ 31 + streamId.toNat = streamId.toNat := Nat.zero_add _
    rw [exec_fhCreate_of_taken htaken, createBytes_eq hprio, packHeader_toList, padLengthByte_eq, hword, BitVec.toNat_ofNat,
      Nat.mod_eq_of_lt (by omega)]
    simp only [n, p, q, padOne_eq, prioFive_eq]

/-- Settles O19: the buffer is the header and the four parts of the body, and FH.CREATE writes each of them back. -/
theorem createOfParse : Obligations.CreateOfParse := by
  intro b s f hparse hlen hrsv
  obtain ⟨h, body, hs, rfl, hb, hfit⟩ := (parseFrame_eq_ok_iff b f).mp ((exec_fhParse_frame_iff b s f).mp hparse)
  obtain rfl := eq_append_of_splitHeader hs
  rw [frameOf_header] at hlen hrsv hb hfit ⊢
  obtain ⟨m, hm⟩ := Nat.exists_eq_add_of_le hfit
  have hbody : body.length = padBytes (unpackHeader h).flags + priorityBytes (unpackHeader h).flags + m
      + (frameOf (unpackHeader h) body).padLen.toNat := by
    have : body.length = (unpackHeader h).length.toNat := Nat.add_left_cancel (List.length_append ▸ hlen)
    omega
  obtain ⟨hpriority, hpayload, hpadding⟩ := regionBytes_frameOf h hm
  have hpadLen : (regionBytes (h.toList ++ body) (frameOf (unpackHeader h) body).padding).length
      = (frameOf (unpackHeader h) body).padLen.toNat := by
    rw [hpadding, List.length_take, List.length_drop]
    omega
  rw [exec_fhCreate_unpackHeader hrsv, padLengthByte_of_frameOf (by omega) hpadLen, hpriority, hpayload, hpadding,
    take_drop_parts body hbody]
  · rw [hpriority, List.length_take, List.length_drop]
    omega
  · rw [hpadLen]
    exact frameOf_padLen_le _ body
  · rw [hpadLen, hpayload, List.length_take, List.length_drop]
    omega

end

section
/-!
FH.SPLIT (R140): its loop as the relation `Carved`, from which the properties of R141 follow by induction.
-/

namespace Sys2Proof.Machine

open Sys2Proof.Claims

theorem exec_fhSplit (b : Bytes) (s : State) :
    exec (.fhSplit b) s = .next { s with response := .ok (.slices (splitFrames b).1 (splitFrames b).2) } := rfl

/-! ### The slices of a buffer -/

/-- `Carved b off out residue`: from offset `off` on, the buffer is the frames `out`, each as long as its length field says, and
then `residue` bytes that are no complete frame (R140). -/
inductive Carved (b : Bytes) : Nat → List Region → Nat → Prop
  | stop {off : Nat} (inside : off ≤ b.length) (short : b.length - off < 9 ∨ b.length - off < 9 + length24 b off) :
      Carved b off [] (b.length - off)
  | slice {off residue : Nat} {out : List Region} (whole : off + (9 + length24 b off) ≤ b.length)
      (next : Carved b (off + (9 + length24 b off)) out residue) : Carved b off (⟨off, 9 + length24 b off⟩ :: out) residue

theorem length24_drop (b : Bytes) (off : Nat) : length24 (b.drop off) 0 = length24 b off := by
  simp only [length24, List.getD_eq_getElem?_getD, List.getElem?_drop, Nat.add_zero, Nat.zero_add]

/-- The length field of a buffer stands in its first three bytes. -/
theorem length24_take {b : Bytes} {n : Nat} (h : 9 ≤ n) : length24 (b.take n) 0 = length24 b 0 := by
  simp only [length24, List.getD_eq_getElem?_getD]
  rw [List.getElem?_take_of_lt (by omega), List.getElem?_take_of_lt (by omega), List.getElem?_take_of_lt (by omega)]

/-- The length field the loop reads is the statements' (R140). -/
theorem frameLength_eq {b : Bytes} (h : 9 ≤ b.length) : frameLength b = length24 b 0 := by
  match b, h with
  | x :: y :: z :: rest, _ =>
    simp only [frameLength, beNat, length24, List.take_succ_cons, List.take_zero, List.foldl_cons, List.foldl_nil,
      List.getD_cons_zero, List.getD_cons_succ]
    omega

/-- The loop of FH.SPLIT carves the buffer from its offset on, if the fuel is enough for the bytes left. -/
theorem splitLoop_carved (b : Bytes) (fuel off : Nat) (hoff : off ≤ b.length) (hfuel : b.length - off ≤ fuel) :
    Carved b off (splitLoop fuel off (b.drop off)).1 (splitLoop fuel off (b.drop off)).2 := by
  induction fuel generalizing off with
  | zero =>
    simp only [splitLoop, List.length_drop]
    exact .stop hoff (.inl (by omega))
  | succ fuel ih =>
    simp only [splitLoop, List.length_drop]
    by_cases hhead : b.length - off < 9
    · rw [if_pos hhead]
      exact .stop hoff (.inl hhead)
    · have hlen : frameLength (b.drop off) = length24 b off := by
        rw [frameLength_eq (by rw [List.length_drop]; omega), length24_drop]
      rw [if_neg hhead, hlen]
      by_cases hbody : b.length - off < 9 + length24 b off
      · rw [if_pos hbody]
        exact .stop hoff (.inr hbody)
      · rw [if_neg hbody, List.drop_drop]
        exact .slice (by omega) (ih _ (by omega) (by omega))

theorem splitFrames_carved (b : Bytes) : Carved b 0 (splitFrames b).1 (splitFrames b).2 :=
  splitLoop_carved b b.length 0 (Nat.zero_le _) (Nat.sub_le ..)

section
variable {b : Bytes} {off residue : Nat} {out : List Region} (h : Carved b off out residue)
include h

/-- The slices follow one another from the first offset on (R141). -/
theorem Carved.offset_eq (k : Nat) (hk : k < out.length) : out[k].offset = off + ((out.take k).map Region.length).sum := by
  induction h generalizing k with
  | stop => cases hk
  | slice _ _ ih =>
    cases k with
    | zero => rfl
    | succ k =>
      rw [List.getElem_cons_succ, ih k (Nat.lt_of_succ_lt_succ hk), List.take_succ_cons, List.map_cons, List.sum_cons, Nat.add_assoc]

/-- A slice is a whole frame of the buffer (R141). -/
theorem Carved.slice_whole {r : Region} (hr : r ∈ out) : r.length = 9 + length24 b r.offset ∧ r.offset + r.length ≤ b.length := by
  induction h with
  | stop => cases hr
  | slice whole _ ih =>
    rcases List.mem_cons.mp hr with rfl | hr
    · exact ⟨rfl, whole⟩
    · exact ih hr

/-- The bytes of a slice are as many as their own length field says (R141). -/
theorem Carved.slice_bytes_length {r : Region} (hr : r ∈ out) :
    ((b.drop r.offset).take r.length).length = 9 + length24 ((b.drop r.offset).take r.length) 0 := by
  obtain ⟨hlen, hend⟩ := h.slice_whole hr
  rw [length24_take (by omega), length24_drop, ← hlen, List.length_take, List.length_drop]
  omega

/-- The slices and the residue reach the end of the buffer (R141). -/
theorem Carved.sum_add_residue : off + ((out.map Region.length).sum + residue) = b.length := by
  induction h with
  | stop inside _ => exact (congrArg _ (Nat.zero_add _)).trans (Nat.add_sub_of_le inside)
  | slice _ _ ih =>
    simp only [List.map_cons, List.sum_cons]
    omega

/-- The residue is no complete frame (R141). -/
theorem Carved.residue_short : residue < 9 ∨ residue < 9 + length24 b (b.length - residue) := by
  induction h with
  | stop inside short => rwa [Nat.sub_sub_self inside]
  | slice _ _ ih => exact ih

end

/-! ### A slice as a buffer of FH.PARSE -/

/-- A buffer as long as its length field says has a whole header and a whole body (R134, R141). -/
theorem parseFrame_not_truncated {b : Bytes} (h : b.length = 9 + length24 b 0) :
    parseFrame b ≠ .error .headerTruncated ∧ parseFrame b ≠ .error .bodyTruncated := by
  rw [parseFrame_of_length (by omega), if_neg (by omega)]
  split
  · exact ⟨nofun, nofun⟩
  · split <;> exact ⟨nofun, nofun⟩

end Sys2Proof.Machine

open Sys2Proof.Machine

/-- Settles O20: the loop carves the buffer, and each property holds of whatever is carved. -/
theorem splitCarvesFrames : Obligations.SplitCarvesFrames := by
  refine ⟨fun b s => ⟨_, _, exec_fhSplit b s, ?_⟩, fun s => exec_fhSplit [] s⟩
  have h := splitFrames_carved b
  refine ⟨fun k hk => (h.offset_eq k hk).trans (Nat.zero_add _), fun r hr => (h.slice_whole hr).1,
    (Nat.zero_add _).symm.trans h.sum_add_residue, h.residue_short, fun r hr => ?_⟩
  simp only [ne_eq, exec_fhParse_error_iff]
  exact parseFrame_not_truncated (h.slice_bytes_length hr)

end

section
/-!
The dynamic tables (spec/41_dynamic_table.md R153 to R159): eviction in the statements' words, and DT.ADD, DT.GET and DT.SETSIZE
past the guard of R29.
-/

namespace Sys2Proof.Machine

open Sys2Proof.Claims

/-! ### The longest initial part that fits -/

/-- The statements' size of a list of entries is the model's (R43, R150). -/
theorem totalSize_eq_entriesSize (ent : List Header) : totalSize ent = entriesSize ent := by
  induction ent with
  | nil => rfl
  | cons h hs ih => exact congrArg (entrySize h + ·) ih

/-- What eviction leaves is the longest initial part that fits (R153, R159). -/
theorem longestWithin_evict (limit : Nat) (ent : List Header) : LongestWithin limit ent (evict limit ent) := by
  simp only [LongestWithin, totalSize_eq_entriesSize]
  exact ⟨evict_prefix limit ent, evict_le limit ent, evict_longest limit ent⟩

theorem longestWithin_nil (limit : Nat) : LongestWithin limit [] [] :=
  ⟨List.prefix_refl [], Nat.zero_le limit, fun _ hp _ => hp⟩

/-- No entry is within a limit of 0, since each costs at least 32 (R150, R155). -/
theorem evict_zero (ent : List Header) : evict 0 ent = [] := by
  have hsize := length_le_entriesSize (evict 0 ent)
  have hle := evict_le 0 ent
  exact List.length_eq_zero_iff.mp (by omega)

/-- An eviction before a new entry comes in front loses nothing that the next one would keep: an initial part with the
new entry that fits has a tail that fits (R159). -/
theorem longestWithin_cons {limit : Nat} {all kept kept' : List Header} {h : Header} (hall : LongestWithin limit all kept)
    (hcons : LongestWithin limit (h :: kept) kept') : LongestWithin limit (h :: all) kept' := by
  obtain ⟨hpre, -, hlongest⟩ := hall
  obtain ⟨hpre', hsize', hlongest'⟩ := hcons
  refine ⟨hpre'.trans ((List.prefix_cons_inj h).mpr hpre), hsize', fun p hp hs => hlongest' p ?_ hs⟩
  rcases List.prefix_cons_iff.mp hp with rfl | ⟨tail, rfl, htail⟩
  · exact List.nil_prefix
  · have htailSize : totalSize tail ≤ limit := (Nat.le_add_left ..).trans hs
    exact (List.prefix_cons_inj h).mpr (hlongest tail htail htailSize)

/-- The front of an initial part is the front of the list: the newest entry of a table, if any survives, is the last one added. -/
theorem longestWithin_head? {limit : Nat} {all kept : List Header} {h : Header} (hkept : LongestWithin limit all kept)
    (hh : kept.head? = some h) : all.head? = some h := by
  obtain ⟨rest, rfl⟩ := hkept.1
  rw [List.head?_append, hh, Option.some_or]

/-- DT_CAP_MAX fits the register `table_size` (R35, R7). -/
theorem toNat_ofNat_of_le_dtCapMax {limit : Nat} (h : limit ≤ Config.dtCapMax) : (BitVec.ofNat 32 limit).toNat = limit := by
  rw [BitVec.toNat_ofNat]
  exact Nat.mod_eq_of_lt (Nat.lt_of_le_pred (by decide) h)

/-! ### The operations past the guard -/

/-- A response stands in neither table. -/
@[simp] theorem State.table_setResponse (s : State) (r : Response) (t : TableId) : (s.setResponse r).table t = s.table t := by
  cases t <;> rfl

section
variable {t : TableId} {s : State} (hg : ¬ (t = .dec ∧ s.decFault = true))
include hg

/-- DT.ADD past the guard (R153). -/
theorem exec_dtAdd (name value : Bytes) : exec (.dtAdd t name value) s
    = .next ((s.setTable t ((s.table t).add ⟨name, value⟩)).setResponse (.ok .done)) :=
  guardTable_pass t s _ hg

/-- DT.GET past the guard, on a position of the table (R154). -/
theorem exec_dtGet_of_getElem? {p : Nat} {h : Header} (hp : (s.table t).ent[p]? = some h) :
    exec (.dtGet t p) s = .next (s.setResponse (.ok (.entry h))) := by
  rw [exec, execDtGet, guardTable_pass t s _ hg, hp]
  rfl

/-- DT.GET past the guard, past the end of the table (R154). -/
theorem exec_dtGet_of_length_le {p : Nat} (hp : (s.table t).ent.length ≤ p) : exec (.dtGet t p) s = .refused .badOperand := by
  rw [exec, execDtGet, guardTable_pass t s _ hg, List.getElem?_eq_none hp]

/-- DT.SETSIZE past the guard, up to DT_CAP_MAX (R155). -/
theorem exec_dtSetsize_of_le {limit : Nat} (hl : limit ≤ Config.dtCapMax) : exec (.dtSetsize t limit) s
    = .next ((s.setTable t ((s.table t).setLimit limit)).setResponse (.ok .done)) := by
  rw [exec, execDtSetsize, guardTable_pass t s _ hg, if_neg (Nat.not_lt.mpr hl)]
  rfl

/-- DT.SETSIZE past the guard, above DT_CAP_MAX (R155). -/
theorem exec_dtSetsize_of_lt {limit : Nat} (hl : Config.dtCapMax < limit) :
    exec (.dtSetsize t limit) s = .refused .badOperand := by
  rw [exec, execDtSetsize, guardTable_pass t s _ hg, if_pos hl]

end

/-! ### A run of DT.ADD -/

/-- One DT.ADD extends the list whose longest fitting initial part the table holds, and keeps the limit and the
guard (R153, R159). -/
theorem exec_dtAdd_longestWithin {t : TableId} {s : State} {all : List Header} (h : Header)
    (hg : ¬ (t = .dec ∧ s.decFault = true)) (hall : LongestWithin (s.table t).tableSize.toNat all (s.table t).ent) :
    ∃ u, exec (.dtAdd t h.name h.value) s = .next u ∧ u.decFault = s.decFault ∧ (u.table t).tableSize = (s.table t).tableSize
      ∧ LongestWithin (s.table t).tableSize.toNat (h :: all) (u.table t).ent := by
  have htable : ((s.setTable t ((s.table t).add h)).setResponse (.ok .done)).table t = (s.table t).add h := by
    rw [State.table_setResponse, State.table_setTable]
  refine ⟨_, exec_dtAdd hg _ _, s.setTable_decFault t _, by rw [htable, DynTable.add_tableSize], ?_⟩
  rw [htable]
  exact longestWithin_cons hall (longestWithin_evict _ _)

/-- A run of DT.ADD from a table that holds the longest initial part of `all` that fits ends with the longest such initial part of
the added entries, newest first, before `all` (R159). -/
theorem addAll_longestWithin {t : TableId} (hs : List Header) {s : State} {all : List Header}
    (hg : ¬ (t = .dec ∧ s.decFault = true)) (hall : LongestWithin (s.table t).tableSize.toNat all (s.table t).ent) :
    ∃ u, addAll t hs s = .next u ∧ u.decFault = s.decFault ∧ (u.table t).tableSize = (s.table t).tableSize
      ∧ LongestWithin (s.table t).tableSize.toNat (hs.reverse ++ all) (u.table t).ent := by
  induction hs generalizing s all with
  | nil => exact ⟨s, rfl, rfl, rfl, hall⟩
  | cons h hs ih =>
    obtain ⟨m, hadd, hmFault, hmLimit, hm⟩ := exec_dtAdd_longestWithin h hg hall
    obtain ⟨u, hrun, huFault, huLimit, hu⟩ := ih (hmFault ▸ hg) (hmLimit ▸ hm)
    refine ⟨u, ?_, huFault.trans hmFault, huLimit.trans hmLimit, ?_⟩
    · rw [addAll, hadd]
      exact hrun
    · rw [List.reverse_cons, List.append_assoc, ← hmLimit]
      exact hu

end Sys2Proof.Machine

open Sys2Proof.Machine

/-- Settles O21: the table written is the one `DynTable.add` gives, whose eviction keeps the longest initial part that fits. -/
theorem dtAddKeepsNewest : Obligations.DtAddKeepsNewest := by
  refine fun t name value s => ⟨fun ⟨ht, hf⟩ => ?_, fun hg => ⟨_, longestWithin_evict _ _, exec_dtAdd hg name value⟩⟩
  exact exec_decUnit_faulted _ s hf ((tableUnit_eq_dec t).mpr ht)

/-- Settles O22: a position is either one of the table's or at least the entry count. -/
theorem dtGetReadsPosition : Obligations.DtGetReadsPosition := by
  refine fun t p s => ⟨fun ⟨ht, hf⟩ => ?_, fun hg => ⟨fun hp => ?_, exec_dtGet_of_length_le hg⟩⟩
  · exact exec_decUnit_faulted _ s hf ((tableUnit_eq_dec t).mpr ht)
  · exact exec_dtGet_of_getElem? hg (List.getElem?_eq_getElem hp)

/-- Settles O23: up to DT_CAP_MAX the register holds the limit itself, and eviction keeps the longest initial part within it. -/
theorem dtSetsizeEvicts : Obligations.DtSetsizeEvicts := by
  refine fun t limit s => ⟨fun ⟨ht, hf⟩ => ?_, fun hg => ⟨fun hl => ?_, exec_dtSetsize_of_lt hg⟩⟩
  · exact exec_decUnit_faulted _ s hf ((tableUnit_eq_dec t).mpr ht)
  · have hsize := toNat_ofNat_of_le_dtCapMax hl
    refine ⟨evict limit (s.table t).ent, BitVec.ofNat 32 limit, hsize, longestWithin_evict limit _, fun hfit => ?_, ?_, ?_⟩
    · exact evict_eq_self limit _ (totalSize_eq_entriesSize _ ▸ hfit)
    · rintro rfl
      exact evict_zero _
    · rw [exec_dtSetsize_of_le hg hl, DynTable.setLimit, hsize]
      rfl

/-- Settles O24: the run starts from the empty table, which is the longest initial part of no entries. -/
theorem evictionKeepsNewestPrefix : Obligations.EvictionKeepsNewestPrefix := by
  intro t hs s hg hempty
  obtain ⟨u, hrun, hdec, hlimit, hlongest⟩ := addAll_longestWithin hs hg (all := []) (by rw [hempty]; exact longestWithin_nil _)
  rw [List.append_nil] at hlongest
  refine ⟨u, hrun, hlimit, hlongest, fun h hh => ⟨?_, ?_⟩⟩
  · rw [← List.head?_reverse]
    exact longestWithin_head? hlongest hh
  · exact exec_dtGet_of_getElem? (hdec ▸ hg) (List.head?_eq_getElem?.symm.trans hh)

end

section
/-!
Integers and strings (spec/42_integer_string.md R170 to R177): the two branches of IntEnc, what the decoder's loop makes of a
sum out of range, and the forms StrEnc chooses. That an integer and a wire string in range are read back is `intDec_intEnc` and
`readString_encode`.
-/

namespace Sys2Proof

/-! ### The two branches of IntEnc (R172) -/

/-- An integer below the full low part is the first byte's low bits. -/
theorem intEnc_of_lt {v n : Nat} (hi : Byte) (h : v < 2 ^ n - 1) : intEnc v n hi = [hi ||| BitVec.ofNat 8 v] :=
  if_pos h

/-- Any other is the full low part, and the loop on what is left. -/
theorem intEnc_of_le {v n : Nat} (hi : Byte) (h : 2 ^ n - 1 ≤ v) :
    intEnc v n hi = (hi ||| BitVec.ofNat 8 (2 ^ n - 1)) :: intEncMore (v - (2 ^ n - 1)) (v - (2 ^ n - 1)) :=
  if_neg (Nat.not_lt.mpr h)

/-- The full low part itself leaves nothing, which is one byte 00 (R173). -/
theorem intEnc_full_low (n : Nat) (hi : Byte) : intEnc (2 ^ n - 1) n hi = [hi ||| BitVec.ofNat 8 (2 ^ n - 1), 0x00] := by
  rw [intEnc_of_le hi (Nat.le_refl _), Nat.sub_self]
  rfl

/-! ### A sum out of range (R170, R171) -/

/-- A full low part under any pattern bits goes on to the loop. -/
theorem intDec_full_low {n : Nat} {hi : Byte} (rest : Bytes) (hn : n ≤ 8) (hhi : hi.toNat % 2 ^ n = 0) :
    intDec n ((hi ||| BitVec.ofNat 8 (2 ^ n - 1)) :: rest) = intDecMore (2 ^ n - 1) 0 rest := by
  have hx : 2 ^ n - 1 < 2 ^ n := Nat.sub_one_lt (Nat.two_pow_pos n).ne'
  have hlow : (hi ||| BitVec.ofNat 8 (2 ^ n - 1)).toNat % 2 ^ n = 2 ^ n - 1 := by
    rw [toNat_pattern_or hn hhi hx, Nat.add_mod, hhi, Nat.zero_add, Nat.mod_mod, Nat.mod_eq_of_lt hx]
  simp only [intDec, hlow, Nat.lt_irrefl, if_false]

/-- The loop stops at the byte that takes the sum out of range, whether or not more bytes are announced. -/
theorem intDecMore_cons_overflow {c : Byte} (rest : Bytes) {acc m : Nat} (h : Config.intMax < acc + c.toNat % 128 * 2 ^ m) :
    intDecMore acc m (c :: rest) = .error .integerOverflow :=
  if_pos h

/-- The seven bits that a continuation byte of IntEnc carries (R172). -/
theorem toNat_continuation_mod (r : Nat) : (BitVec.ofNat 8 (128 + r % 128)).toNat % 128 = r % 128 := by
  rw [BitVec.toNat_ofNat]
  omega

/-- A byte that announces more is added to the sum while that stays in range. -/
theorem intDecMore_continuation (rest : Bytes) {r acc m : Nat} (h : acc + r % 128 * 2 ^ m ≤ Config.intMax) :
    intDecMore acc m (BitVec.ofNat 8 (128 + r % 128) :: rest) = intDecMore (acc + r % 128 * 2 ^ m) (m + 7) rest := by
  have hmore : ¬ (BitVec.ofNat 8 (128 + r % 128)).toNat < 128 := by
    rw [BitVec.toNat_ofNat]
    omega
  simp only [intDecMore, toNat_continuation_mod, if_neg (Nat.not_lt.mpr h), if_neg hmore]

/-- The last continuation byte, when it takes the sum out of range. -/
theorem intDecMore_last_overflow (rest : Bytes) {r acc m : Nat} (hr : r < 128) (hmax : Config.intMax < acc + r * 2 ^ m) :
    intDecMore acc m (BitVec.ofNat 8 r :: rest) = .error .integerOverflow := by
  have hc : (BitVec.ofNat 8 r).toNat = r := Nat.mod_eq_of_lt (by omega)
  exact intDecMore_cons_overflow rest (by rwa [hc, Nat.mod_eq_of_lt hr])

/-- The continuation bytes of an integer out of range: some byte takes the sum above the largest integer, and the bytes before it
leave the rest of the sum to those after them. -/
theorem intDecMore_intEncMore_overflow (rest : Bytes) {fuel r acc m : Nat} (hr : r ≤ fuel)
    (hmax : Config.intMax < acc + r * 2 ^ m) : intDecMore acc m (intEncMore fuel r ++ rest) = .error .integerOverflow := by
  induction fuel generalizing r acc m with
  | zero => exact intDecMore_last_overflow rest (by omega) hmax
  | succ fuel ih =>
    rw [intEncMore]
    split
    · have hsum : acc + r % 128 * 2 ^ m + r / 128 * 2 ^ (m + 7) = acc + r * 2 ^ m := by
        conv_rhs => rw [← Nat.mod_add_div r 128]
        ring
      rw [List.cons_append]
      rcases Nat.lt_or_ge Config.intMax (acc + r % 128 * 2 ^ m) with hover | hin
      · exact intDecMore_cons_overflow _ (by rwa [toNat_continuation_mod])
      · rw [intDecMore_continuation _ hin]
        exact ih (by omega) (by rwa [hsum])
    · exact intDecMore_last_overflow rest (by omega) hmax

/-- An integer out of range is IntegerOverflow. It is above what any first byte holds, so the loop reads it. -/
theorem intDec_intEnc_overflow {v n : Nat} {hi : Byte} (rest : Bytes) (hn : n ≤ 8) (hhi : hi.toNat % 2 ^ n = 0)
    (hv : Config.intMax < v) : intDec n (intEnc v n hi ++ rest) = .error .integerOverflow := by
  have hfull : 2 ^ n - 1 ≤ Config.intMax := Nat.sub_le_sub_right (Nat.pow_le_pow_right (by decide) (hn.trans (by decide))) 1
  rw [intEnc_of_le hi (by omega), List.cons_append, intDec_full_low _ hn hhi]
  exact intDecMore_intEncMore_overflow rest (Nat.le_refl _) (by omega)

/-! ### Strings (R174 to R177) -/

/-- StrDec is the text of the wire string the bytes spell (R174). -/
theorem strDec_encode {w : WireString} {t : Bytes} (hfits : w.fits = true) (htext : w.text = .ok t) (rest : Bytes) :
    strDec (w.encode ++ rest) = .ok (t, rest) := by
  simp only [strDec, readString_encode hfits, except_ok_bind, htext]

/-- The coder's octets under the Huffman flag: by override, or when they are fewer (R175). -/
theorem wireForm_coded {t : Bytes} {mode : HuffMode} (h : mode = .huff ∨ (mode = .auto ∧ (Config.huffEnc t).length < t.length)) :
    wireForm t mode = ⟨true, Config.huffEnc t⟩ := by
  rcases h with rfl | ⟨rfl, hshorter⟩
  · rfl
  · exact if_pos hshorter

/-- The text as it stands: by override, or when the coder's octets are not fewer (R175, D16). -/
theorem wireForm_plain {t : Bytes} {mode : HuffMode} (h : mode = .raw ∨ (mode = .auto ∧ t.length ≤ (Config.huffEnc t).length)) :
    wireForm t mode = ⟨false, t⟩ := by
  rcases h with rfl | ⟨rfl, hlonger⟩
  · rfl
  · exact if_neg (Nat.not_lt.mpr hlonger)

/-- There are no other forms (R175). -/
theorem wireForm_cases (t : Bytes) (mode : HuffMode) :
    wireForm t mode = ⟨true, Config.huffEnc t⟩ ∨ wireForm t mode = ⟨false, t⟩ := by
  cases mode with
  | huff => exact .inl (wireForm_coded (.inl rfl))
  | raw => exact .inr (wireForm_plain (.inl rfl))
  | auto => exact (Nat.lt_or_ge _ _).imp (fun h => wireForm_coded (.inr ⟨rfl, h⟩)) (fun h => wireForm_plain (.inr ⟨rfl, h⟩))

/-- Either form of a text has that text, the coded one by the coder's round trip (R176, R177). -/
theorem text_wireForm (hr : Config.HuffRoundTrip) (t : Bytes) (mode : HuffMode) : (wireForm t mode).text = .ok t := by
  rcases wireForm_cases t mode with h | h <;> rw [h]
  · simp only [WireString.text, if_true, hr t]
  · rfl

/-- A string whose written length is an integer in range is read back (R176). -/
theorem strDec_strEnc (hr : Config.HuffRoundTrip) {t : Bytes} {mode : HuffMode} (rest : Bytes)
    (hlen : (wireForm t mode).octets.length ≤ Config.intMax) : strDec (strEnc t mode ++ rest) = .ok (t, rest) :=
  strDec_encode (decide_eq_true hlen) (text_wireForm hr t mode) rest

end Sys2Proof

open Sys2Proof

/-- Settles O5: the law is `intDec_intEnc`, the lengths are the two branches of IntEnc, and the examples evaluate. -/
theorem prefixIntegerRoundTrip : Obligations.PrefixIntegerRoundTrip := by
  refine ⟨fun v n hi rest _ hn hhi hv => intDec_intEnc rest hn hhi hv, fun n hi hpos _ => ⟨?_, intEnc_full_low n hi⟩,
    rfl, rfl, rfl, rfl, rfl, rfl, rfl, by decide⟩
  have hbelow : 2 ^ n - 2 < 2 ^ n - 1 := by
    have htwo : 2 ^ 1 ≤ 2 ^ n := Nat.pow_le_pow_right (by decide) hpos
    omega
  rw [intEnc_of_lt hi hbelow]
  rfl

/-- Settles O6: the loop's sum passes the largest integer at one of the bytes written. -/
theorem prefixIntegerOverflow : Obligations.PrefixIntegerOverflow :=
  fun _ _ _ rest _ hn hhi hv => intDec_intEnc_overflow rest hn hhi hv

/-- Settles O7: StrEnc writes the form chosen, and each clause names one. -/
theorem stringEncodingChoice : Obligations.StringEncodingChoice :=
  fun _ _ => ⟨fun h => congrArg WireString.encode (wireForm_coded h), fun h => congrArg WireString.encode (wireForm_plain h)⟩

/-- Settles O8: the form written is read back, and its text is the string. -/
theorem stringRoundTrip : Obligations.StringRoundTrip :=
  fun hr _ _ rest hlen => strDec_strEnc hr rest hlen

end

section
/-!
The header representations alone in a block (R195 to R199, log 3): the combined index space and the texts of strings in the statements'
words, then an instruction by what its effect answers.
-/

namespace Sys2Proof.Machine

open Sys2Proof.Claims

/-! ### The combined index space (R156) -/

/-- The statements' numbering of the entries is the model's. -/
theorem DynTable.lookup_eq_entryAt (t : DynTable) (i : Nat) : t.lookup i = entryAt t i := by
  unfold DynTable.lookup entryAt
  by_cases h0 : i = 0
  · simp [h0]
  · by_cases hstatic : i ≤ 61
    · rw [if_pos ⟨Nat.pos_of_ne_zero h0, hstatic⟩, if_neg h0, if_pos hstatic]
    · rw [if_neg (by omega), if_neg h0, if_neg hstatic]
      split
      · rfl
      · exact (List.getElem?_eq_none (by omega)).symm

/-- The indexes that name nothing: 0 and those past the end of both tables (R112, R156). -/
theorem entryAt_eq_none_iff (t : DynTable) (i : Nat) : entryAt t i = none ↔ i = 0 ∨ 61 + t.ent.length < i := by
  rw [← DynTable.lookup_eq_entryAt, DynTable.lookup_eq]
  split
  · simp [*]
  · rw [List.getElem?_eq_none_iff, List.length_append, staticTable_length]
    omega

/-! ### Names and values (R174, R192) -/

theorem text_of_textIs {w : WireString} {t : Bytes} (h : TextIs w t) : w.text = .ok t := by
  unfold TextIs at h
  unfold WireString.text
  split at h
  · simp only [if_pos ‹w.huff = true›, h]
  · rw [if_neg ‹¬ w.huff = true›, h]

theorem text_of_textInvalid {w : WireString} (h : TextInvalid w) : w.text = .error .huffmanInvalid := by
  obtain ⟨hhuff, hdec⟩ := h
  simp only [WireString.text, if_pos hhuff, hdec]

theorem indexedName_of_entryAt {t : DynTable} {i : Nat} {h : Header} (he : entryAt t i = some h) : indexedName t i = .ok h.name := by
  simp only [indexedName, DynTable.lookup_eq_entryAt, he]

theorem indexedName_of_entryAt_none {t : DynTable} {i : Nat} (he : entryAt t i = none) : indexedName t i = .error .indexOutOfRange := by
  simp only [indexedName, DynTable.lookup_eq_entryAt, he]

/-- The name a literal's name field supplies is the statements' (R96, R192). -/
theorem nameRef_text_of_nameIs {t : DynTable} {name : NameRef} {n : Bytes} (h : NameIs t name n) : NameRef.text t name = .ok n := by
  cases name with
  | indexed i =>
    obtain ⟨e, he, rfl⟩ := h
    exact indexedName_of_entryAt he
  | inline w => exact text_of_textIs h

theorem literalHeader_of_text {t : DynTable} {name : NameRef} {value : WireString} {n v : Bytes} (hn : NameIs t name n)
    (hv : TextIs value v) : literalHeader t name value = .ok ⟨n, v⟩ := by
  rw [literalHeader, nameRef_text_of_nameIs hn, except_ok_bind, text_of_textIs hv, except_ok_bind]

/-- A bad name fails whatever the value is (R298). -/
theorem literalHeader_of_bad_name {t : DynTable} {name : NameRef} {c : DecodeCause} (hn : NameRef.text t name = .error c)
    (value : WireString) : literalHeader t name value = .error c := by
  rw [literalHeader, hn]
  rfl

theorem literalHeader_of_bad_value {t : DynTable} {name : NameRef} {value : WireString} {n : Bytes} (hn : NameIs t name n)
    (hv : TextInvalid value) : literalHeader t name value = .error .huffmanInvalid := by
  rw [literalHeader, nameRef_text_of_nameIs hn, except_ok_bind, text_of_textInvalid hv]
  rfl

/-! ### What a representation does to the decode in progress (R195 to R199) -/

theorem effect_hdIndexed_of_entryAt {d : Decoding} {i : Nat} {h : Header} (he : entryAt d.table i = some h) :
    effect d (.hdIndexed i) = .ok (d.emit h) := by
  simp only [effect, Decoding.indexed, DynTable.lookup_eq_entryAt, he]

theorem effect_hdIndexed_of_entryAt_none {d : Decoding} {i : Nat} (he : entryAt d.table i = none) :
    effect d (.hdIndexed i) = .error .indexOutOfRange := by
  simp only [effect, Decoding.indexed, DynTable.lookup_eq_entryAt, he]

/-- A size up to DT_CAP_MAX is taken (R197). -/
theorem effect_hdSizeupd_of_le (d : Decoding) {size : Nat} (h : size ≤ Config.dtCapMax) :
    effect d (.hdSizeupd size) = .ok { d with table := d.table.setLimit size } :=
  if_neg (Nat.not_lt.mpr h)

section
variable {d : Decoding} {name : NameRef} {value : WireString} {h : Header} (hh : literalHeader d.table name value = .ok h)
include hh

theorem effect_hdLitinc_of_ok : effect d (.hdLitinc name value) = .ok (d.litInc h) :=
  congrArg (Except.map d.litInc) hh

theorem effect_hdLitno_of_ok : effect d (.hdLitno name value) = .ok (d.emit h) :=
  congrArg (Except.map d.emit) hh

theorem effect_hdLitnever_of_ok : effect d (.hdLitnever name value) = .ok (d.emit h) :=
  congrArg (Except.map d.emit) hh

end

/-- The three literals fail alike, where their header does (R298). -/
theorem effect_literal_of_error {d : Decoding} {name : NameRef} {value : WireString} {i : Instr} {c : DecodeCause}
    (hi : i ∈ [Instr.hdLitinc name value, .hdLitno name value, .hdLitnever name value])
    (h : literalHeader d.table name value = .error c) : i.format = .hr ∧ effect d i = .error c := by
  simp only [List.mem_cons, List.not_mem_nil, or_false] at hi
  rcases hi with rfl | rfl | rfl <;> exact ⟨rfl, congrArg (Except.map _) h⟩

/-! ### A representation as an instruction (log 3) -/

section
variable {s : State} {i : Instr} (hs : s.decFault = false) (hi : i.format = .hr)
include hs hi

/-- A representation past the guard ends as its effect does. -/
theorem exec_rep_of_clear : exec i s = finishSingle s (effect ⟨s.dec, []⟩ i) :=
  (exec_rep i s hi).trans (guardTable_pass .dec s _ (by simp [hs]))

theorem exec_rep_of_ok {d : Decoding} (h : effect ⟨s.dec, []⟩ i = .ok d) :
    exec i s = .next { s with dec := d.table, response := .ok (.headers d.out) } := by
  rw [exec_rep_of_clear hs hi, h]
  rfl

theorem exec_rep_of_error {c : DecodeCause} (h : effect ⟨s.dec, []⟩ i = .error c) : exec i s = .next (failedAtZero s c) := by
  rw [exec_rep_of_clear hs hi, h]
  rfl

end

end Sys2Proof.Machine

open Sys2Proof Sys2Proof.Machine Sys2Proof.Claims

/-- Settles O26: the indexes between the two failures are those that name an entry. -/
theorem indexedAnswersEntry : Obligations.IndexedAnswersEntry := by
  refine fun i s hs => ⟨fun h he => exec_rep_of_ok hs rfl (effect_hdIndexed_of_entryAt he), fun hi => ?_, fun hi => ?_⟩
  · exact exec_rep_of_error hs rfl (effect_hdIndexed_of_entryAt_none ((entryAt_eq_none_iff s.dec i).mpr hi))
  · refine Option.ne_none_iff_exists'.mp fun hnone => ?_
    have := (entryAt_eq_none_iff s.dec i).mp hnone
    omega

/-- Settles O27: both write the table `DynTable.add` gives. -/
theorem litincAddsHeader : Obligations.LitincAddsHeader := by
  intro name value n v s hs hn hv
  have hdec : ¬ (TableId.dec = .dec ∧ s.decFault = true) := by simp [hs]
  exact ⟨_, exec_dtAdd hdec n v, exec_rep_of_ok hs rfl (effect_hdLitinc_of_ok (literalHeader_of_text hn hv))⟩

/-- Settles O28: both write the table `DynTable.setLimit` gives. -/
theorem sizeupdSetsLimit : Obligations.SizeupdSetsLimit := by
  intro size s hs hsize
  have hdec : ¬ (TableId.dec = .dec ∧ s.decFault = true) := by simp [hs]
  exact ⟨_, exec_dtSetsize_of_le hdec hsize, exec_rep_of_ok hs rfl (effect_hdSizeupd_of_le _ hsize)⟩

/-- Settles O29: either literal only appends its header to the list. -/
theorem unindexedLiteralsAnswerHeader : Obligations.UnindexedLiteralsAnswerHeader := by
  intro name value n v s hs hn hv
  have hheader := literalHeader_of_text hn hv
  exact ⟨exec_rep_of_ok hs rfl (effect_hdLitno_of_ok hheader), exec_rep_of_ok hs rfl (effect_hdLitnever_of_ok hheader)⟩

/-- Settles O30: each clause is one failure of the literal's header. -/
theorem literalFailuresInOrder : Obligations.LiteralFailuresInOrder := by
  intro name value s i hs hi
  have fails {c : DecodeCause} (h : literalHeader s.dec name value = .error c) : exec i s = .next (failedAtZero s c) := by
    obtain ⟨hformat, heffect⟩ := effect_literal_of_error (d := ⟨s.dec, []⟩) hi h
    exact exec_rep_of_error hs hformat heffect
  refine ⟨?_, ?_, fun n hn hv => fails (literalHeader_of_bad_value hn hv)⟩
  · rintro k rfl hk
    exact fails (literalHeader_of_bad_name (name := .indexed k) (indexedName_of_entryAt_none hk) value)
  · rintro w rfl hw
    exact fails (literalHeader_of_bad_name (name := .inline w) (text_of_textInvalid hw) value)

end

section
/-!
HD.DECODE on a block (R190 to R194, R200): what its answer says of the loop, the block that is one representation (log 3), the block cut
short, and the causes it can fail with.
-/

namespace Sys2Proof.Machine

open Sys2Proof.Claims

/-! ### The answer and the loop -/

/-- HD.DECODE answers exactly past the guard, and then as its loop ended (R29, R190). -/
theorem exec_decode_next_iff (b : Bytes) (s t : State) :
    exec (.hdDecode b) s = .next t ↔ s.decFault = false ∧ decodeEnd s b.length (decodeBlock ⟨s.dec, []⟩ b) = t := by
  constructor
  · intro h
    obtain ⟨hs, -⟩ := exec_readsBlock (.hdDecode b) s t rfl h
    exact ⟨hs, by rwa [exec_decode b s hs, Host.Outcome.next.injEq] at h⟩
  · rintro ⟨hs, rfl⟩
    exact exec_decode b s hs

/-- A block whose loop ran to its end (R190). -/
theorem exec_decode_of_decoded {b : Bytes} {s : State} {d : Decoding} (hs : s.decFault = false)
    (hb : decodeBlock ⟨s.dec, []⟩ b = ⟨d, none⟩) :
    exec (.hdDecode b) s = .next { s with dec := d.table, response := .ok (.headers d.out) } := by
  rw [exec_decode b s hs, hb]
  rfl

/-- A block whose loop stopped `left` bytes before its end (R190, R194). -/
theorem exec_decode_of_failed {b : Bytes} {s : State} {d : Decoding} {c : DecodeCause} {left : Nat} (hs : s.decFault = false)
    (hb : decodeBlock ⟨s.dec, []⟩ b = ⟨d, some (c, left)⟩) :
    exec (.hdDecode b) s = .next { s with
      dec := d.table, decFault := true, decFaultCause := ⟨c, b.length - left⟩
      response := .raised (.decodeError c (b.length - left)) } := by
  rw [exec_decode b s hs, hb]
  rfl

/-- An answered list is the list of a loop that ran to its end. -/
theorem decoded_of_response {b : Bytes} {s t : State} {hs : List Header} (h : exec (.hdDecode b) s = .next t)
    (hr : t.response = .ok (.headers hs)) : s.decFault = false ∧ ∃ tbl, decodeBlock ⟨s.dec, []⟩ b = ⟨⟨tbl, hs⟩, none⟩
      ∧ t = { s with dec := tbl, response := .ok (.headers hs) } := by
  obtain ⟨hclear, rfl⟩ := (exec_decode_next_iff b s t).mp h
  refine ⟨hclear, ?_⟩
  generalize decodeBlock ⟨s.dec, []⟩ b = r at hr ⊢
  rcases r with ⟨⟨tbl, out⟩, _ | ⟨c, left⟩⟩
  · cases hr
    exact ⟨tbl, rfl, rfl⟩
  · cases hr

/-- A DecodeError is the failure of a loop that stopped. -/
theorem failed_of_response {b : Bytes} {s t : State} {c : DecodeCause} {start : Nat} (h : exec (.hdDecode b) s = .next t)
    (hr : t.response = .raised (.decodeError c start)) : ∃ d left, decodeBlock ⟨s.dec, []⟩ b = ⟨d, some (c, left)⟩
      ∧ start = b.length - left ∧ t = { s with
        dec := d.table, decFault := true, decFaultCause := ⟨c, start⟩, response := .raised (.decodeError c start) } := by
  obtain ⟨-, rfl⟩ := (exec_decode_next_iff b s t).mp h
  generalize decodeBlock ⟨s.dec, []⟩ b = r at hr ⊢
  rcases r with ⟨d, _ | ⟨c', left⟩⟩
  · cases hr
  · cases hr
    exact ⟨d, left, rfl, rfl, rfl⟩

/-- However a decode ends, its table stays (R194). -/
@[simp] theorem decodeEnd_dec (s : State) (n : Nat) (r : BlockEnd) : (decodeEnd s n r).dec = r.state.table := by
  rcases r with ⟨d, _ | ⟨c, left⟩⟩ <;> rfl

/-- The end of a decode in a state that agrees on DEC_FAULT and its cause: the decoder's parts and the response are the same, the rest is
that state's own (R200). -/
theorem decodeEnd_transfer {s s' : State} (hf : s.decFault = s'.decFault) (hc : s.decFaultCause = s'.decFaultCause) (n : Nat)
    (r : BlockEnd) : decodeEnd s' n r = { s' with
      dec := (decodeEnd s n r).dec, decFault := (decodeEnd s n r).decFault
      decFaultCause := (decodeEnd s n r).decFaultCause, response := (decodeEnd s n r).response } := by
  rcases r with ⟨d, _ | ⟨c, left⟩⟩
  · simp only [decodeEnd, hf, hc]
  · rfl

/-! ### One representation -/

/-- A block whose first representation fails fails at offset 0 (R190). -/
theorem exec_decode_of_first_error {b : Bytes} {s : State} {c : DecodeCause} (hs : s.decFault = false) (hb : b ≠ [])
    (h : runRepresentation ⟨s.dec, []⟩ b = .error c) : exec (.hdDecode b) s = .next (failedAtZero s c) := by
  rw [exec_decode_of_failed hs (decodeBlock_err _ b c hb h), Nat.sub_self]
  rfl

/-- An answered list is the list of a representation that succeeded past the guard. -/
theorem effect_of_response {i : Instr} {s t : State} {hs : List Header} (hi : i.format = .hr) (h : exec i s = .next t)
    (hr : t.response = .ok (.headers hs)) : s.decFault = false ∧ ∃ d, effect ⟨s.dec, []⟩ i = .ok d := by
  rw [exec_rep i s hi] at h
  obtain ⟨hguard, hend⟩ := guardTable_next _ s t _ h
  refine ⟨Bool.eq_false_iff.mpr fun hf => hguard ⟨rfl, hf⟩, ?_⟩
  cases he : effect ⟨s.dec, []⟩ i with
  | ok d => exact ⟨d, rfl⟩
  | error c =>
    rw [State.decoding, he] at hend
    cases hend
    cases hr

/-- Bytes that are one representation run as that representation: the meaning from the fields is the meaning from the bytes (log 3). -/
theorem exec_rep_eq_decode {b : Bytes} {i : Instr} (h : decodeRepresentation b = .ok (i, [])) (s : State) :
    exec i s = exec (.hdDecode b) s := by
  have hformat := decodeRep_format b [] i h
  cases hs : s.decFault with
  | true => rw [exec_rep i s hformat, guardTable_stop s _ hs, exec_decode_stop b s hs]
  | false =>
    have hrun := runRepresentation_of ⟨s.dec, []⟩ b [] i h
    cases he : effect ⟨s.dec, []⟩ i with
    | error c =>
      rw [he] at hrun
      have hb : b ≠ [] := by
        rintro rfl
        cases h
      rw [exec_rep_of_error hs hformat he, exec_decode_of_first_error hs hb hrun]
    | ok d =>
      rw [he] at hrun
      have hblock : decodeBlock ⟨s.dec, []⟩ b = ⟨d, none⟩ := by rw [decodeBlock_ok _ d b [] hrun, decodeBlock_nil]
      rw [exec_rep_of_ok hs hformat he, exec_decode_of_decoded hs hblock]

/-- An issue in the HR format is one representation or a block for HD.DECODE (R190, log 3). -/
theorem decode_hr_cases (b : Bytes) :
    (∃ i, decodeRepresentation b = .ok (i, []) ∧ decode .hr b = .ok i) ∨ decode .hr b = .ok (.hdDecode b) := by
  simp only [decode]
  split
  · exact .inl ⟨_, ‹_›, rfl⟩
  · exact .inr rfl

/-- The encoding of a representation takes the reader's bytes: running it is its effect, and any proper part of it fails
Truncated (R193). -/
theorem reads_encode {i : Instr} {d d' : Decoding} (hi : i.format = .hr) (hw : i.wf = true) (h : effect d i = .ok d') :
    Reads (runRepresentation d) (encode i) d' := by
  have hread := decodeRepresentation_encode hi hw []
  rw [List.append_nil] at hread
  have hrun : runRepresentation d (encode i) = .ok (d', []) := by rw [runRepresentation_of d _ [] i hread, h]; rfl
  obtain ⟨p, hp, hreads⟩ := runRepresentation_ok d d' _ [] hrun
  rwa [hp, List.append_nil]

/-! ### A block of indexed representations -/

/-- Indexes that each name an entry append the entries and leave the table, so that each names its entry still (R190, R195). -/
theorem decodeBlock_indexed {t : DynTable} (is : List Nat) (hs out : List Header) (hmax : ∀ i ∈ is, i ≤ Config.intMax)
    (hnames : is.map (entryAt t) = hs.map some) :
    decodeBlock ⟨t, out⟩ (is.flatMap fun i => intEnc i 7 0x80) = ⟨⟨t, out ++ hs⟩, none⟩ := by
  induction is generalizing hs out with
  | nil =>
    rw [List.map_eq_nil_iff.mp hnames.symm, List.append_nil]
    exact decodeBlock_nil _
  | cons i is ih =>
    obtain ⟨h, hs, rfl, hi, hrest⟩ := List.map_eq_cons_iff.mp hnames.symm
    obtain ⟨hi_max, hmax⟩ := List.forall_mem_cons.mp hmax
    have hreads : Reads (runRepresentation ⟨t, out⟩) (intEnc i 7 0x80) ⟨t, out ++ [h]⟩ :=
      reads_encode (i := .hdIndexed i) rfl (decide_eq_true hi_max) (effect_hdIndexed_of_entryAt hi.symm)
    rw [List.flatMap_cons, decodeBlock_ok _ _ _ _ (hreads.run _), ih hs (out ++ [h]) hmax hrest.symm, List.append_assoc]
    rfl

/-! ### No size is too large (R7, R197; log 9) -/

/-- A bind fails with a cause only where one of its parts does. -/
theorem bind_ne_error {ε α β : Type} {x : Except ε α} {f : α → Except ε β} {c : ε} (hx : x ≠ .error c)
    (hf : ∀ a, x = .ok a → f a ≠ .error c) : (x >>= f) ≠ .error c := by
  intro h
  rcases except_bind_err h with h | ⟨a, ha, h⟩
  · exact hx h
  · exact hf a ha h

theorem intDecMore_ne_sizeTooLarge (b : Bytes) (acc m : Nat) : intDecMore acc m b ≠ .error .sizeTooLarge := by
  induction b generalizing acc m with
  | nil => nofun
  | cons c b ih =>
    simp only [intDecMore]
    split
    · nofun
    · split
      · nofun
      · exact ih _ _

theorem intDec_ne_sizeTooLarge (n : Nat) (b : Bytes) : intDec n b ≠ .error .sizeTooLarge := by
  cases b with
  | nil => nofun
  | cons c b =>
    simp only [intDec]
    split
    · nofun
    · exact intDecMore_ne_sizeTooLarge _ _ _

theorem readString_ne_sizeTooLarge (b : Bytes) : readString b ≠ .error .sizeTooLarge := by
  cases b with
  | nil => nofun
  | cons c b =>
    refine bind_ne_error (intDec_ne_sizeTooLarge _ _) fun a _ => ?_
    dsimp only
    split <;> nofun

theorem text_ne_sizeTooLarge (w : WireString) : w.text ≠ .error .sizeTooLarge := by
  unfold WireString.text
  split
  · split <;> nofun
  · nofun

theorem strDec_ne_sizeTooLarge (b : Bytes) : strDec b ≠ .error .sizeTooLarge :=
  bind_ne_error (readString_ne_sizeTooLarge b) fun _ _ => bind_ne_error (text_ne_sizeTooLarge _) nofun

theorem indexedName_ne_sizeTooLarge (t : DynTable) (i : Nat) : indexedName t i ≠ .error .sizeTooLarge := by
  unfold indexedName
  split <;> nofun

theorem litName_ne_sizeTooLarge (t : DynTable) (n : Nat) (b : Bytes) : litName t n b ≠ .error .sizeTooLarge := by
  refine bind_ne_error (intDec_ne_sizeTooLarge n b) fun a _ => ?_
  dsimp only
  split
  · exact strDec_ne_sizeTooLarge _
  · exact bind_ne_error (indexedName_ne_sizeTooLarge t _) nofun

theorem litHeader_ne_sizeTooLarge (t : DynTable) (n : Nat) (b : Bytes) : litHeader t n b ≠ .error .sizeTooLarge :=
  bind_ne_error (litName_ne_sizeTooLarge t n b) fun _ _ => bind_ne_error (strDec_ne_sizeTooLarge _) nofun

theorem indexed_ne_sizeTooLarge (d : Decoding) (i : Nat) : d.indexed i ≠ .error .sizeTooLarge := by
  unfold Decoding.indexed
  split <;> nofun

/-- Every integer a block can hold is a size the table takes (R171, R197). -/
theorem sizeUpd_ne_sizeTooLarge {b : Bytes} {size : Nat} {rest : Bytes} (h : intDec 5 b = .ok (size, rest)) (d : Decoding) :
    d.sizeUpd size ≠ .error .sizeTooLarge := by
  obtain ⟨hsize, -⟩ := intDec_ok 5 b size rest (by decide) h
  rw [show d.sizeUpd size = _ from effect_hdSizeupd_of_le d hsize]
  nofun

/-- No representation fails SizeTooLarge with DT_CAP_MAX the largest integer (log 9). -/
theorem runRepresentation_ne_sizeTooLarge (d : Decoding) (b : Bytes) : runRepresentation d b ≠ .error .sizeTooLarge := by
  cases b with
  | nil => nofun
  | cons f l =>
    simp only [runRepresentation]
    cases repKind f with
    | indexed => exact bind_ne_error (intDec_ne_sizeTooLarge _ _) fun _ _ => bind_ne_error (indexed_ne_sizeTooLarge d _) nofun
    | sizeUpd => exact bind_ne_error (intDec_ne_sizeTooLarge _ _) fun _ hsize => bind_ne_error (sizeUpd_ne_sizeTooLarge hsize d) nofun
    | litInc | litNever | litNo => exact bind_ne_error (litHeader_ne_sizeTooLarge _ _ _) nofun

theorem decodeBlock_ne_sizeTooLarge (d : Decoding) (b : Bytes) (left : Nat) :
    (decodeBlock d b).failure ≠ some (.sizeTooLarge, left) := by
  refine decodeBlock_ind (fun _ _ r => r.failure ≠ some (.sizeTooLarge, left)) (fun _ => nofun) (fun d b c _ hrun h => ?_)
    (fun _ _ _ _ _ _ ih => ih) d b
  cases h
  exact runRepresentation_ne_sizeTooLarge d b hrun

/-! ### A block in two parts (R191, R200) -/

/-- The second part runs from the table the first part left, and its list follows the first part's. -/
theorem decodeBlock_append_of_decoded {d : Decoding} {b₁ : Bytes} {tbl : DynTable} {hs₁ : List Header}
    (h : decodeBlock d b₁ = ⟨⟨tbl, hs₁⟩, none⟩) (b₂ : Bytes) : decodeBlock d (b₁ ++ b₂)
      = ⟨(decodeBlock ⟨tbl, []⟩ b₂).state.after hs₁, (decodeBlock ⟨tbl, []⟩ b₂).failure⟩ := by
  have hstart : Decoding.after hs₁ ⟨tbl, []⟩ = ⟨tbl, hs₁⟩ := by rw [Decoding.after, List.append_nil]
  rw [decodeBlock_append d b₁ b₂ (by rw [h]), h, ← decodeBlock_pre, hstart]

end Sys2Proof.Machine

open Sys2Proof Sys2Proof.Machine Sys2Proof.Claims

/-- Settles O11: one representation runs as HD.DECODE of its bytes does, and any other block is HD.DECODE's. -/
theorem issuedBlockIsDecoded : Obligations.IssuedBlockIsDecoded := by
  intro s b rest hq
  rcases decode_hr_cases b with ⟨i, hrep, hd⟩ | hd
  · exact (step_of_decode hq hd).trans (exec_rep_eq_decode hrep _)
  · exact step_of_decode hq hd

/-- Settles O31: the loop appends the entry of each index and keeps the table. -/
theorem decodeOfIndexedBlock : Obligations.DecodeOfIndexedBlock :=
  fun is hs _ hclear hmax hnames => exec_decode_of_decoded hclear (decodeBlock_indexed is hs [] hmax hnames)

/-- Settles O32: the loop ran to its end or stopped inside the block, and its table is the old one or within its limit. -/
theorem decodeOutcomes : Obligations.DecodeOutcomes := by
  intro b s hs
  refine ⟨_, exec_decode b s hs, decodeEnd_transfer rfl rfl _ _, ?_, ?_⟩
  · have hcause := decodeBlock_ne_sizeTooLarge ⟨s.dec, []⟩ b
    have hinside := decodeBlock_left ⟨s.dec, []⟩ b
    generalize decodeBlock ⟨s.dec, []⟩ b = r at hcause hinside ⊢
    rcases r with ⟨d, _ | ⟨c, left⟩⟩
    · exact .inl ⟨d.out, rfl, hs, rfl⟩
    · obtain ⟨hpos, hle⟩ := hinside c left rfl
      refine .inr ⟨c, b.length - left, by omega, ?_, rfl, rfl, rfl⟩
      rintro rfl
      exact hcause left rfl
  · rw [decodeEnd_dec, totalSize_eq_entriesSize, totalSize_eq_entriesSize]
    rcases decodeBlock_bounded ⟨s.dec, []⟩ b with hsame | hbounded
    · rw [hsame]
      exact id
    · exact fun _ => hbounded

/-- Settles O33: the loop on the whole block is the second part's loop, with the first part's table before it and list in front. -/
theorem decodeIsSequential : Obligations.DecodeIsSequential := by
  intro b₁ b₂ s t hs₁ h₁ hr₁
  obtain ⟨hclear, tbl, hb₁, rfl⟩ := decoded_of_response h₁ hr₁
  have happend := decodeBlock_append_of_decoded hb₁ b₂
  refine ⟨fun u hs₂ h₂ hr₂ => ?_, fun u c start h₂ hr₂ => ?_⟩
  · obtain ⟨-, tbl₂, hb₂, rfl⟩ := decoded_of_response h₂ hr₂
    rw [hb₂] at happend
    exact exec_decode_of_decoded hclear happend
  · obtain ⟨d, left, hb₂, rfl, rfl⟩ := failed_of_response h₂ hr₂
    obtain ⟨-, hle⟩ := decodeBlock_left _ b₂ c left (congrArg BlockEnd.failure hb₂)
    rw [hb₂] at happend
    rw [exec_decode_of_failed hclear happend, List.length_append, Nat.add_sub_assoc hle]
    rfl

/-- Settles O34: the reader that takes the whole representation fails Truncated on every proper part. -/
theorem truncatedRepresentationFails : Obligations.TruncatedRepresentationFails := by
  intro i s t hs n hw hi h hr hpos hlt
  obtain ⟨hclear, d, heffect⟩ := effect_of_response hi h hr
  have hne : (encode i).take n ≠ [] := List.ne_nil_of_length_pos (by rw [List.length_take]; omega)
  exact exec_decode_of_first_error hclear hne ((reads_encode hi hw heffect).cut n hlt)

/-- Settles O40: each half's answer is a function of its own table, and the guard reads DEC_FAULT alone. -/
theorem codecHalvesIndependent : Obligations.CodecHalvesIndependent := by
  refine ⟨fun l s s' h => ⟨_, _, rfl, ?_⟩, fun b s s' t hd hf hc h => ?_⟩
  · rw [h]
    rfl
  · obtain ⟨hs, rfl⟩ := (exec_decode_next_iff b s t).mp h
    rw [exec_decode b s' (hf ▸ hs), ← hd, decodeEnd_transfer hf hc]

end

section
/-!
HE.ENCODE (spec/44_header_encoder.md R210 to R219): its searches in the statements' words, its four cases, the table after a pair
sent with INDEX, and the representation that carries an entry to a decoder with the same table.
-/

namespace Sys2Proof.Machine

open Sys2Proof.Claims

/-! ### The searches (R158) -/

theorem DynTable.findLeast_eq_none_iff (t : DynTable) (p : Header → Bool) :
    t.findLeast p = none ↔ NoIndex t (fun h => p h = true) := by
  constructor
  · intro h j x hx
    exact Bool.eq_false_iff.mp (t.findLeast_none p h j x (t.lookup_eq_entryAt j ▸ hx))
  · intro h
    cases hfind : t.findLeast p with
    | none => rfl
    | some i =>
      obtain ⟨x, hx, hp, -⟩ := t.findLeast_some p i hfind
      exact absurd hp (h i x (t.lookup_eq_entryAt i ▸ hx))

theorem leastIndex_of_findLeast {t : DynTable} {p : Header → Bool} {i : Nat} (h : t.findLeast p = some i) :
    LeastIndex t (fun h => p h = true) i := by
  obtain ⟨x, hx, hp, -, -, hleast⟩ := t.findLeast_some p i h
  simp only [DynTable.lookup_eq_entryAt] at hx hleast
  exact ⟨⟨x, hx, hp⟩, fun j hj y hy => Bool.eq_false_iff.mp (hleast j hj y hy)⟩

/-- Two least indexes are one: neither is below the other. -/
theorem leastIndex_unique {t : DynTable} {p : Header → Prop} {i j : Nat} (hi : LeastIndex t p i) (hj : LeastIndex t p j) : i = j := by
  obtain ⟨⟨x, hx, hpx⟩, hleast_i⟩ := hi
  obtain ⟨⟨y, hy, hpy⟩, hleast_j⟩ := hj
  exact Nat.le_antisymm (Nat.le_of_not_lt fun hlt => hleast_i j hlt y hy hpy) (Nat.le_of_not_lt fun hlt => hleast_j i hlt x hx hpx)

theorem DynTable.findLeast_eq_some_iff (t : DynTable) (p : Header → Bool) (i : Nat) :
    t.findLeast p = some i ↔ LeastIndex t (fun h => p h = true) i := by
  refine ⟨leastIndex_of_findLeast, fun h => ?_⟩
  cases hfind : t.findLeast p with
  | none =>
    obtain ⟨⟨x, hx, hp⟩, -⟩ := h
    exact absurd hp ((t.findLeast_eq_none_iff p).mp hfind i x hx)
  | some j => rw [leastIndex_unique (leastIndex_of_findLeast hfind) h]

theorem DynTable.findExact_eq_some_iff (t : DynTable) (name value : Bytes) (i : Nat) :
    t.findExact name value = some i ↔ LeastIndex t (fun h => h.name = name ∧ h.value = value) i := by
  simp only [findExact, findLeast_eq_some_iff, Bool.and_eq_true, decide_eq_true_eq]

theorem DynTable.findExact_eq_none_iff (t : DynTable) (name value : Bytes) :
    t.findExact name value = none ↔ NoIndex t (fun h => h.name = name ∧ h.value = value) := by
  simp only [findExact, findLeast_eq_none_iff, Bool.and_eq_true, decide_eq_true_eq]

theorem DynTable.findName_eq_some_iff (t : DynTable) (name : Bytes) (i : Nat) :
    t.findName name = some i ↔ LeastIndex t (fun h => h.name = name) i := by
  simp only [findName, findLeast_eq_some_iff, decide_eq_true_eq]

theorem DynTable.findName_eq_none_iff (t : DynTable) (name : Bytes) :
    t.findName name = none ↔ NoIndex t (fun h => h.name = name) := by
  simp only [findName, findLeast_eq_none_iff, decide_eq_true_eq]

theorem entryAt_of_findExact {t : DynTable} {name value : Bytes} {x : Nat} (h : t.findExact name value = some x) :
    entryAt t x = some ⟨name, value⟩ := by
  obtain ⟨⟨y, hy, rfl, rfl⟩, -⟩ := (t.findExact_eq_some_iff name value x).mp h
  exact hy

theorem entryAt_of_findName {t : DynTable} {name : Bytes} {n : Nat} (h : t.findName name = some n) :
    ∃ y, entryAt t n = some y ∧ y.name = name :=
  ((t.findName_eq_some_iff name n).mp h).1

/-! ### The four cases (R211) -/

section
variable {t : DynTable} {e : EncEntry}

/-- Case 1 (R212). -/
theorem encodeEntry_of_findExact {x : Nat} (hx : t.findExact e.name e.value = some x) : encodeEntry t e = (encodeIndexed x, t) := by
  simp only [encodeEntry, hx]

/-- Cases 2 and 3 (R213, R214). -/
theorem encodeEntry_of_findName {n : Nat} (hx : t.findExact e.name e.value = none) (hn : t.findName e.name = some n) :
    encodeEntry t e = (encodeIndexedName n e, tableAfterLiteral t e) := by
  simp only [encodeEntry, hx, hn]

/-- Case 4 (R215). -/
theorem encodeEntry_of_new (hx : t.findExact e.name e.value = none) (hn : t.findName e.name = none) :
    encodeEntry t e = (encodeNewName e, tableAfterLiteral t e) := by
  simp only [encodeEntry, hx, hn]

/-- Every case but the first leaves the table of a literal (R211). -/
theorem encodeEntry_table_of_no_match (hx : t.findExact e.name e.value = none) : (encodeEntry t e).2 = tableAfterLiteral t e := by
  cases hn : t.findName e.name with
  | some n => rw [encodeEntry_of_findName hx hn]
  | none => rw [encodeEntry_of_new hx hn]

end

/-- An indexed representation is one byte up to index 126 (R212). -/
theorem length_encodeIndexed {x : Nat} (h : x ≤ 126) : (encodeIndexed x).length = 1 := by
  rw [encodeIndexed, intEnc_of_lt _ (by omega), List.length_singleton]

/-! ### The operation (R210) -/

theorem exec_heEncode_of_eq {l : List EncEntry} {s : State} {b : Bytes} {tbl : DynTable} (h : encodeEntries s.enc l = (b, tbl)) :
    exec (.heEncode l) s = .next { s with enc := tbl, response := .ok (.bytes b) } := by
  rw [exec, execHeEncode, h]
  rfl

theorem encodeEntries_singleton (t : DynTable) (e : EncEntry) : encodeEntries t [e] = encodeEntry t e := by
  simp only [encodeEntries, List.append_nil]

theorem exec_heEncode_singleton {e : EncEntry} {s : State} {b : Bytes} {tbl : DynTable} (h : encodeEntry s.enc e = (b, tbl)) :
    exec (.heEncode [e]) s = .next { s with enc := tbl, response := .ok (.bytes b) } :=
  exec_heEncode_of_eq ((encodeEntries_singleton s.enc e).trans h)

/-- An entry sent as a literal with the bytes `b` of its IdxMode: INDEX leaves what DT.ADD of the pair on ENC leaves, NO_INDEX and
NEVER leave the table alone (R213 to R215). -/
theorem exec_heEncode_literal {e : EncEntry} {s : State} (b : IdxMode → Bytes)
    (h : encodeEntry s.enc e = (b e.idx, tableAfterLiteral s.enc e)) :
    (e.idx = .index → ∃ u, exec (.dtAdd .enc e.name e.value) s = .next u
      ∧ exec (.heEncode [e]) s = .next { u with response := .ok (.bytes (b .index)) })
    ∧ (e.idx = .noIndex → exec (.heEncode [e]) s = .next { s with response := .ok (.bytes (b .noIndex)) })
    ∧ (e.idx = .never → exec (.heEncode [e]) s = .next { s with response := .ok (.bytes (b .never)) }) := by
  have hexec := exec_heEncode_singleton h
  rw [tableAfterLiteral] at hexec
  refine ⟨fun hi => ?_, fun hi => ?_, fun hi => ?_⟩ <;> rw [hi] at hexec
  · exact ⟨_, exec_dtAdd (by simp) e.name e.value, hexec⟩
  · exact hexec
  · exact hexec

/-- The encoder writes the entries of its table and keeps the limit (R210). -/
theorem exists_encodeEntries_eq (t : DynTable) (l : List EncEntry) :
    ∃ ent b, encodeEntries t l = (b, ⟨ent, t.tableSize⟩) :=
  ⟨(encodeEntries t l).2.ent, (encodeEntries t l).1, by rw [← encodeEntries_tableSize t l]⟩

/-! ### A pair sent twice (R219) -/

/-- An entry that fits is the newest of the table it was added to (R153). -/
theorem entryAt_add {t : DynTable} {h : Header} (hfits : entrySize h ≤ t.tableSize.toNat) : entryAt (t.add h) 62 = some h := by
  obtain ⟨rest, hrest⟩ := evict_longest t.tableSize.toNat (h :: t.ent) [h] (List.prefix_append [h] t.ent) (by simpa using hfits)
  change (evict t.tableSize.toNat (h :: t.ent))[0]? = some h
  rw [← hrest]
  rfl

/-- After a pair that fits is sent with INDEX, the table names it: it did before, or the pair was added (R212, R213, R215). -/
theorem findExact_encodeEntry {t : DynTable} {e : EncEntry} (hi : e.idx = .index)
    (hfits : entrySize ⟨e.name, e.value⟩ ≤ t.tableSize.toNat) : ∃ x, (encodeEntry t e).2.findExact e.name e.value = some x := by
  cases hx : t.findExact e.name e.value with
  | some x => exact ⟨x, by rw [encodeEntry_of_findExact hx, hx]⟩
  | none =>
    rw [encodeEntry_table_of_no_match hx, tableAfterLiteral, hi]
    refine Option.ne_none_iff_exists'.mp fun hnone => ?_
    exact (DynTable.findExact_eq_none_iff _ _ _).mp hnone 62 _ (entryAt_add hfits) ⟨rfl, rfl⟩

/-! ### The representation that carries an entry (R218) -/

/-- The combined indexes of a table within its limit are in the range of an integer: each entry costs 32 or more (R44, R107). -/
theorem index_range_of_entryAt {t : DynTable} {i : Nat} {h : Header} (hb : t.Bounded) (he : entryAt t i = some h) :
    1 ≤ i ∧ i ≤ Config.intMax := by
  have hrange := mt (entryAt_eq_none_iff t i).mpr (by simp [he])
  have hcount := length_le_entriesSize t.ent
  have hsize : entriesSize t.ent ≤ t.tableSize.toNat := hb
  have hlimit := t.tableSize.isLt
  have hmax : Config.intMax = 2 ^ 32 - 1 := rfl
  omega

theorem textIs_wireForm (hr : Config.HuffRoundTrip) (t : Bytes) (mode : HuffMode) : TextIs (wireForm t mode) t := by
  rcases wireForm_cases t mode with h | h <;> rw [h]
  · exact hr t
  · rfl

/-- The literal representation an IdxMode selects (R95, R213 to R215). -/
def literalRep (idx : IdxMode) (name : NameRef) (value : WireString) : Instr :=
  match idx with
  | .index => .hdLitinc name value
  | .noIndex => .hdLitno name value
  | .never => .hdLitnever name value

/-- `i` carries the entry `e` from an encoder to a decoder with the table `t`: the encoder writes its bytes, and the decoder appends the
pair to its list and comes to the table `tbl` the encoder came to. -/
structure Carries (t : DynTable) (e : EncEntry) (i : Instr) (tbl : DynTable) : Prop where
  format : i.format = .hr
  wf : i.wf = true
  encoded : encodeEntry t e = (encode i, tbl)
  decoded : ∀ out, effect ⟨t, out⟩ i = .ok ⟨tbl, out ++ [⟨e.name, e.value⟩]⟩

section
variable {t : DynTable} {e : EncEntry}

theorem carries_indexed {x : Nat} (hb : t.Bounded) (hx : t.findExact e.name e.value = some x) : Carries t e (.hdIndexed x) t where
  format := rfl
  wf := decide_eq_true (index_range_of_entryAt hb (entryAt_of_findExact hx)).2
  encoded := encodeEntry_of_findExact hx
  decoded _ := effect_hdIndexed_of_entryAt (entryAt_of_findExact hx)

/-- A literal whose name part supplies the entry's name carries the entry, whatever its IdxMode. -/
theorem carries_literal {name : NameRef} {value : WireString} (hname : name.fits = true) (hvalue : value.fits = true)
    (hencoded : encodeEntry t e = (encode (literalRep e.idx name value), tableAfterLiteral t e))
    (hn : NameIs t name e.name) (hv : TextIs value e.value) :
    Carries t e (literalRep e.idx name value) (tableAfterLiteral t e) := by
  have hfits : (name.fits && value.fits) = true := Bool.and_eq_true_iff.mpr ⟨hname, hvalue⟩
  have hheader := literalHeader_of_text hn hv
  obtain ⟨n, v, idx, mode⟩ := e
  cases idx with
  | index => exact ⟨rfl, hfits, hencoded, fun _ => effect_hdLitinc_of_ok hheader⟩
  | noIndex => exact ⟨rfl, hfits, hencoded, fun _ => effect_hdLitno_of_ok hheader⟩
  | never => exact ⟨rfl, hfits, hencoded, fun _ => effect_hdLitnever_of_ok hheader⟩

theorem encode_literalRep_indexed (n : Nat) : encode (literalRep e.idx (.indexed n) (wireForm e.value e.huff)) = encodeIndexedName n e := by
  rw [encodeIndexedName]
  cases e.idx <;> rfl

/-- A name index of 0 is the pattern byte itself (R96, R215). -/
theorem encode_literalRep_inline :
    encode (literalRep e.idx (.inline (wireForm e.name e.huff)) (wireForm e.value e.huff)) = encodeNewName e := by
  rw [encodeNewName]
  cases e.idx <;> rfl

/-- Whatever its case, a representation carries the entry (R210 to R215, R195 to R199). -/
theorem exists_carries (hr : Config.HuffRoundTrip) (hb : t.Bounded) (hname : (wireForm e.name e.huff).octets.length ≤ Config.intMax)
    (hvalue : (wireForm e.value e.huff).octets.length ≤ Config.intMax) : ∃ i tbl, Carries t e i tbl := by
  have hv := textIs_wireForm hr e.value e.huff
  have hvfits : (wireForm e.value e.huff).fits = true := decide_eq_true hvalue
  cases hx : t.findExact e.name e.value with
  | some x => exact ⟨_, _, carries_indexed hb hx⟩
  | none =>
    cases hn : t.findName e.name with
    | some n =>
      obtain ⟨y, hy, hyname⟩ := entryAt_of_findName hn
      obtain ⟨hpos, hmax⟩ := index_range_of_entryAt hb hy
      have hnfits : (NameRef.indexed n).fits = true := Bool.and_eq_true_iff.mpr ⟨decide_eq_true hpos, decide_eq_true hmax⟩
      refine ⟨_, _, carries_literal hnfits hvfits ?_ ⟨y, hy, hyname⟩ hv⟩
      rw [encodeEntry_of_findName hx hn, encode_literalRep_indexed]
    | none =>
      have hnfits : (NameRef.inline (wireForm e.name e.huff)).fits = true := decide_eq_true hname
      refine ⟨_, _, carries_literal hnfits hvfits ?_ (textIs_wireForm hr e.name e.huff) hv⟩
      rw [encodeEntry_of_new hx hn, encode_literalRep_inline]

end

/-- The decoder reads what the encoder wrote from the same table: the pairs in order, and the table the encoder came to (R218). -/
theorem decodeBlock_encodeEntries (hr : Config.HuffRoundTrip) {t : DynTable} {l : List EncEntry} (hb : t.Bounded)
    (hl : ∀ e ∈ l, (wireForm e.name e.huff).octets.length ≤ Config.intMax ∧ (wireForm e.value e.huff).octets.length ≤ Config.intMax)
    (out : List Header) : decodeBlock ⟨t, out⟩ (encodeEntries t l).1
      = ⟨⟨(encodeEntries t l).2, out ++ l.map fun e => ⟨e.name, e.value⟩⟩, none⟩ := by
  induction l generalizing t out with
  | nil => rw [List.map_nil, List.append_nil]; exact decodeBlock_nil _
  | cons e l ih =>
    obtain ⟨⟨hname, hvalue⟩, hl⟩ := List.forall_mem_cons.mp hl
    obtain ⟨i, tbl, hi⟩ := exists_carries hr hb hname hvalue
    have htbl : tbl.Bounded := by
      have h := encodeEntry_bounded t e hb
      rwa [hi.encoded] at h
    have hrun := (reads_encode hi.format hi.wf (hi.decoded out)).run (encodeEntries tbl l).1
    simp only [encodeEntries, hi.encoded, List.map_cons]
    rw [decodeBlock_ok _ _ _ _ hrun, ih htbl hl, List.append_assoc, List.singleton_append]

end Sys2Proof.Machine

open Sys2Proof Sys2Proof.Machine Sys2Proof.Claims

/-- Settles O35: the search finds the least index, and case 1 does not look at the entry's modes. -/
theorem encodeExactMatch : Obligations.EncodeExactMatch := by
  refine fun e x s hx => ⟨?_, length_encodeIndexed⟩
  exact exec_heEncode_singleton (encodeEntry_of_findExact ((s.enc.findExact_eq_some_iff _ _ x).mpr hx))

/-- Settles O36: the name search decides between the two forms of a literal, and each IdxMode names its pattern. -/
theorem encodeLiteral : Obligations.EncodeLiteral := by
  intro e s hx
  have hexact := (s.enc.findExact_eq_none_iff e.name e.value).mpr hx
  refine ⟨fun n hn => ?_, fun hn => ?_⟩
  · have hname := (s.enc.findName_eq_some_iff e.name n).mpr hn
    exact exec_heEncode_literal (fun idx => encodeIndexedName n { e with idx }) (encodeEntry_of_findName hexact hname)
  · have hname := (s.enc.findName_eq_none_iff e.name).mpr hn
    exact exec_heEncode_literal (fun idx => encodeNewName { e with idx }) (encodeEntry_of_new hexact hname)

/-- Settles O37: a list in two parts is encoded in two parts, and no part writes the limit. -/
theorem encodeIsSequential : Obligations.EncodeIsSequential := by
  intro l₁ l₂ s
  obtain ⟨ent₁, o₁, h₁⟩ := exists_encodeEntries_eq s.enc l₁
  obtain ⟨ent₂, o₂, h₂⟩ := exists_encodeEntries_eq ⟨ent₁, s.enc.tableSize⟩ l₂
  have happend : encodeEntries s.enc (l₁ ++ l₂) = (o₁ ++ o₂, ⟨ent₂, s.enc.tableSize⟩) := by rw [encodeEntries_append, h₁, h₂]
  exact ⟨ent₁, ent₂, o₁, o₂, exec_heEncode_of_eq h₁, exec_heEncode_of_eq h₂, exec_heEncode_of_eq happend, rfl⟩

/-- Settles O38: each entry is carried by a representation from equal tables to equal tables. -/
theorem codecRoundTrip : Obligations.CodecRoundTrip := by
  intro hr l s hclear htables hbound hl
  have hb : s.enc.Bounded := (totalSize_eq_entriesSize s.enc.ent).symm.le.trans hbound
  have hstart : (⟨s.dec, []⟩ : Decoding) = ⟨s.enc, []⟩ := by rw [htables]
  have hblock := (congrArg (decodeBlock · _) hstart).trans (decodeBlock_encodeEntries hr hb hl [])
  exact ⟨_, _, exec_heEncode_of_eq rfl, exec_decode_of_decoded
    (s := { s with enc := (encodeEntries s.enc l).2, response := .ok (.bytes (encodeEntries s.enc l).1) }) hclear hblock⟩

/-- Settles O39: the first send leaves a table that names the pair, so that the second one is case 1. -/
theorem secondSendIsIndexed : Obligations.SecondSendIsIndexed := by
  intro e s t hi hfits h
  rw [exec_heEncode_singleton rfl, Host.Outcome.next.injEq] at h
  subst h
  obtain ⟨x, hx⟩ := findExact_encodeEntry hi hfits
  exact ⟨x, exec_heEncode_singleton (encodeEntry_of_findExact hx), entryAt_of_findExact hx, length_encodeIndexed⟩

end

section
/-!
The window credit tracker (R230 to R240): one equation per case of each operation, on the operation's name, so that no later
proof unfolds one.
-/

namespace Sys2Proof.Machine

open Sys2Proof.Claims

/-! ### The statements' windows and tables -/

/-- The statements' credit is the model's (R232). -/
theorem creditOf_eq_credit (s : State) (e : StreamEntry) : creditOf s e = s.credit e := rfl

/-- Writing one entry is the statements' change of one stream. -/
theorem streamsWith_streamInsert (s : State) (id : StreamId) (e : StreamEntry) : StreamsWith s id e (streamInsert s.streams id e) :=
  ⟨streamFind_insert_self _ _ _, fun _ hj => streamFind_insert_of_ne _ _ _ _ hj⟩

/-- A canonical table has no entry for id 0 (R234). -/
theorem stream_zero_eq_none {s : State} (h : StreamsWf s.streams) : s.stream 0 = none := by
  cases he : s.stream 0 with
  | none => rfl
  | some e => exact absurd rfl (streamFind_ne_zero _ _ _ h he)

/-- The window of a new stream is the initial window, up to the largest that a signed window holds (R234). -/
theorem freshStream_window {w : Nat} (h : w ≤ 2147483647) : (freshStream w).window.toInt = w :=
  toInt_toS32 w (by omega) (by omega)

/-- WC.HDRS writes both marks of a stream that is not fully sent (R238). -/
theorem StreamEntry.markHeaders_eq {e : StreamEntry} (h : e.selfEndStream = false) (endStream : Bool) :
    e.markHeaders endStream = { e with selfEndHeaders := true, selfEndStream := endStream } := by
  cases endStream
  · exact congrArg (StreamEntry.mk e.window e.reset true) h
  · rfl

section
variable {s : State} {id : StreamId}

/-! ### WC.OPEN (R234) -/

theorem exec_wcOpen_zero (s : State) : exec (.wcOpen 0) s = .refused .badOperand := rfl

theorem exec_wcOpen_of_stream {e : StreamEntry} (h0 : id ≠ 0) (he : s.stream id = some e) :
    exec (.wcOpen id) s = .next (s.setResponse (.ok .done)) := by
  rw [exec, execWcOpen, if_neg h0, he]
  rfl

/-- The bound on the initial window is the one test left for a new stream: the table is unbounded (R7). -/
theorem exec_wcOpen_of_none (h0 : id ≠ 0) (hn : s.stream id = none) :
    exec (.wcOpen id) s = if 2147483647 < s.effInitialWindowSize then .refused .badOperand
      else .next ((s.setStream id (freshStream s.effInitialWindowSize)).setResponse (.ok .done)) := by
  rw [exec, execWcOpen, if_neg h0, hn]
  rfl

/-! ### WC.UPDATE (R235) -/

theorem exec_wcUpdate_zero_of_overflow {delta : U32}
    (h : s.connWindow.toInt + delta.toInt < -2147483648 ∨ 2147483647 < s.connWindow.toInt + delta.toInt) :
    exec (.wcUpdate 0 delta) s = .refused .windowOverflow := by
  rw [exec, execWcUpdate, if_pos rfl, addWindow_out _ _ h]

theorem exec_wcUpdate_zero_of_range {delta : U32} (hlo : -2147483648 ≤ s.connWindow.toInt + delta.toInt)
    (hhi : s.connWindow.toInt + delta.toInt ≤ 2147483647) :
    ∃ w : U32, w.toInt = s.connWindow.toInt + delta.toInt
      ∧ exec (.wcUpdate 0 delta) s = .next ((s.setConnWindow w).setResponse (.ok .done)) := by
  obtain ⟨w, hadd, hw⟩ := addWindow_in _ _ hlo hhi
  exact ⟨w, hw, by rw [exec, execWcUpdate, if_pos rfl, hadd]; rfl⟩

theorem exec_wcUpdate_of_none {delta : U32} (h0 : id ≠ 0) (hn : s.stream id = none) :
    exec (.wcUpdate id delta) s = .next (s.setResponse (.raised (.protocolError id))) := by
  rw [exec, execWcUpdate, if_neg h0, hn]
  rfl

theorem exec_wcUpdate_of_overflow {delta : U32} {e : StreamEntry} (h0 : id ≠ 0) (he : s.stream id = some e)
    (h : e.window.toInt + delta.toInt < -2147483648 ∨ 2147483647 < e.window.toInt + delta.toInt) :
    exec (.wcUpdate id delta) s = .refused .windowOverflow := by
  simp only [exec, execWcUpdate, if_neg h0, he, addWindow_out _ _ h]

theorem exec_wcUpdate_of_range {delta : U32} {e : StreamEntry} (h0 : id ≠ 0) (he : s.stream id = some e)
    (hlo : -2147483648 ≤ e.window.toInt + delta.toInt) (hhi : e.window.toInt + delta.toInt ≤ 2147483647) :
    ∃ w : U32, w.toInt = e.window.toInt + delta.toInt
      ∧ exec (.wcUpdate id delta) s = .next ((s.setStream id { e with window := w }).setResponse (.ok .done)) := by
  obtain ⟨w, hadd, hw⟩ := addWindow_in _ _ hlo hhi
  exact ⟨w, hw, by simp only [exec, execWcUpdate, if_neg h0, he, hadd]; rfl⟩

/-! ### WC.RST (R236), WC.HDRS (R238), WC.CREDIT (R239) -/

theorem exec_wcRst_of_none (hn : s.stream id = none) :
    exec (.wcRst id) s = .next (s.setResponse (.raised (.protocolError id))) := by
  rw [exec, execWcRst, hn]
  rfl

theorem exec_wcRst_of_stream {e : StreamEntry} (he : s.stream id = some e) :
    exec (.wcRst id) s = .next ((s.setStream id e.markReset).setResponse (.ok .done)) := by
  rw [exec, execWcRst, he]
  rfl

theorem exec_wcHdrs_of_none {endStream : Bool} (hn : s.stream id = none) :
    exec (.wcHdrs id endStream) s = .next (s.setResponse (.raised (.streamDoesntExist id))) := by
  rw [exec, execWcHdrs, hn]
  rfl

/-- WC.HDRS of an open stream: fully sent, then headers sent, then the marks (R238, D30). -/
theorem exec_wcHdrs_of_stream {e : StreamEntry} {endStream : Bool} (he : s.stream id = some e) :
    exec (.wcHdrs id endStream) s =
      if e.selfEndStream = true then .next (s.setResponse (.raised (.streamClosed id)))
      else if e.selfEndHeaders = true then .next (s.setResponse (.raised (.headersSent id)))
      else .next ((s.setStream id (e.markHeaders endStream)).setResponse (.ok .done)) := by
  rw [exec, execWcHdrs, he]
  rfl

theorem exec_wcCredit_of_none (hn : s.stream id = none) :
    exec (.wcCredit id) s = .next (s.setResponse (.raised (.streamDoesntExist id))) := by
  rw [exec, execWcCredit, hn]
  rfl

theorem exec_wcCredit_of_stream {e : StreamEntry} (he : s.stream id = some e) :
    exec (.wcCredit id) s = .next (s.setResponse (.ok (.credit (s.credit e)))) := by
  rw [exec, execWcCredit, he]
  rfl

end

end Sys2Proof.Machine

open Sys2Proof Sys2Proof.Machine Sys2Proof.Claims

/-- Settles O41: with the table unbounded, the one test on a new stream is the bound that makes its window exact. -/
theorem wcOpenCreatesStream : Obligations.WcOpenCreatesStream := by
  intro id s
  refine ⟨?_, fun h0 _ he => exec_wcOpen_of_stream h0 he, fun h0 hn hw => ?_, fun h0 hn hw => ?_⟩
  · rintro rfl
    exact exec_wcOpen_zero s
  · exact (exec_wcOpen_of_none h0 hn).trans (if_pos hw)
  · exact ⟨_, _, freshStream_window hw, streamsWith_streamInsert s id _,
      (exec_wcOpen_of_none h0 hn).trans (if_neg (Nat.not_lt.mpr hw))⟩

/-- Settles O42: the exact addition of R231, on the window the id addresses. -/
theorem wcUpdateAddsCredit : Obligations.WcUpdateAddsCredit := by
  intro id delta s
  refine ⟨?_, fun h0 => ⟨exec_wcUpdate_of_none h0, fun e he => ⟨exec_wcUpdate_of_overflow h0 he, fun hlo hhi => ?_⟩⟩⟩
  · rintro rfl
    exact ⟨exec_wcUpdate_zero_of_overflow, exec_wcUpdate_zero_of_range⟩
  · obtain ⟨w, hw, hexec⟩ := exec_wcUpdate_of_range h0 he hlo hhi
    exact ⟨w, _, hw, streamsWith_streamInsert s id _, hexec⟩

/-- Settles O43: one flag of the named entry, or GOAWAY_SEEN. -/
theorem resetAndGoawayMark : Obligations.ResetAndGoawayMark := by
  intro id s
  refine ⟨exec_wcRst_of_none, ?_, fun e he => ⟨_, streamsWith_streamInsert s id _, exec_wcRst_of_stream he⟩, rfl⟩
  rintro rfl hwf
  exact exec_wcRst_of_none (stream_zero_eq_none hwf)

/-- Settles O44: the two flags of an open stream decide, in R238's order. -/
theorem wcHdrsMarksHeaders : Obligations.WcHdrsMarksHeaders := by
  intro id endStream s
  refine ⟨exec_wcHdrs_of_none, fun e he => ?_⟩
  rw [exec_wcHdrs_of_stream he]
  refine ⟨fun hs => if_pos hs, fun hs hh => ?_, fun hs hh => ?_⟩
  · rw [if_neg (Bool.eq_false_iff.mp hs), if_pos hh]
    rfl
  · refine ⟨_, streamsWith_streamInsert s id _, ?_⟩
    rw [if_neg (Bool.eq_false_iff.mp hs), if_neg (Bool.eq_false_iff.mp hh), StreamEntry.markHeaders_eq hs]
    rfl

/-- Settles O45: the credit of the entry, read without a write. -/
theorem wcCreditReadsMinimum : Obligations.WcCreditReadsMinimum :=
  fun _ _ => ⟨exec_wcCredit_of_none, fun _ he => exec_wcCredit_of_stream he⟩

end

section
/-!
The send loop's operations (R245 to R252), case by case: who is busy, what SD.START answers for an open stream, and the two
exact charges of SD.STEP.
-/

namespace Sys2Proof.Machine

open Sys2Proof.Claims

/-! ### Busy contexts and streams (R245) -/

/-- A context that does not exist is busy, and so is one that is not IDLE. -/
theorem State.ctxBusy_iff (s : State) (k : Nat) : s.ctxBusy k = true ↔ ∀ c, s.sendCtx[k]? = some c → c.phase ≠ .idle := by
  unfold State.ctxBusy State.ctx
  cases s.sendCtx[k]? <;> simp [SendCtx.active]

/-- Some context that is not IDLE drives the stream. -/
theorem State.streamBusy_iff (s : State) (sid : StreamId) :
    s.streamBusy sid = true ↔ ∃ c ∈ s.sendCtx, c.phase ≠ .idle ∧ c.sid = sid := by
  simp [State.streamBusy, SendCtx.active]

/-! ### SD.START (R245) -/

section
variable {k n : Nat} {sid : StreamId} {wantEnd : Bool} {s : State}

theorem exec_sdStart_of_busy (h : s.ctxBusy k = true ∨ s.streamBusy sid = true) :
    exec (.sdStart k sid n wantEnd) s = .refused .busy := by
  rw [exec, execSdStart]
  rcases h with h | h
  · exact if_pos h
  · rw [if_pos h, ite_self]

theorem exec_sdStart_of_none (h : ¬ (s.ctxBusy k = true ∨ s.streamBusy sid = true)) (hn : s.stream sid = none) :
    exec (.sdStart k sid n wantEnd) s = .next (s.setResponse (.raised (.streamDoesntExist sid))) := by
  obtain ⟨hk, hs⟩ := not_or.mp h
  rw [exec, execSdStart, if_neg hk, if_neg hs, hn]
  rfl

/-- SD.START of an open stream past the Busy tests: headers, end of stream, the empty payload, and the start of a send. -/
theorem exec_sdStart_of_stream {e : StreamEntry} (h : ¬ (s.ctxBusy k = true ∨ s.streamBusy sid = true))
    (he : s.stream sid = some e) : exec (.sdStart k sid n wantEnd) s =
      if e.selfEndHeaders = false then .next (s.setResponse (.raised (.headersNotSent sid)))
      else if e.selfEndStream = true then .next (s.setResponse (.raised (.streamClosed sid)))
      else if n = 0 then
        if wantEnd = true then .next ((s.setStream sid e.markFinished).setResponse (.ok (.send .done [⟨sid, 0, true⟩])))
        else .next (s.setResponse (.ok (.send .done [])))
      else .next ((s.setCtx k ⟨.run, sid, n, wantEnd⟩).setResponse (.ok (.send .started []))) := by
  obtain ⟨hk, hs⟩ := not_or.mp h
  rw [exec, execSdStart, if_neg hk, if_neg hs, he]
  rfl

end

/-! ### SD.STEP (R247) and SD.POLL (R251) -/

section
variable {k : Nat} {c : SendCtx} {s : State} {e : StreamEntry}

theorem exec_sdStep_of_not_run (hk : s.ctx k = some c) (hp : c.phase ≠ .run) : exec (.sdStep k) s = .refused .badPhase := by
  simp only [exec, execSdStep, hk, if_pos hp]

theorem exec_sdPoll_of_not_blocked (hk : s.ctx k = some c) (hp : c.phase ≠ .blocked) :
    exec (.sdPoll k) s = .refused .badPhase := by
  simp only [exec, execSdPoll, hk, if_pos hp]

theorem exhausted_iff (w : U32) : exhausted w = true ↔ w.toInt ≤ 0 := decide_eq_true_iff

theorem StreamEntry.finishIf_eq (e : StreamEntry) (endStream : Bool) :
    e.finishIf endStream = { e with selfEndStream := if endStream = true then true else e.selfEndStream } := by
  cases endStream <;> rfl

theorem StreamEntry.finishIf_window (e : StreamEntry) (endStream : Bool) : (e.finishIf endStream).window = e.window := by
  cases endStream <;> rfl

/-- A charge within the credit is exact on both windows (R231, R248). -/
theorem toInt_charge_of_le_credit {m : Nat} (hm : (m : Int) ≤ s.credit e) :
    (toS32 (s.connWindow.toInt - m)).toInt = s.connWindow.toInt - m ∧ (toS32 (e.window.toInt - m)).toInt = e.window.toInt - m := by
  obtain ⟨-, hconn, hstream⟩ := credit_le s e
  exact ⟨toInt_charge _ _ (hm.trans hconn), toInt_charge _ _ (hm.trans hstream)⟩

/-- SD.STEP's non-final frame blocks the context exactly when one of the charged windows is exhausted (R247, R233). -/
theorem stepPart_of_exhausted {m : Nat}
    (h : (toS32 (s.connWindow.toInt - m)).toInt ≤ 0 ∨ (toS32 (e.window.toInt - m)).toInt ≤ 0) :
    stepPart k c e m s = .next (((s.charge c.sid e m).setCtx k
      { c with phase := .blocked, remaining := c.remaining - m }).setResponse (.ok (.send .blocked [⟨c.sid, m, false⟩]))) := by
  have blocks : (exhausted (toS32 (s.connWindow.toInt - m)) || exhausted (toS32 (e.window.toInt - m))) = true := by
    rwa [Bool.or_eq_true, exhausted_iff, exhausted_iff]
  simp only [stepPart, blocks]
  rfl

theorem stepPart_of_not_exhausted {m : Nat} (hconn : 0 < (toS32 (s.connWindow.toInt - m)).toInt)
    (hstream : 0 < (toS32 (e.window.toInt - m)).toInt) :
    stepPart k c e m s = .next (((s.charge c.sid e m).setCtx k
      { c with phase := .run, remaining := c.remaining - m }).setResponse (.ok (.send .continues [⟨c.sid, m, false⟩]))) := by
  have continues : (exhausted (toS32 (s.connWindow.toInt - m)) || exhausted (toS32 (e.window.toInt - m))) = false := by
    rw [Bool.eq_false_iff, ne_eq, Bool.or_eq_true, exhausted_iff, exhausted_iff]
    omega
  simp only [stepPart, continues]
  rfl

end

end Sys2Proof.Machine

open Sys2Proof Sys2Proof.Machine Sys2Proof.Claims

/-- Settles O46: the Busy tests come first, then the tests on the entry and on the payload. -/
theorem sdStartValidates : Obligations.SdStartValidates := by
  intro k sid n wantEnd s
  simp only [← State.ctxBusy_iff, ← State.streamBusy_iff]
  refine ⟨exec_sdStart_of_busy, exec_sdStart_of_none, fun hb e he => ?_⟩
  rw [exec_sdStart_of_stream hb he]
  refine ⟨fun hh => if_pos hh, fun hh hs => ?_, fun hh hs => ?_⟩
  · rw [if_neg (ne_false_of_eq_true hh), if_pos hs]
    rfl
  · rw [if_neg (ne_false_of_eq_true hh), if_neg (Bool.eq_false_iff.mp hs)]
    refine ⟨fun hn hw => ?_, fun hn hw => ?_, fun hn => ?_⟩
    · exact ⟨_, streamsWith_streamInsert s sid _, by rw [if_pos hn, if_pos hw]; rfl⟩
    · rw [if_pos hn, if_neg (Bool.eq_false_iff.mp hw)]
      rfl
    · rw [if_neg hn]
      rfl

/-- Settles O47: what goes out is within the credit, so both charges are exact. -/
theorem sdStepSendsCredit : Obligations.SdStepSendsCredit := by
  intro k c s hk
  refine ⟨exec_sdStep_of_not_run hk, fun hp e he => ?_⟩
  simp only [creditOf_eq_credit, exec_sdStep_run k c s e hk hp he]
  refine ⟨fun hc => if_pos hc, fun hc hr => ?_, fun hc hr => ?_⟩
  · obtain ⟨hconn, hstream⟩ := toInt_charge_of_le_credit hr
    refine ⟨_, _, _, hconn, hstream, streamsWith_streamInsert s c.sid _, ?_⟩
    rw [if_neg (Int.not_le.mpr hc), if_pos hr, stepFinal, StreamEntry.finishIf_eq]
    rfl
  · have hm : ((s.credit e).toNat : Int) = s.credit e := Int.toNat_of_nonneg hc.le
    obtain ⟨hconn, hstream⟩ := toInt_charge_of_le_credit hm.le
    refine ⟨_, _, _, _, hm, hconn, hstream, streamsWith_streamInsert s c.sid _, ?_⟩
    rw [if_neg (Int.not_le.mpr hc), if_neg (Int.not_le.mpr hr)]
    exact ⟨stepPart_of_exhausted, stepPart_of_not_exhausted⟩

/-- Settles O48: the three tests of R252, in their order. -/
theorem sdPollRechecks : Obligations.SdPollRechecks := by
  intro k c s hk
  refine ⟨exec_sdPoll_of_not_blocked hk, fun hp e he => ?_⟩
  simp only [creditOf_eq_credit, exec_sdPoll_blocked k c s e hk hp he]
  refine ⟨fun hr => if_pos hr, fun hr hg => ?_, fun hr hg hc => ?_, fun hr hg hc => ?_⟩
  · rw [if_neg (Bool.eq_false_iff.mp hr), if_pos hg]
    rfl
  · rw [if_neg (Bool.eq_false_iff.mp hr), if_neg (Bool.eq_false_iff.mp hg), if_pos hc]
    rfl
  · rw [if_neg (Bool.eq_false_iff.mp hr), if_neg (Bool.eq_false_iff.mp hg), if_neg (Int.not_lt.mpr hc)]
    rfl

end

section
/-!
The windows over every instruction (R253): an answer either sends one frame of SD.STEP and charges it, or sends no byte and leaves
every window that it does not update. The balances over a run of operations, and the end of a send (R250), follow.
-/

namespace Sys2Proof.Machine

open Sys2Proof.Claims

/-! ### The bytes of an answer -/

theorem len_eq_zero_of_quiet {st : SendStatus} {frames : List DataFrameDesc} (h : quietResult (.ok (.send st frames)) = true)
    {f : DataFrameDesc} (hf : f ∈ frames) : f.len = 0 :=
  List.sum_eq_zero_iff_forall_eq_nat.mp (of_decide_eq_true h) _ (List.mem_map_of_mem hf)

/-- The statements' bytes of an answer are those that `quietResult` denies. -/
theorem sentBytes_of_quiet {r : Response} (h : quietResult r = true) : sentBytes r = 0 := by
  unfold sentBytes
  split
  · exact of_decide_eq_true h
  · rfl

/-- An answer without a byte has none for any stream. -/
theorem sentOn_of_quiet (id : StreamId) {r : Response} (h : quietResult r = true) : sentOn id r = 0 := by
  unfold sentOn
  split
  · refine List.sum_eq_zero_iff_forall_eq_nat.mpr (List.forall_mem_map.mpr fun f hf => ?_)
    exact len_eq_zero_of_quiet h (List.mem_filter.mp hf).1
  · rfl

theorem sentBytes_single (st : SendStatus) (f : DataFrameDesc) : sentBytes (.ok (.send st [f])) = f.len := by simp [sentBytes]

theorem sentOn_single_self (st : SendStatus) (f : DataFrameDesc) : sentOn f.streamId (.ok (.send st [f])) = f.len := by
  simp [sentOn]

theorem sentOn_single_of_ne {id : StreamId} {f : DataFrameDesc} (st : SendStatus) (h : f.streamId ≠ id) :
    sentOn id (.ok (.send st [f])) = 0 := by
  simp [sentOn, h]

/-! ### Frames sent and windows kept -/

/-- The instruction is an SD.STEP that answers the frame `f`, within the credit of its stream, and charges both windows (R248). -/
structure SendsFrame (i : Instr) (s t : State) (f : DataFrameDesc) (e e' : StreamEntry) : Prop where
  op : ∃ k, i = .sdStep k
  response : ∃ st, t.response = .ok (.send st [f])
  entry : s.stream f.streamId = some e
  within : (f.len : Int) ≤ s.credit e
  connWindow : t.connWindow.toInt = s.connWindow.toInt - f.len
  streams : t.streams = streamInsert s.streams f.streamId e'
  window : e'.window.toInt = e.window.toInt - f.len

/-- The instruction answers no byte, and no window is moved but by the WC.UPDATE that addresses it (R253, R254). -/
structure KeepsWindows (i : Instr) (s t : State) : Prop where
  response : quietResult t.response = true
  connWindow : (∀ d, i ≠ .wcUpdate 0 d) → t.connWindow = s.connWindow
  stream : ∀ id e, (∀ d, i ≠ .wcUpdate id d) → s.stream id = some e → ∃ e', t.stream id = some e' ∧ e'.window = e.window

section
variable {i : Instr} {s t : State}

/-- Neither CONN_WINDOW nor STREAMS is written. -/
theorem KeepsWindows.of_eq (hr : quietResult t.response = true) (hc : t.connWindow = s.connWindow) (hs : t.streams = s.streams) :
    KeepsWindows i s t :=
  ⟨hr, fun _ => hc, fun id e _ he => ⟨e, by rw [State.stream, hs]; exact he, rfl⟩⟩

/-- One stream is written, with its old window if it was open and the instruction does not update it. -/
theorem KeepsWindows.of_insert {id : StreamId} {new : StreamEntry} (hr : quietResult t.response = true)
    (hc : t.connWindow = s.connWindow) (hs : t.streams = streamInsert s.streams id new)
    (hw : (∀ d, i ≠ .wcUpdate id d) → ∀ old, s.stream id = some old → new.window = old.window) : KeepsWindows i s t := by
  refine ⟨hr, fun _ => hc, fun j e hi he => ?_⟩
  rw [State.stream, hs]
  by_cases hj : j = id
  · subst hj
    exact ⟨new, streamFind_insert_self _ _ _, hw hi e he⟩
  · exact ⟨e, (streamFind_insert_of_ne _ _ _ _ hj).trans he, rfl⟩

/-- One open stream is written with its old window. -/
theorem KeepsWindows.of_update {id : StreamId} {old new : StreamEntry} (ho : s.stream id = some old) (hw : new.window = old.window)
    (hr : quietResult t.response = true) (hc : t.connWindow = s.connWindow) (hs : t.streams = streamInsert s.streams id new) :
    KeepsWindows i s t :=
  .of_insert hr hc hs fun _ x hx => by rw [ho] at hx; cases hx; exact hw

theorem StreamEntry.markHeaders_window (e : StreamEntry) (endStream : Bool) : (e.markHeaders endStream).window = e.window :=
  { e with selfEndHeaders := true }.finishIf_window endStream

/-- What an instruction does to the windows: it sends one frame and charges it, or moves no window that it does not update. -/
theorem Change.sends_or_keeps (h : Change i s t) : (∃ f e e', SendsFrame i s t f e e') ∨ KeepsWindows i s t := by
  cases h with
  | stepFinal k c e hi _ _ he _ hr =>
    obtain ⟨hconn, hstream⟩ := toInt_charge_of_le_credit hr
    have hw := e.finishIf_window c.wantEnd
    exact .inl ⟨⟨c.sid, c.remaining, c.wantEnd⟩, e, _, ⟨k, hi⟩, ⟨_, rfl⟩, he, hr, hconn, rfl, by rw [hw]; exact hstream⟩
  | stepPart k c e m _ _ hi _ _ he _ hc =>
    obtain ⟨hconn, hstream⟩ := toInt_charge_of_le_credit hc.le
    exact .inl ⟨⟨c.sid, m, false⟩, e, _, ⟨k, hi⟩, ⟨_, rfl⟩, he, hc.le, hconn, rfl, hstream⟩
  | connUpdated d w hi => exact .inr ⟨rfl, fun hne => absurd hi (hne d), fun _ e _ he => ⟨e, he, rfl⟩⟩
  | streamUpdated id d w e hi => exact .inr (.of_insert rfl rfl rfl fun hne => absurd hi (hne d))
  | opened id _ _ hn => exact .inr (.of_insert rfl rfl rfl fun _ old ho => by rw [hn] at ho; cases ho)
  | markedReset id e _ he => exact .inr (.of_update (new := e.markReset) he rfl rfl rfl rfl)
  | headersSent id b e _ he => exact .inr (.of_update he (e.markHeaders_window b) rfl rfl rfl)
  | emptySend k sid e _ _ he => exact .inr (.of_update (new := e.markFinished) he rfl rfl rfl rfl)
  | respond r hr => exact .inr (.of_eq hr rfl rfl)
  | polled k c e ph r _ _ _ _ _ hr => exact .inr (.of_eq hr rfl rfl)
  | table tid d => exact .inr (.of_eq rfl (s.setTable_connWindow tid d) (s.setTable_streams tid d))
  | _ => exact .inr (.of_eq rfl rfl rfl)

/-! ### One operation -/

/-- A WC.UPDATE 0 that answers adds its delta exactly (R235). -/
theorem exec_wcUpdate_zero_next {delta : U32} (h : exec (.wcUpdate 0 delta) s = .next t) :
    t.connWindow.toInt = s.connWindow.toInt + delta.toInt ∧ t.response = .ok .done := by
  by_cases hr : -2147483648 ≤ s.connWindow.toInt + delta.toInt ∧ s.connWindow.toInt + delta.toInt ≤ 2147483647
  · obtain ⟨w, hw, hexec⟩ := exec_wcUpdate_zero_of_range hr.1 hr.2
    rw [hexec] at h
    cases h
    exact ⟨hw, rfl⟩
  · rw [exec_wcUpdate_zero_of_overflow (by omega)] at h
    cases h

/-- A WC.UPDATE of an open stream that answers adds its delta exactly (R235). -/
theorem exec_wcUpdate_next {id : StreamId} {delta : U32} {e : StreamEntry} (h0 : id ≠ 0) (he : s.stream id = some e)
    (h : exec (.wcUpdate id delta) s = .next t) :
    ∃ e', t.stream id = some e' ∧ e'.window.toInt = e.window.toInt + delta.toInt ∧ t.response = .ok .done := by
  by_cases hr : -2147483648 ≤ e.window.toInt + delta.toInt ∧ e.window.toInt + delta.toInt ≤ 2147483647
  · obtain ⟨w, hw, hexec⟩ := exec_wcUpdate_of_range h0 he hr.1 hr.2
    rw [hexec] at h
    cases h
    exact ⟨_, s.stream_setStream_self id _, hw, rfl⟩
  · rw [exec_wcUpdate_of_overflow h0 he (by omega)] at h
    cases h

theorem deltaStream_eq_zero {id : StreamId} (h : ∀ d, i ≠ .wcUpdate id d) : deltaStream id i = 0 := by
  cases i with
  | wcUpdate j d => exact if_neg fun hj : j = id => h d (hj ▸ rfl)
  | _ => rfl

/-- The statements' two sums of deltas agree on id 0. -/
theorem deltaConn_eq_deltaStream (i : Instr) : deltaConn i = deltaStream 0 i := by cases i <;> rfl

/-- One operation moves CONN_WINDOW by its delta and its frame (R253). -/
theorem exec_connWindow (h : exec i s = .next t) :
    t.connWindow.toInt = s.connWindow.toInt + deltaConn i - sentBytes t.response := by
  by_cases hi : ∃ d, i = .wcUpdate 0 d
  · obtain ⟨d, rfl⟩ := hi
    obtain ⟨hw, hr⟩ := exec_wcUpdate_zero_next h
    rw [hw, hr]
    exact (sub_zero _).symm
  · have hne := not_exists.mp hi
    rw [deltaConn_eq_deltaStream, deltaStream_eq_zero hne, add_zero]
    rcases (exec_change i s t h).sends_or_keeps with ⟨f, e, e', hf⟩ | hk
    · obtain ⟨st, hr⟩ := hf.response
      rw [hr, sentBytes_single, hf.connWindow]
    · rw [sentBytes_of_quiet hk.response, hk.connWindow hne]
      exact (sub_zero _).symm

/-- One operation moves the window of an open stream by its delta for the stream and its frame on the stream (R253, R254). -/
theorem exec_streamWindow {id : StreamId} {e : StreamEntry} (h0 : id ≠ 0) (he : s.stream id = some e) (h : exec i s = .next t) :
    ∃ e', t.stream id = some e' ∧ e'.window.toInt = e.window.toInt + deltaStream id i - sentOn id t.response := by
  by_cases hi : ∃ d, i = .wcUpdate id d
  · obtain ⟨d, rfl⟩ := hi
    obtain ⟨e', he', hw, hr⟩ := exec_wcUpdate_next h0 he h
    refine ⟨e', he', ?_⟩
    rw [hw, hr, deltaStream, if_pos rfl]
    exact (sub_zero _).symm
  · have hne := not_exists.mp hi
    rw [deltaStream_eq_zero hne, add_zero]
    rcases (exec_change i s t h).sends_or_keeps with ⟨f, old, new, hf⟩ | hk
    · obtain ⟨st, hr⟩ := hf.response
      rw [hr, State.stream, hf.streams]
      by_cases hid : f.streamId = id
      · subst hid
        obtain rfl : e = old := Option.some.inj (he.symm.trans hf.entry)
        exact ⟨new, streamFind_insert_self _ _ _, by rw [sentOn_single_self, hf.window]⟩
      · refine ⟨e, (streamFind_insert_of_ne _ _ _ _ (Ne.symm hid)).trans he, ?_⟩
        rw [sentOn_single_of_ne st hid]
        exact (sub_zero _).symm
    · obtain ⟨e', he', hw⟩ := hk.stream id e hne he
      refine ⟨e', he', ?_⟩
      rw [hw, sentOn_of_quiet id hk.response]
      exact (sub_zero _).symm

end

/-! ### A run of operations -/

section
variable {i : Instr} {is : List Instr} {s t : State} {added sent : Int}

theorem connBalance_cons (h : connBalance (i :: is) s = some (t, added, sent)) :
    ∃ u added' sent', exec i s = .next u ∧ connBalance is u = some (t, added', sent')
      ∧ added = deltaConn i + added' ∧ sent = sentBytes u.response + sent' := by
  unfold connBalance at h
  split at h
  · obtain ⟨⟨_, added', sent'⟩, hrest, heq⟩ := Option.map_eq_some_iff.mp h
    cases heq
    exact ⟨_, added', sent', ‹_›, hrest, rfl, rfl⟩
  · cases h

theorem streamBalance_cons {id : StreamId} (h : streamBalance id (i :: is) s = some (t, added, sent)) :
    ∃ u added' sent', exec i s = .next u ∧ streamBalance id is u = some (t, added', sent')
      ∧ added = deltaStream id i + added' ∧ sent = sentOn id u.response + sent' := by
  unfold streamBalance at h
  split at h
  · obtain ⟨⟨_, added', sent'⟩, hrest, heq⟩ := Option.map_eq_some_iff.mp h
    cases heq
    exact ⟨_, added', sent', ‹_›, hrest, rfl, rfl⟩
  · cases h

end

/-! ### The end of a send (R250) -/

section
variable {k : Nat} {c : SendCtx} {s t : State}

/-- Reading back the context written over an existing one. -/
theorem State.ctx_of_sendCtx_set (hk : s.ctx k = some c) {x : SendCtx} (ht : t.sendCtx = s.sendCtx.set k x) : t.ctx k = some x := by
  rw [State.ctx, ht]
  exact List.getElem?_set_self (List.getElem?_eq_some_iff.mp hk).1

/-- SD.STEP in RUN with an open stream answers; a context that stays in RUN has fewer bytes left, and some. -/
theorem exec_sdStep_progress {e : StreamEntry} (hk : s.ctx k = some c) (hp : c.phase = .run) (he : s.stream c.sid = some e) :
    ∃ t c', exec (.sdStep k) s = .next t ∧ t.ctx k = some c'
      ∧ (c'.phase = .run → c'.sid = c.sid ∧ 0 < c'.remaining ∧ c'.remaining < c.remaining) := by
  rw [exec_sdStep_run k c s e hk hp he]
  by_cases hc : s.credit e ≤ 0
  · rw [if_pos hc]
    exact ⟨_, _, rfl, State.ctx_of_sendCtx_set hk rfl, nofun⟩
  · rw [if_neg hc]
    by_cases hr : (c.remaining : Int) ≤ s.credit e
    · rw [if_pos hr]
      exact ⟨_, _, rfl, State.ctx_of_sendCtx_set hk rfl, nofun⟩
    · rw [if_neg hr]
      refine ⟨_, _, rfl, State.ctx_of_sendCtx_set hk rfl, fun _ => ⟨rfl, ?_⟩⟩
      dsimp only
      omega

theorem stepTimes_succ_of_next (m : Nat) (h : exec (.sdStep k) s = .next t) : stepTimes (m + 1) k s = stepTimes m k t := by
  simp only [stepTimes, h]

/-- A send in RUN leaves RUN: each step that stays in RUN leaves fewer bytes. -/
theorem exists_stepTimes_leaves_run (k : Nat) (c : SendCtx) (s : State) (e : StreamEntry) (hk : s.ctx k = some c) (hp : c.phase = .run)
    (hr : 0 < c.remaining) (he : s.stream c.sid = some e) :
    ∃ m ≤ c.remaining, ∃ u c', stepTimes m k s = .next u ∧ u.ctx k = some c' ∧ c'.phase ≠ .run := by
  induction hn : c.remaining using Nat.strong_induction_on generalizing c s e with
  | h n ih =>
    subst hn
    obtain ⟨t, c', hstep, hk', hnext⟩ := exec_sdStep_progress hk hp he
    by_cases hp' : c'.phase = .run
    · obtain ⟨hsid, hr', hlt⟩ := hnext hp'
      obtain ⟨e', he', -⟩ := (exec_change _ _ _ hstep).streamsStay _ e he
      obtain ⟨m, hm, u, d, hrun, hd, hleft⟩ := ih _ hlt c' t e' hk' hp' hr' (hsid ▸ he') rfl
      exact ⟨m + 1, hm.trans_lt hlt, u, d, (stepTimes_succ_of_next m hstep).trans hrun, hd, hleft⟩
    · exact ⟨1, hr, t, c', stepTimes_succ_of_next 0 hstep, hk', hp'⟩

end

end Sys2Proof.Machine

open Sys2Proof Sys2Proof.Machine Sys2Proof.Claims

/-- Settles O49: an answer with a byte is the one frame of an SD.STEP, within the credit and so within all three bounds. -/
theorem framesWithinWindows : Obligations.FramesWithinWindows := by
  intro i s t st frames f h hr hmem hlen
  rcases (exec_change i s t h).sends_or_keeps with ⟨g, e, e', hg⟩ | hk
  · obtain ⟨k, hi⟩ := hg.op
    obtain ⟨st', hr'⟩ := hg.response
    obtain ⟨-, rfl⟩ : st = st' ∧ frames = [g] := by simpa using hr.symm.trans hr'
    obtain rfl := List.mem_singleton.mp hmem
    obtain ⟨hframe, hconn, hstream⟩ := credit_le s e
    have hentry : t.stream f.streamId = some e' := by rw [State.stream, hg.streams, streamFind_insert_self]
    exact ⟨k, e, e', hi, rfl, hg.entry, hentry, Int.ofNat_le.mp (hg.within.trans hframe), hg.within.trans hconn,
      hg.within.trans hstream, hg.connWindow, hg.window⟩
  · exact absurd (len_eq_zero_of_quiet (hr ▸ hk.response) hmem) hlen.ne'

/-- Settles O50, by induction on the operations: each moves CONN_WINDOW by its delta and its frame. -/
theorem connectionWindowBalance : Obligations.ConnectionWindowBalance := by
  intro is
  induction is with
  | nil =>
    intro s t added sent h
    cases h
    simp
  | cons i is ih =>
    intro s t added sent h
    obtain ⟨u, added', sent', hexec, hrest, rfl, rfl⟩ := connBalance_cons h
    have hfirst := exec_connWindow hexec
    have hlast := ih u t added' sent' hrest
    omega

/-- Settles O51, by induction on the operations: each keeps the entry and moves its window by its delta and its frame. -/
theorem streamWindowBalance : Obligations.StreamWindowBalance := by
  intro id is
  induction is with
  | nil =>
    intro s t e added sent _ he h
    cases h
    exact ⟨e, he, by simp⟩
  | cons i is ih =>
    intro s t e added sent h0 he h
    obtain ⟨u, added', sent', hexec, hrest, rfl, rfl⟩ := streamBalance_cons h
    obtain ⟨x, hx, hfirst⟩ := exec_streamWindow h0 he hexec
    obtain ⟨e', he', hlast⟩ := ih u t x added' sent' h0 hx hrest
    exact ⟨e', he', by omega⟩

/-- Settles O52: the bytes remaining bound the steps in RUN. -/
theorem sendLeavesRun : Obligations.SendLeavesRun := by
  intro k c s hk hp hr hs
  obtain ⟨e, he⟩ := Option.ne_none_iff_exists'.mp hs
  exact exists_stepTimes_leaves_run k c s e hk hp hr he

end

section
/-!
PROOF. The configuration (R270, R271): what CFG.APPLY writes to each setting and to the state.
-/

namespace Sys2Proof.Machine

/-- A setting takes the update's value where there is one and else stays (R270). -/
theorem Setting.update_eq_elim (r : Setting) (u : Option U32) : r.update u = u.elim r (Setting.mk true) := by
  cases u with
  | none => rfl
  | some v => rfl

/-- CFG.APPLY updates the bank and answers done (R271). -/
theorem exec_cfgApply (u : SettingsUpdate) (s : State) :
    exec (.cfgApply u) s = .next ((s.setCfg (s.cfg.update u)).setResponse (.ok .done)) := rfl

end Sys2Proof.Machine

open Sys2Proof Sys2Proof.Machine Sys2Proof.Claims

/-- Settles O53: CFG.APPLY writes the updated bank, and each of its settings takes the update's value where there is one. -/
theorem cfgApplyOverwritesPresent : Obligations.CfgApplyOverwritesPresent := by
  intro u s
  rw [exec_cfgApply, CfgBank.update]
  simp only [Setting.update_eq_elim]
  rfl

end

section
/-!
PROOF. What a raise leaves behind (R301): an SD.POLL that raises, then which kinds of `Change` can raise; and the step with nothing
issued (R293, R322).
-/

namespace Sys2Proof.Machine

/-- A poll that raises returns its context to IDLE and writes nothing else (R251). -/
theorem exec_sdPoll_raised {k : Nat} {c : SendCtx} {e : StreamEntry} {s t : State} {err : Error} (hk : s.ctx k = some c)
    (hp : c.phase = .blocked) (he : s.stream c.sid = some e) (h : exec (.sdPoll k) s = .next t) (hr : t.response = .raised err) :
    t = (s.setCtx k { c with phase := .idle }).setResponse (.raised err) := by
  rw [exec_sdPoll_blocked k c s e hk hp he] at h
  split at h
  · cases h; cases hr; rfl
  · split at h
    · cases h; cases hr; rfl
    · split at h <;> (cases h; cases hr)

/-- The three kinds of raise: one that only answers, a decode that fails, and a poll (R301, R194, R251). -/
theorem exec_raised_cases {i : Instr} {s t : State} {err : Error} (h : exec i s = .next t) (hr : t.response = .raised err) :
    t = s.setResponse (.raised err)
    ∨ (readsBlock i = true ∧ ∃ d cause, t = ((s.setTable .dec d).setDecFault true cause).setResponse (.raised err))
    ∨ ∃ k c, i = .sdPoll k ∧ s.ctx k = some c
      ∧ t = (s.setCtx k { c with phase := .idle }).setResponse (.raised err) := by
  cases exec_change i s t h with
  | respond => cases hr; exact .inl rfl
  | decodeFailed d c k hi => cases hr; exact .inr (.inl ⟨hi, d, _, rfl⟩)
  | polled k c e ph r hi hk hp he =>
    subst hi
    exact .inr (.inr ⟨k, c, rfl, hk, exec_sdPoll_raised hk hp he h hr⟩)
  | _ => cases hr

/-- With nothing issued the block waits (R293, R322). -/
theorem step_of_inbox_nil {s : State} (h : s.inbox = []) : step s = .next s := by
  simp only [step, h]

end Sys2Proof.Machine

open Sys2Proof Sys2Proof.Machine Sys2Proof.Claims

/-- Settles O59, by the three kinds of raise: the table, the fault and the context of each written out as the whole next state. -/
theorem raiseLeavesStateUnchanged : Obligations.RaiseLeavesStateUnchanged := by
  intro i s t err h hr
  rcases exec_raised_cases h hr with rfl | ⟨hi, d, cause, rfl⟩ | ⟨k, c, hi, hk, rfl⟩
  · exact .inl rfl
  · exact .inr (.inl ⟨(interpretsBlock_eq_readsBlock i).trans hi, rfl⟩)
  · exact .inr (.inr ⟨k, c, hi, hk, rfl⟩)

/-- Settles O10: with an empty queue the step is its waiting branch. -/
theorem stepWaitsWithoutIssue : Obligations.StepWaitsWithoutIssue :=
  fun _ => step_of_inbox_nil

end
